-- ==== Sys2Proof/Word.lean ====
section
/-! DEFINITION. The three access widths of 00_scope.md R6 and R10 as bit vectors. -/

namespace Sys2Proof

/-- 8 bits (00_scope.md R10). -/
abbrev Byte := BitVec 8

/-- 16 bits (00_scope.md R10). -/
abbrev Half := BitVec 16

/-- 32 bits: a word, and an address (00_scope.md R6, R10). -/
abbrev Word := BitVec 32

end Sys2Proof
end

