-- ==== Sys2Proof/Config.lean ====
section
/-! DEFINITION. The names of the windows and registers, the two register files and the four region stores as plain
data, and the configuration record CFG of 00_scope.md R7 with its reference value CFG_REF. -/

namespace Sys2Proof

/-! ## Names -/

/-- The four storage regions (10_state.md R24 to R27), in the order in which the decoder tries them (20_memory.md R72). -/
inductive Region
  | rom | wram | vram | aram
deriving DecidableEq, Repr

/-- Every region, in the order of 20_memory.md R72. -/
def Region.all : List Region := [.rom, .wram, .vram, .aram]

/-- The 21 video-unit registers (30_encoding.md R121). -/
inductive VReg
  | intpnd | intenb | intclr | dpstts | dpctrl | brta | brtb | brtc | rest | frmcyc | cta | ver | splt0 | splt1 | splt2 | splt3 | oplt0 | oplt1 | oplt2 | oplt3 | bkcol
deriving DecidableEq, Repr

/-- Every video register, in the order of 30_encoding.md R121. -/
def VReg.all : List VReg :=
  [.intpnd, .intenb, .intclr, .dpstts, .dpctrl, .brta, .brtb, .brtc, .rest, .frmcyc, .cta, .ver, .splt0, .splt1, .splt2, .splt3, .oplt0, .oplt1, .oplt2, .oplt3, .bkcol]

/-- The 11 peripheral registers (30_encoding.md R123). -/
inductive PReg
  | ccr | ccsr | cdtr | cdrr | slb | shb | tlb | thb | tcr | wcr | scr
deriving DecidableEq, Repr

/-- Every peripheral register, in the order of 30_encoding.md R123. -/
def PReg.all : List PReg := [.ccr, .ccsr, .cdtr, .cdrr, .slb, .shb, .tlb, .thb, .tcr, .wcr, .scr]

/-! ## The region stores -/

/-- What a byte that a store does not list holds. A byte array is held as the list of its bytes that differ from this
one (DESIGN CHOICE, log 4: a representation; every byte array has one). -/
def unlistedByte : Byte := 0x00

/-- A byte array, by offset, offsets strictly rising and no entry equal to `unlistedByte`
(`ByteStore.Canon` in WellFormed.lean). -/
abbrev ByteStore := List Host.Cell

/-- The contents of the four regions (10_state.md R24 to R27), each indexed by offset inside its backing store. -/
structure Memory where
  rom  : ByteStore
  wram : ByteStore
  vram : ByteStore
  aram : ByteStore
deriving DecidableEq, Repr

/-- The store of one region. -/
def Memory.store (m : Memory) : Region → ByteStore
  | .rom => m.rom
  | .wram => m.wram
  | .vram => m.vram
  | .aram => m.aram

/-! ## The register files -/

/-- The stored video-unit registers, 16 bits each (10_state.md R28, R29, R31 to R38, R40 to R43). `INTCLR` and `VER`
are addresses without storage (R30, R39). -/
structure VideoRegs where
  /-- interrupt-pending, R28 -/
  intpnd : Half
  /-- interrupt-enable, R29 -/
  intenb : Half
  /-- display status, R31 -/
  dpstts : Half
  /-- display control, R32 -/
  dpctrl : Half
  /-- brightness level A, R33 -/
  brta : Half
  /-- brightness level B, R34 -/
  brtb : Half
  /-- brightness level C, R35 -/
  brtc : Half
  /-- refresh-rate control, R36 -/
  rest : Half
  /-- frame-cycle control, R37 -/
  frmcyc : Half
  /-- current-time accumulator, R38 -/
  cta : Half
  /-- sprite palette 0, R40 -/
  splt0 : Half
  /-- sprite palette 1, R40 -/
  splt1 : Half
  /-- sprite palette 2, R40 -/
  splt2 : Half
  /-- sprite palette 3, R40 -/
  splt3 : Half
  /-- object palette 0, R41 -/
  oplt0 : Half
  /-- object palette 1, R41 -/
  oplt1 : Half
  /-- object palette 2, R41 -/
  oplt2 : Half
  /-- object palette 3, R41 -/
  oplt3 : Half
  /-- background colour, R42 -/
  bkcol : Half
  /-- hidden frame counter, R43 -/
  fcnt : Half
deriving DecidableEq, Repr

/-- The stored peripheral registers and hidden timer fields (10_state.md R44 to R56). `TCR` is its four stored bits
(R46); `THB` and `TLB` are addresses without storage (R47). -/
structure PeriphRegs where
  /-- serial control, R44 -/
  scr : Byte
  /-- wait control, R45 -/
  wcr : Byte
  /-- timer enable, the machine is Running when set, R46 -/
  tEnb : Bool
  /-- the latched timer-expiry request, R46 -/
  zStat : Bool
  /-- the timer interrupt enable, R46 -/
  zInt : Bool
  /-- auto-reload, R46 -/
  tAuto : Bool
  /-- serial higher byte, R48 -/
  shb : Byte
  /-- serial lower byte, R48 -/
  slb : Byte
  /-- communication receive data, R49 -/
  cdrr : Byte
  /-- communication transmit data, R50 -/
  cdtr : Byte
  /-- communication status, R51 -/
  ccsr : Byte
  /-- communication control, R52 -/
  ccr : Byte
  /-- the staged reload value, R53 -/
  tStage : Half
  /-- the live down-counter, R54 -/
  tCount : Half
  /-- the inert word accumulator, R55 -/
  tWord : Word
  /-- the reset latch, R56 -/
  tReset : Bool
deriving DecidableEq, Repr

/-! ## The configuration -/

/-- `WIN[r]`: the window of a region (00_scope.md R7, 20_memory.md R73). -/
structure Window where
  base     : Nat
  winSize  : Nat
  backSize : Nat
  writable : Bool
deriving DecidableEq, Repr

/-- `VBLK.size`, a constant (00_scope.md R7). -/
def vblkSize : Nat := 0x80

/-- `PBLK.size`, a constant (00_scope.md R7). -/
def pblkSize : Nat := 0x40

/-- `VOFF`: the block offset of each video register (30_encoding.md R121). -/
structure VOffsets where
  intpnd : Nat
  intenb : Nat
  intclr : Nat
  dpstts : Nat
  dpctrl : Nat
  brta : Nat
  brtb : Nat
  brtc : Nat
  rest : Nat
  frmcyc : Nat
  cta : Nat
  ver : Nat
  splt0 : Nat
  splt1 : Nat
  splt2 : Nat
  splt3 : Nat
  oplt0 : Nat
  oplt1 : Nat
  oplt2 : Nat
  oplt3 : Nat
  bkcol : Nat
deriving DecidableEq, Repr

/-- `POFF`: the block offset of each peripheral register (30_encoding.md R123). -/
structure POffsets where
  ccr : Nat
  ccsr : Nat
  cdtr : Nat
  cdrr : Nat
  slb : Nat
  shb : Nat
  tlb : Nat
  thb : Nat
  tcr : Nat
  wcr : Nat
  scr : Nat
deriving DecidableEq, Repr

/-- `WMASK_X` for each plain video register (00_scope.md R7, 41_video_regs.md R170). -/
structure VMasks where
  dpctrl : Half
  brta : Half
  brtb : Half
  brtc : Half
  rest : Half
  frmcyc : Half
  splt0 : Half
  splt1 : Half
  splt2 : Half
  splt3 : Half
  oplt0 : Half
  oplt1 : Half
  oplt2 : Half
  oplt3 : Half
  bkcol : Half
deriving DecidableEq, Repr

/-- `CCR_WMASK`, `CCSR_WMASK`, `SCR_WMASK`, `WCR_WMASK` (00_scope.md R7, 42_periph_regs.md R221). -/
structure PMasks where
  ccr  : Byte
  ccsr : Byte
  scr  : Byte
  wcr  : Byte
deriving DecidableEq, Repr

/-- The bit numbers of the `TCR` fields (00_scope.md R7, 10_state.md R46). -/
structure TcrBits where
  enb   : Fin 8
  zstat : Fin 8
  zclr  : Fin 8
  zint  : Fin 8
  auto  : Fin 8
  load  : Fin 8
deriving DecidableEq, Repr

/-- The configuration record `CFG` (00_scope.md R7). The model holds it as plain data (log 3). -/
structure Config where
  /-- ADDR_MASK, 20_memory.md R71 -/
  addrMask : Word
  /-- WIN[ROM] -/
  romWin : Window
  /-- WIN[WRAM] -/
  wramWin : Window
  /-- WIN[VRAM] -/
  vramWin : Window
  /-- WIN[ARAM] -/
  aramWin : Window
  /-- VBLK.base -/
  vblkBase : Nat
  /-- PBLK.base -/
  pblkBase : Nat
  /-- FILL_BYTE, 20_memory.md R78 -/
  fillByte : Byte
  /-- VOFF, 30_encoding.md R121 -/
  vOff : VOffsets
  /-- POFF, 30_encoding.md R123 -/
  pOff : POffsets
  /-- WMASK_X of the plain video registers, 41_video_regs.md R170 -/
  vMask : VMasks
  /-- the four peripheral write masks, 42_periph_regs.md R221 -/
  pMask : PMasks
  /-- VIP_VERSION, 41_video_regs.md R191 -/
  vipVersion : Half
  /-- RT_FRAME_MASK, 44_events.md R291 -/
  rtFrameMask : Half
  /-- RT_GAME_MASK, 44_events.md R291 -/
  rtGameMask : Half
  /-- the TCR bit numbers, 42_periph_regs.md R236 -/
  tcr : TcrBits
  /-- ROM_IMAGE and RAM_INIT[r], 70_reset_and_hazards.md R363 -/
  image : Memory
  /-- RESET_X of the video block, 70_reset_and_hazards.md R362 -/
  resetVid : VideoRegs
  /-- RESET_X of the peripheral block and the hidden timer fields, 70_reset_and_hazards.md R361 -/
  resetPer : PeriphRegs
deriving DecidableEq, Repr

/-- `WIN[r]` (00_scope.md R7). -/
def Config.win (c : Config) : Region → Window
  | .rom => c.romWin
  | .wram => c.wramWin
  | .vram => c.vramWin
  | .aram => c.aramWin

/-- `VOFF[X]` (00_scope.md R7). -/
def Config.voff (c : Config) : VReg → Nat
  | .intpnd => c.vOff.intpnd
  | .intenb => c.vOff.intenb
  | .intclr => c.vOff.intclr
  | .dpstts => c.vOff.dpstts
  | .dpctrl => c.vOff.dpctrl
  | .brta => c.vOff.brta
  | .brtb => c.vOff.brtb
  | .brtc => c.vOff.brtc
  | .rest => c.vOff.rest
  | .frmcyc => c.vOff.frmcyc
  | .cta => c.vOff.cta
  | .ver => c.vOff.ver
  | .splt0 => c.vOff.splt0
  | .splt1 => c.vOff.splt1
  | .splt2 => c.vOff.splt2
  | .splt3 => c.vOff.splt3
  | .oplt0 => c.vOff.oplt0
  | .oplt1 => c.vOff.oplt1
  | .oplt2 => c.vOff.oplt2
  | .oplt3 => c.vOff.oplt3
  | .bkcol => c.vOff.bkcol

/-- `POFF[X]` (00_scope.md R7). -/
def Config.poff (c : Config) : PReg → Nat
  | .ccr => c.pOff.ccr
  | .ccsr => c.pOff.ccsr
  | .cdtr => c.pOff.cdtr
  | .cdrr => c.pOff.cdrr
  | .slb => c.pOff.slb
  | .shb => c.pOff.shb
  | .tlb => c.pOff.tlb
  | .thb => c.pOff.thb
  | .tcr => c.pOff.tcr
  | .wcr => c.pOff.wcr
  | .scr => c.pOff.scr

/-! ## The reference configuration -/

/-- `VOFF` of CFG_REF, the table of 30_encoding.md R121. -/
def VOffsets.ref : VOffsets where
  intpnd := 0x00
  intenb := 0x02
  intclr := 0x04
  dpstts := 0x20
  dpctrl := 0x22
  brta := 0x24
  brtb := 0x26
  brtc := 0x28
  rest := 0x2A
  frmcyc := 0x2E
  cta := 0x30
  ver := 0x44
  splt0 := 0x48
  splt1 := 0x4A
  splt2 := 0x4C
  splt3 := 0x4E
  oplt0 := 0x68
  oplt1 := 0x6A
  oplt2 := 0x6C
  oplt3 := 0x6E
  bkcol := 0x70

/-- `POFF` of CFG_REF, the table of 30_encoding.md R123. -/
def POffsets.ref : POffsets where
  ccr := 0x00
  ccsr := 0x04
  cdtr := 0x08
  cdrr := 0x0C
  slb := 0x10
  shb := 0x14
  tlb := 0x18
  thb := 0x1C
  tcr := 0x20
  wcr := 0x24
  scr := 0x28

/-- Every `WMASK_X` of CFG_REF is `0xFFFF` (00_scope.md R7). -/
def VMasks.ref : VMasks where
  dpctrl := 0xFFFF
  brta := 0xFFFF
  brtb := 0xFFFF
  brtc := 0xFFFF
  rest := 0xFFFF
  frmcyc := 0xFFFF
  splt0 := 0xFFFF
  splt1 := 0xFFFF
  splt2 := 0xFFFF
  splt3 := 0xFFFF
  oplt0 := 0xFFFF
  oplt1 := 0xFFFF
  oplt2 := 0xFFFF
  oplt3 := 0xFFFF
  bkcol := 0xFFFF

/-- The reset values of the video block in CFG_REF: `0x0000` each (70_reset_and_hazards.md R362, log 6). -/
def VideoRegs.zero : VideoRegs where
  intpnd := 0x0000
  intenb := 0x0000
  dpstts := 0x0000
  dpctrl := 0x0000
  brta := 0x0000
  brtb := 0x0000
  brtc := 0x0000
  rest := 0x0000
  frmcyc := 0x0000
  cta := 0x0000
  splt0 := 0x0000
  splt1 := 0x0000
  splt2 := 0x0000
  splt3 := 0x0000
  oplt0 := 0x0000
  oplt1 := 0x0000
  oplt2 := 0x0000
  oplt3 := 0x0000
  bkcol := 0x0000
  fcnt := 0x0000

/-- The reset values of the peripheral block and the hidden timer fields in CFG_REF: zero each
(70_reset_and_hazards.md R361, log 6). -/
def PeriphRegs.zero : PeriphRegs where
  scr := 0x00
  wcr := 0x00
  tEnb := false
  zStat := false
  zInt := false
  tAuto := false
  shb := 0x00
  slb := 0x00
  cdrr := 0x00
  cdtr := 0x00
  ccsr := 0x00
  ccr := 0x00
  tStage := 0x0000
  tCount := 0x0000
  tWord := 0x00000000
  tReset := false

/-- Stores that list nothing. -/
def Memory.empty : Memory := ⟨[], [], [], []⟩

/-- `CFG_REF` (00_scope.md R7; windows 20_memory.md R74). The images have no reference value: here they list nothing
(DESIGN CHOICE, log 5). -/
def Config.ref : Config where
  addrMask := 0x07FFFFFF
  romWin := { base := 0x07000000, winSize := 0x01000000, backSize := 0x00100000, writable := false }
  wramWin := { base := 0x05000000, winSize := 0x01000000, backSize := 0x00010000, writable := true }
  vramWin := { base := 0x00000000, winSize := 0x00040000, backSize := 0x00040000, writable := true }
  aramWin := { base := 0x01000000, winSize := 0x01000000, backSize := 0x00000800, writable := true }
  vblkBase := 0x0005F800
  pblkBase := 0x02000000
  fillByte := 0xFF
  vOff := VOffsets.ref
  pOff := POffsets.ref
  vMask := VMasks.ref
  pMask := { ccr := 0xFD, ccsr := 0xFD, scr := 0xFD, wcr := 0xFF }
  vipVersion := 0x0002
  rtFrameMask := 0x0010
  rtGameMask := 0x0008
  tcr := { enb := 0, zstat := 1, zclr := 2, zint := 3, auto := 5, load := 6 }
  image := Memory.empty
  resetVid := VideoRegs.zero
  resetPer := PeriphRegs.zero

end Sys2Proof
end

