-- ==== Sys2Proof/Syntax.lean ====
section
/-! DEFINITION. The operations RVPC-OPS (30_encoding.md R112) and the level-2 register operations (R119 to R123):
one constructor a row of spec/opcode_table.json. -/

namespace Sys2Proof

/-- One access to a video register: what `VRegRead(o)` or `VRegWrite(o, v, m)` is asked for (40_bus_ops.md R150 to
R153). `hi` chooses the byte lane, bits 15:8 when set (30_encoding.md R120). -/
inductive VAccess
  /-- read one byte lane -/
  | readByte (hi : Bool)
  /-- read the register -/
  | readHalf
  /-- write one byte lane, lane mask `0x00FF` or `0xFF00` -/
  | writeByte (hi : Bool) (d : Byte)
  /-- write the register, lane mask `0xFFFF` -/
  | writeHalf (d : Half)
deriving DecidableEq, Repr

/-- One access to a peripheral register: `PRegRead(o)` or `PRegWrite(o, v8)` (40_bus_ops.md R156, R157). -/
inductive PAccess
  | read
  | write (d : Byte)
deriving DecidableEq, Repr

/-- An operation. The first 34 constructors are the operations of 30_encoding.md R112 with the operands it lists
(`addr` 32 bits; data at the width R116 uses). The last 32 are the register rows of the opcode table: the level-2
register operation on that register (R119, R131; log 7). -/
inductive Instr
  /-- RD.B, 40_bus_ops.md R142 -/
  | rdB (addr : Word)
  /-- RD.H, R143 -/
  | rdH (addr : Word)
  /-- RD.W, R144 -/
  | rdW (addr : Word)
  /-- WR.B, R145 -/
  | wrB (addr : Word) (d : Byte)
  /-- WR.H, R146 -/
  | wrH (addr : Word) (d : Half)
  /-- WR.W, R147 -/
  | wrW (addr : Word) (d : Word)
  /-- VRD.B, R158 -/
  | vrdB (addr : Word)
  /-- VRD.H, R159 -/
  | vrdH (addr : Word)
  /-- VRD.W, R160 -/
  | vrdW (addr : Word)
  /-- VWR.B, R161 -/
  | vwrB (addr : Word) (d : Byte)
  /-- VWR.H, R162 -/
  | vwrH (addr : Word) (d : Half)
  /-- VWR.W, R163 -/
  | vwrW (addr : Word) (d : Word)
  /-- PRD.B, R164 -/
  | prdB (addr : Word)
  /-- PRD.H, R165 -/
  | prdH (addr : Word)
  /-- PRD.W, R166 -/
  | prdW (addr : Word)
  /-- PWR.B, R167 -/
  | pwrB (addr : Word) (d : Byte)
  /-- PWR.H, R168 -/
  | pwrH (addr : Word) (d : Half)
  /-- PWR.W, R169 -/
  | pwrW (addr : Word) (d : Word)
  /-- RESET, 44_events.md R300 -/
  | reset
  /-- TTICK, 43_timer_engine.md R276 -/
  | ttick
  /-- RTICK, 44_events.md R291 -/
  | rtick
  /-- VRAISE, R293 -/
  | vraise (mask : Half)
  /-- VSTAT, R294 -/
  | vstat (v : Half)
  /-- VCTA, R295 -/
  | vcta (v : Half)
  /-- SERRX, R296 -/
  | serrx (v : Half)
  /-- COMRX, R297 -/
  | comrx (v : Byte)
  /-- PSTAT, R298; well-formed only for CCR, CCSR, SCR -/
  | pstat (x : PReg) (v : Byte)
  /-- IRQQ, R299 -/
  | irqq
  /-- SNAP, R307 -/
  | snap
  /-- RESTORE, R308; its snapshot is carried beside the word (log 10) -/
  | restore
  /-- TDRV.ON, R303 -/
  | tdrvOn (interval : Word)
  /-- TDRV.OFF, R304 -/
  | tdrvOff
  /-- RDRV.ON, R305 -/
  | rdrvOn
  /-- RDRV.OFF, R306 -/
  | rdrvOff
  /-- register INTPND, 41_video_regs.md R173, R174 -/
  | intpnd (acc : VAccess)
  /-- register INTENB, 41_video_regs.md R175 -/
  | intenb (acc : VAccess)
  /-- register INTCLR, 41_video_regs.md R176, R177 -/
  | intclr (acc : VAccess)
  /-- register DPSTTS, 41_video_regs.md R178 -/
  | dpstts (acc : VAccess)
  /-- register DPCTRL, 41_video_regs.md R179 -/
  | dpctrl (acc : VAccess)
  /-- register BRTA, 41_video_regs.md R180 -/
  | brta (acc : VAccess)
  /-- register BRTB, 41_video_regs.md R181 -/
  | brtb (acc : VAccess)
  /-- register BRTC, 41_video_regs.md R182 -/
  | brtc (acc : VAccess)
  /-- register REST, 41_video_regs.md R183 -/
  | rest (acc : VAccess)
  /-- register FRMCYC, 41_video_regs.md R184 -/
  | frmcyc (acc : VAccess)
  /-- register CTA, 41_video_regs.md R185 -/
  | cta (acc : VAccess)
  /-- register VER, 41_video_regs.md R191 -/
  | ver (acc : VAccess)
  /-- register SPLT0, 41_video_regs.md R186 -/
  | splt0 (acc : VAccess)
  /-- register SPLT1, 41_video_regs.md R187 -/
  | splt1 (acc : VAccess)
  /-- register SPLT2, 41_video_regs.md R188 -/
  | splt2 (acc : VAccess)
  /-- register SPLT3, 41_video_regs.md R189 -/
  | splt3 (acc : VAccess)
  /-- register OPLT0, 41_video_regs.md R192 -/
  | oplt0 (acc : VAccess)
  /-- register OPLT1, 41_video_regs.md R193 -/
  | oplt1 (acc : VAccess)
  /-- register OPLT2, 41_video_regs.md R194 -/
  | oplt2 (acc : VAccess)
  /-- register OPLT3, 41_video_regs.md R195 -/
  | oplt3 (acc : VAccess)
  /-- register BKCOL, 41_video_regs.md R196 -/
  | bkcol (acc : VAccess)
  /-- register CCR, 42_periph_regs.md R222, R223 -/
  | ccr (acc : PAccess)
  /-- register CCSR, 42_periph_regs.md R224, R225 -/
  | ccsr (acc : PAccess)
  /-- register CDTR, 42_periph_regs.md R226, R228 -/
  | cdtr (acc : PAccess)
  /-- register CDRR, 42_periph_regs.md R227 -/
  | cdrr (acc : PAccess)
  /-- register SLB, 42_periph_regs.md R229 -/
  | slb (acc : PAccess)
  /-- register SHB, 42_periph_regs.md R230 -/
  | shb (acc : PAccess)
  /-- register TLB, 42_periph_regs.md R231, R232 -/
  | tlb (acc : PAccess)
  /-- register THB, 42_periph_regs.md R233, R234 -/
  | thb (acc : PAccess)
  /-- register TCR, 42_periph_regs.md R235, R236 -/
  | tcr (acc : PAccess)
  /-- register WCR, 42_periph_regs.md R241 -/
  | wcr (acc : PAccess)
  /-- register SCR, 42_periph_regs.md R242, R243 -/
  | scr (acc : PAccess)
deriving DecidableEq, Repr

/-- The level-2 operation on a video register. -/
def Instr.ofVReg (acc : VAccess) : VReg → Instr
  | .intpnd => .intpnd acc
  | .intenb => .intenb acc
  | .intclr => .intclr acc
  | .dpstts => .dpstts acc
  | .dpctrl => .dpctrl acc
  | .brta => .brta acc
  | .brtb => .brtb acc
  | .brtc => .brtc acc
  | .rest => .rest acc
  | .frmcyc => .frmcyc acc
  | .cta => .cta acc
  | .ver => .ver acc
  | .splt0 => .splt0 acc
  | .splt1 => .splt1 acc
  | .splt2 => .splt2 acc
  | .splt3 => .splt3 acc
  | .oplt0 => .oplt0 acc
  | .oplt1 => .oplt1 acc
  | .oplt2 => .oplt2 acc
  | .oplt3 => .oplt3 acc
  | .bkcol => .bkcol acc

/-- The level-2 operation on a peripheral register. -/
def Instr.ofPReg (acc : PAccess) : PReg → Instr
  | .ccr => .ccr acc
  | .ccsr => .ccsr acc
  | .cdtr => .cdtr acc
  | .cdrr => .cdrr acc
  | .slb => .slb acc
  | .shb => .shb acc
  | .tlb => .tlb acc
  | .thb => .thb acc
  | .tcr => .tcr acc
  | .wcr => .wcr acc
  | .scr => .scr acc

end Sys2Proof
end

