-- ==== Sys2Proof/WellFormed.lean ====
section
/-! DEFINITION. What is checked of an operation, of a byte store and of a configuration (`WF(CFG)`, 00_scope.md R9). -/

namespace Sys2Proof

/-- The registers that `PSTAT` may name (44_events.md R298). -/
def PReg.hasStatusBits : PReg → Bool
  | .ccr | .ccsr | .scr => true
  | .cdtr | .cdrr | .slb | .shb | .tlb | .thb | .tcr | .wcr => false

/-- A well-formed operation. Operand widths are in the types of `Instr`; the one further condition is that `PSTAT`
names `CCR`, `CCSR` or `SCR` (44_events.md R298). -/
def Instr.wf : Instr → Bool
  | .pstat x _ => x.hasStatusBits
  | _ => true

/-! ## Byte stores -/

/-- The canonical form of a byte store: offsets strictly rising, no entry equal to `unlistedByte`. Equal byte arrays
are then equal lists (Laws/Memory.lean). -/
abbrev ByteStore.Canon (m : ByteStore) : Prop :=
  m.Pairwise (fun a b => a.1 < b.1) ∧ ∀ c ∈ m, c.2 ≠ unlistedByte

/-- A byte array of length `n`: a canonical store that lists only offsets below `n`. -/
abbrev ByteStore.HasLength (m : ByteStore) (n : Nat) : Prop :=
  m.Canon ∧ ∀ c ∈ m, c.1 < n

/-- The canonical form of the whole memory. -/
abbrev Memory.wf (m : Memory) : Prop :=
  m.rom.Canon ∧ m.wram.Canon ∧ m.vram.Canon ∧ m.aram.Canon

/-- Every store has the length its region has under `c` (10_state.md R24 to R27). -/
abbrev Memory.Fits (c : Config) (m : Memory) : Prop :=
  m.rom.HasLength c.romWin.backSize ∧ m.wram.HasLength c.wramWin.backSize ∧
  m.vram.HasLength c.vramWin.backSize ∧ m.aram.HasLength c.aramWin.backSize

/-! ## Configurations -/

/-- The six windows as base and size: the four regions with their window size and the two register blocks
(00_scope.md R9). -/
def Config.extents (c : Config) : List (Nat × Nat) :=
  [(c.romWin.base, c.romWin.winSize), (c.wramWin.base, c.wramWin.winSize),
   (c.vramWin.base, c.vramWin.winSize), (c.aramWin.base, c.aramWin.winSize),
   (c.vblkBase, vblkSize), (c.pblkBase, pblkSize)]

/-- Two extents share no address. -/
abbrev Apart (v w : Nat × Nat) : Prop := v.1 + v.2 ≤ w.1 ∨ w.1 + w.2 ≤ v.1

/-- 00_scope.md R9 (a): no two windows share an address. -/
abbrev Config.WfDisjoint (c : Config) : Prop := c.extents.Pairwise Apart

/-- 00_scope.md R9 (b): every window lies inside `[0, ADDR_MASK]` and its end does not exceed `2^32`. -/
abbrev Config.WfInside (c : Config) : Prop :=
  ∀ w ∈ c.extents, w.1 + w.2 ≤ c.addrMask.toNat + 1 ∧ w.1 + w.2 ≤ 2 ^ 32

/-- 00_scope.md R9 (c): every base, window size and backing size is a multiple of 4. The block sizes are the constants
`vblkSize` and `pblkSize`. -/
abbrev Config.WfAligned (c : Config) : Prop :=
  (∀ w ∈ c.extents, w.1 % 4 = 0 ∧ w.2 % 4 = 0) ∧ ∀ r ∈ Region.all, (c.win r).backSize % 4 = 0

/-- 00_scope.md R9 (d): `4 <= back_size <= win_size` for every region. -/
abbrev Config.WfSizes (c : Config) : Prop :=
  ∀ r ∈ Region.all, 4 ≤ (c.win r).backSize ∧ (c.win r).backSize ≤ (c.win r).winSize

/-- 00_scope.md R9 (e): ROM is not writable and the other three regions are. -/
abbrev Config.WfWritable (c : Config) : Prop :=
  c.romWin.writable = false ∧ c.wramWin.writable = true ∧ c.vramWin.writable = true ∧ c.aramWin.writable = true

/-- 00_scope.md R9 (f): each launch image has exactly the length of its region's backing store. -/
abbrev Config.WfImages (c : Config) : Prop := c.image.Fits c

/-- 00_scope.md R9 (g): the offsets are an assignment in which no two registers share a byte. A video register lies on
an even offset of its block (30_encoding.md R120) and a peripheral register on a multiple of 4 (R122), so distinct
offsets share no byte (DEDUCED, log 12). -/
abbrev Config.WfOffsets (c : Config) : Prop :=
  (∀ x ∈ VReg.all, c.voff x < vblkSize ∧ c.voff x % 2 = 0) ∧ (VReg.all.map c.voff).Nodup ∧
  (∀ x ∈ PReg.all, c.poff x < pblkSize ∧ c.poff x % 4 = 0) ∧ (PReg.all.map c.poff).Nodup

/-- `WF(CFG)` (00_scope.md R9). -/
abbrev Config.Wf (c : Config) : Prop :=
  c.WfDisjoint ∧ c.WfInside ∧ c.WfAligned ∧ c.WfSizes ∧ c.WfWritable ∧ c.WfImages ∧ c.WfOffsets

end Sys2Proof
end

