-- ==== Sys2Proof/Decode.lean ====
section
/-! DEFINITION. The operation word and its decoder (30_encoding.md R110 to R118), the level-2 words of the register
rows (R119 to R123, R131), the encoder, and the reading of a table word for the host. -/

namespace Sys2Proof

/-- An encoded operation, by the format column of the opcode table (30_encoding.md R131). `OPW` is the 72-bit
operation word of R110. A `VSLOT` or `PSLOT` word begins with the table's offset bits; the access operand stands above
them (DESIGN CHOICE, log 7):
VSLOT bits 6:0 block offset (bit 0 the byte lane), 7 zero, 9:8 size, 10 we, 15:11 zero, 31:16 data;
PSLOT bits 5:0 block offset, 9:6 zero, 10 we, 15:11 zero, 23:16 data, 31:24 ignored. -/
inductive Raw
  | opw (w : BitVec 72)
  | vslot (w : BitVec 32)
  | pslot (w : BitVec 32)
deriving DecidableEq, Repr

/-- Why the decoder gives a word no step (30_encoding.md R118, 44_events.md R298). -/
inductive Reject
  /-- a reserved word (30_encoding.md R118), or a level-2 word whose zero bits or size are not as in `Raw` -/
  | reservedWord
  /-- a `PSTAT` that names no register with bus-read-only bits (44_events.md R298) -/
  | pstatRegister
deriving DecidableEq, Repr

/-! ## Register selection (level 2) -/

/-- The video register at block offset `o` (30_encoding.md R120). -/
def Config.vregAt (c : Config) (o : Nat) : Option VReg := VReg.all.find? (fun x => c.voff x == o)

/-- The peripheral register at block offset `o` (30_encoding.md R122). -/
def Config.pregAt (c : Config) (o : Nat) : Option PReg := PReg.all.find? (fun x => c.poff x == o)

/-! ## The operation word -/

/-- `op`, bits 71:64 (30_encoding.md R110). -/
def opField (w : BitVec 72) : BitVec 8 := w.extractLsb' 64 8

/-- `addr`, bits 63:32 (30_encoding.md R110). -/
def addrField (w : BitVec 72) : Word := w.extractLsb' 32 32

/-- `data`, bits 31:0 (30_encoding.md R110). -/
def dataField (w : BitVec 72) : Word := w.extractLsb' 0 32

/-- `class`, bits 7:6 of `op` (30_encoding.md R111). -/
def opClass (op : BitVec 8) : BitVec 2 := op.extractLsb' 6 2

/-- Bits 5:3 of `op`, zero outside EVENT (30_encoding.md R111). -/
def opZero (op : BitVec 8) : BitVec 3 := op.extractLsb' 3 3

/-- `we`, bit 2 of `op` (30_encoding.md R111). -/
def opWe (op : BitVec 8) : BitVec 1 := op.extractLsb' 2 1

/-- `size`, bits 1:0 of `op` (30_encoding.md R111, R113). -/
def opSize (op : BitVec 8) : BitVec 2 := op.extractLsb' 0 2

/-- `event`, bits 5:0 of `op` (30_encoding.md R111, R115). -/
def opEvent (op : BitVec 8) : BitVec 6 := op.extractLsb' 0 6

/-- `data[7:0]` (30_encoding.md R116). -/
def data8 (d : Word) : Byte := d.extractLsb' 0 8

/-- `data[15:0]` (30_encoding.md R116). -/
def data16 (d : Word) : Half := d.extractLsb' 0 16

/-- Class BUS (30_encoding.md R112): `size = 0b11` is reserved (R118). -/
def decodeBus (we : BitVec 1) (size : BitVec 2) (addr data : Word) : Except Reject Instr :=
  match we, size with
  | 0b0#1, 0b00#2 => .ok (.rdB addr)
  | 0b0#1, 0b01#2 => .ok (.rdH addr)
  | 0b0#1, 0b10#2 => .ok (.rdW addr)
  | 0b1#1, 0b00#2 => .ok (.wrB addr (data8 data))
  | 0b1#1, 0b01#2 => .ok (.wrH addr (data16 data))
  | 0b1#1, 0b10#2 => .ok (.wrW addr data)
  | _, _ => .error .reservedWord

/-- Class VPORT (30_encoding.md R112). -/
def decodeVport (we : BitVec 1) (size : BitVec 2) (addr data : Word) : Except Reject Instr :=
  match we, size with
  | 0b0#1, 0b00#2 => .ok (.vrdB addr)
  | 0b0#1, 0b01#2 => .ok (.vrdH addr)
  | 0b0#1, 0b10#2 => .ok (.vrdW addr)
  | 0b1#1, 0b00#2 => .ok (.vwrB addr (data8 data))
  | 0b1#1, 0b01#2 => .ok (.vwrH addr (data16 data))
  | 0b1#1, 0b10#2 => .ok (.vwrW addr data)
  | _, _ => .error .reservedWord

/-- Class PPORT (30_encoding.md R112). -/
def decodePport (we : BitVec 1) (size : BitVec 2) (addr data : Word) : Except Reject Instr :=
  match we, size with
  | 0b0#1, 0b00#2 => .ok (.prdB addr)
  | 0b0#1, 0b01#2 => .ok (.prdH addr)
  | 0b0#1, 0b10#2 => .ok (.prdW addr)
  | 0b1#1, 0b00#2 => .ok (.pwrB addr (data8 data))
  | 0b1#1, 0b01#2 => .ok (.pwrH addr (data16 data))
  | 0b1#1, 0b10#2 => .ok (.pwrW addr data)
  | _, _ => .error .reservedWord

/-- `PSTAT`: `addr[5:0]` is the offset of `CCR`, `CCSR` or `SCR`; any other is refused (44_events.md R298, log 11). -/
def decodePstat (c : Config) (addr data : Word) : Except Reject Instr :=
  match c.pregAt (addr.extractLsb' 0 6).toNat with
  | some x => if x.hasStatusBits then .ok (.pstat x (data8 data)) else .error .pstatRegister
  | none => .error .pstatRegister

/-- Class EVENT, by event code (30_encoding.md R115). -/
def decodeEvent (c : Config) (event : BitVec 6) (addr data : Word) : Except Reject Instr :=
  match event with
  | 0x00#6 => .ok .reset
  | 0x01#6 => .ok .ttick
  | 0x02#6 => .ok .rtick
  | 0x03#6 => .ok (.vraise (data16 data))
  | 0x04#6 => .ok (.vstat (data16 data))
  | 0x05#6 => .ok (.vcta (data16 data))
  | 0x06#6 => .ok (.serrx (data16 data))
  | 0x07#6 => .ok (.comrx (data8 data))
  | 0x08#6 => decodePstat c addr data
  | 0x09#6 => .ok .irqq
  | 0x0A#6 => .ok .snap
  | 0x0B#6 => .ok .restore
  | 0x0C#6 => .ok (.tdrvOn data)
  | 0x0D#6 => .ok .tdrvOff
  | 0x0E#6 => .ok .rdrvOn
  | 0x0F#6 => .ok .rdrvOff
  | _ => .error .reservedWord

/-- The 72-bit operation word (30_encoding.md R110 to R118). Fields that an operation does not take are not tested. -/
def decodeOpw (c : Config) (w : BitVec 72) : Except Reject Instr :=
  let op := opField w
  let addr := addrField w
  let data := dataField w
  if opClass op = 0b11#2 then decodeEvent c (opEvent op) addr data
  else if opZero op ≠ 0#3 then .error .reservedWord
  else if opClass op = 0b00#2 then decodeBus (opWe op) (opSize op) addr data
  else if opClass op = 0b01#2 then decodeVport (opWe op) (opSize op) addr data
  else decodePport (opWe op) (opSize op) addr data

/-! ## The level-2 words -/

/-- The access operand of a `VSLOT` word: size and we as in the operation word, bit 0 of the offset the byte lane. -/
def decodeVAccess (w : BitVec 32) : Except Reject VAccess :=
  if w.extractLsb' 7 1 ≠ 0#1 ∨ w.extractLsb' 11 5 ≠ 0#5 then .error .reservedWord
  else match w.extractLsb' 10 1, w.extractLsb' 8 2 with
    | 0b0#1, 0b00#2 => .ok (.readByte (w.getLsbD 0))
    | 0b0#1, 0b01#2 => .ok .readHalf
    | 0b1#1, 0b00#2 => .ok (.writeByte (w.getLsbD 0) (w.extractLsb' 16 8))
    | 0b1#1, 0b01#2 => .ok (.writeHalf (w.extractLsb' 16 16))
    | _, _ => .error .reservedWord

/-- The access of a video slot without a register, at a block offset: the direct-port access of the same width, which
reads as fill and ignores writes (30_encoding.md R124, 40_bus_ops.md R155, 41_video_regs.md R190; log 7). -/
def Instr.atVHole (off : Word) : VAccess → Instr
  | .readByte _ => .vrdB off
  | .readHalf => .vrdH off
  | .writeByte _ d => .vwrB off d
  | .writeHalf d => .vwrH off d

/-- The access of a peripheral slot without a register, at a block offset: the direct-port byte access, which reads as
fill and ignores writes (30_encoding.md R124, 42_periph_regs.md R244; log 7). -/
def Instr.atPHole (off : Word) : PAccess → Instr
  | .read => .prdB off
  | .write d => .pwrB off d

/-- A `VSLOT` word: bits 6:1 select the halfword slot (30_encoding.md R120); a slot without a register is a hole. -/
def decodeVslot (c : Config) (w : BitVec 32) : Except Reject Instr :=
  match decodeVAccess w with
  | .error e => .error e
  | .ok acc =>
    match c.vregAt (2 * (w.extractLsb' 1 6).toNat) with
    | some x => .ok (Instr.ofVReg acc x)
    | none => .ok (Instr.atVHole ((w.extractLsb' 0 7).setWidth 32) acc)

/-- The access operand of a `PSLOT` word. -/
def decodePAccess (w : BitVec 32) : Except Reject PAccess :=
  if w.extractLsb' 6 4 ≠ 0#4 ∨ w.extractLsb' 11 5 ≠ 0#5 then .error .reservedWord
  else if w.extractLsb' 10 1 = 0#1 then .ok .read
  else .ok (.write (w.extractLsb' 16 8))

/-- A `PSLOT` word: bits 5:0 are the aligned block offset (30_encoding.md R122); an offset without a register is a
hole. -/
def decodePslot (c : Config) (w : BitVec 32) : Except Reject Instr :=
  match decodePAccess w with
  | .error e => .error e
  | .ok acc =>
    match c.pregAt (w.extractLsb' 0 6).toNat with
    | some x => .ok (Instr.ofPReg acc x)
    | none => .ok (Instr.atPHole ((w.extractLsb' 0 6).setWidth 32) acc)

/-- The decoder, total on every word of every format. It depends on the configuration through VOFF and POFF only. -/
def decode (c : Config) : Raw → Except Reject Instr
  | .opw w => decodeOpw c w
  | .vslot w => decodeVslot c w
  | .pslot w => decodePslot c w

/-! ## The encoder -/

/-- The operation word of `op`, `addr`, `data` (30_encoding.md R110, R129). -/
def opWord (op : BitVec 8) (addr data : Word) : Raw := .opw (op ++ addr ++ data)

/-- A `VSLOT` word from its fields. -/
def vslotWord (off : BitVec 7) (size : BitVec 2) (we : BitVec 1) (data : Half) : Raw :=
  .vslot (data ++ 0#5 ++ we ++ size ++ 0#1 ++ off)

/-- A `PSLOT` word from its fields. -/
def pslotWord (off : BitVec 6) (we : BitVec 1) (data : Byte) : Raw :=
  .pslot (0#8 ++ data ++ 0#5 ++ we ++ 0#4 ++ off)

/-- The offset bits of a video register and a byte lane. -/
def laneOffset (c : Config) (x : VReg) (hi : Bool) : BitVec 7 := BitVec.ofNat 7 (c.voff x + hi.toNat)

/-- The word of a level-2 access to a video register. -/
def encodeV (c : Config) (x : VReg) : VAccess → Raw
  | .readByte hi => vslotWord (laneOffset c x hi) 0b00#2 0b0#1 0#16
  | .readHalf => vslotWord (laneOffset c x false) 0b01#2 0b0#1 0#16
  | .writeByte hi d => vslotWord (laneOffset c x hi) 0b00#2 0b1#1 (d.setWidth 16)
  | .writeHalf d => vslotWord (laneOffset c x false) 0b01#2 0b1#1 d

/-- The word of a level-2 access to a peripheral register. -/
def encodeP (c : Config) (x : PReg) : PAccess → Raw
  | .read => pslotWord (BitVec.ofNat 6 (c.poff x)) 0b0#1 0#8
  | .write d => pslotWord (BitVec.ofNat 6 (c.poff x)) 0b1#1 d

/-- The canonical word of an operation: fields it does not take are zero (30_encoding.md R112, R129). -/
def encode (c : Config) : Instr → Raw
  | .rdB addr => opWord 0x00 addr 0#32
  | .rdH addr => opWord 0x01 addr 0#32
  | .rdW addr => opWord 0x02 addr 0#32
  | .wrB addr d => opWord 0x04 addr (d.setWidth 32)
  | .wrH addr d => opWord 0x05 addr (d.setWidth 32)
  | .wrW addr d => opWord 0x06 addr d
  | .vrdB addr => opWord 0x40 addr 0#32
  | .vrdH addr => opWord 0x41 addr 0#32
  | .vrdW addr => opWord 0x42 addr 0#32
  | .vwrB addr d => opWord 0x44 addr (d.setWidth 32)
  | .vwrH addr d => opWord 0x45 addr (d.setWidth 32)
  | .vwrW addr d => opWord 0x46 addr d
  | .prdB addr => opWord 0x80 addr 0#32
  | .prdH addr => opWord 0x81 addr 0#32
  | .prdW addr => opWord 0x82 addr 0#32
  | .pwrB addr d => opWord 0x84 addr (d.setWidth 32)
  | .pwrH addr d => opWord 0x85 addr (d.setWidth 32)
  | .pwrW addr d => opWord 0x86 addr d
  | .reset => opWord 0xC0 0#32 0#32
  | .ttick => opWord 0xC1 0#32 0#32
  | .rtick => opWord 0xC2 0#32 0#32
  | .vraise mask => opWord 0xC3 0#32 (mask.setWidth 32)
  | .vstat v => opWord 0xC4 0#32 (v.setWidth 32)
  | .vcta v => opWord 0xC5 0#32 (v.setWidth 32)
  | .serrx v => opWord 0xC6 0#32 (v.setWidth 32)
  | .comrx v => opWord 0xC7 0#32 (v.setWidth 32)
  | .pstat x v => opWord 0xC8 (BitVec.ofNat 32 (c.poff x)) (v.setWidth 32)
  | .irqq => opWord 0xC9 0#32 0#32
  | .snap => opWord 0xCA 0#32 0#32
  | .restore => opWord 0xCB 0#32 0#32
  | .tdrvOn interval => opWord 0xCC 0#32 interval
  | .tdrvOff => opWord 0xCD 0#32 0#32
  | .rdrvOn => opWord 0xCE 0#32 0#32
  | .rdrvOff => opWord 0xCF 0#32 0#32
  | .intpnd acc => encodeV c .intpnd acc
  | .intenb acc => encodeV c .intenb acc
  | .intclr acc => encodeV c .intclr acc
  | .dpstts acc => encodeV c .dpstts acc
  | .dpctrl acc => encodeV c .dpctrl acc
  | .brta acc => encodeV c .brta acc
  | .brtb acc => encodeV c .brtb acc
  | .brtc acc => encodeV c .brtc acc
  | .rest acc => encodeV c .rest acc
  | .frmcyc acc => encodeV c .frmcyc acc
  | .cta acc => encodeV c .cta acc
  | .ver acc => encodeV c .ver acc
  | .splt0 acc => encodeV c .splt0 acc
  | .splt1 acc => encodeV c .splt1 acc
  | .splt2 acc => encodeV c .splt2 acc
  | .splt3 acc => encodeV c .splt3 acc
  | .oplt0 acc => encodeV c .oplt0 acc
  | .oplt1 acc => encodeV c .oplt1 acc
  | .oplt2 acc => encodeV c .oplt2 acc
  | .oplt3 acc => encodeV c .oplt3 acc
  | .bkcol acc => encodeV c .bkcol acc
  | .ccr acc => encodeP c .ccr acc
  | .ccsr acc => encodeP c .ccsr acc
  | .cdtr acc => encodeP c .cdtr acc
  | .cdrr acc => encodeP c .cdrr acc
  | .slb acc => encodeP c .slb acc
  | .shb acc => encodeP c .shb acc
  | .tlb acc => encodeP c .tlb acc
  | .thb acc => encodeP c .thb acc
  | .tcr acc => encodeP c .tcr acc
  | .wcr acc => encodeP c .wcr acc
  | .scr acc => encodeP c .scr acc

/-! ## Table words -/

/-- The operation of which the opcode table gives the low `nbits` bits `w`, every bit above them zero. More than 32
bits is an `OPW` word. A register row is given by its offset bits: 7 bits are a `VSLOT` word, 6 or fewer a `PSLOT`
word. The two formats number the same 8 bits, so 8 bits alone do not say which: they are a `PSLOT` word if they select
a peripheral register and a `VSLOT` word otherwise (DESIGN CHOICE, log 8). -/
def Raw.ofTable (c : Config) (nbits w : Nat) : Raw :=
  if 32 < nbits then .opw (BitVec.ofNat 72 (w % 2 ^ nbits))
  else if nbits ≤ 6 then .pslot (BitVec.ofNat 32 (w % 2 ^ nbits))
  else if nbits = 8 ∧ (c.pregAt (w % 2 ^ nbits)).isSome then .pslot (BitVec.ofNat 32 (w % 2 ^ nbits))
  else .vslot (BitVec.ofNat 32 (w % 2 ^ nbits))

/-- What the decoder reads from a table word, under CFG_REF. -/
def decodeTableWord (nbits w : Nat) : Option Instr :=
  match decode Config.ref (Raw.ofTable Config.ref nbits w) with
  | .ok i => some i
  | .error _ => none

end Sys2Proof
end

