-- ==== Sys2Proof/Machine/State.lean ====
section
/-! DEFINITION. The state: the spec's tuple S (10_state.md R61) and the model's own fields around it, the reasons a
step can stop, and the state after reset. -/

namespace Sys2Proof.Machine

/-- The whole state tuple `S` of 10_state.md R61. A snapshot is this tuple (44_events.md R307, log 14). -/
structure Arch where
  /-- ROM, WRAM, VRAM, ARAM (R24 to R27) -/
  mem : Memory
  /-- the video-unit register set (R28 to R43) -/
  vid : VideoRegs
  /-- the peripheral register set and the hidden timer fields (R44 to R56) -/
  per : PeriphRegs
  /-- TXQ, oldest byte first (R57) -/
  txq : List Byte
  /-- the timer driver is registered (R58) -/
  tdrv : Bool
  /-- the refresh driver is registered (R58) -/
  rdrv : Bool
deriving DecidableEq, Repr

/-- The result of an operation (30_encoding.md R117); `none` for operations that return nothing. -/
inductive Result
  | none
  | byte (v : Byte)
  | half (v : Half)
  | word (v : Word)
  | bit (v : Bool)
  | snap (a : Arch)
deriving DecidableEq, Repr

/-- The agents of 00_scope.md R5, and a tick issued by hand (43_timer_engine.md R279). -/
inductive Agent
  | busMaster | timerDriver | refreshDriver | displayPipeline | serialProcess | commSubsystem | host | manual
deriving DecidableEq, Repr

/-- One operation as an agent issues it: the encoded operation and, beside it, the snapshot that `RESTORE` takes
(30_encoding.md R112, log 10). The issuer is recorded and never read by a step (60_exceptions.md R336, log 15). -/
structure Request where
  agent : Agent
  raw   : Raw
  snap  : Option Arch
deriving DecidableEq, Repr

/-- The machine. `arch` is the spec's state; the other fields are the model's own (INVENTORY.md, State). -/
structure State where
  /-- the configuration CFG, changed by no operation (00_scope.md R7, 70_reset_and_hazards.md R366; log 3) -/
  cfg : Config
  /-- the spec's state tuple (10_state.md R61) -/
  arch : Arch
  /-- the operations of all agents in their total order, next first (20_memory.md R91; log 1) -/
  inbox : List Request
  /-- the snapshot carried beside the current operation word (log 10) -/
  snapIn : Option Arch
  /-- what the last operation returned (30_encoding.md R117; log 2) -/
  result : Result
deriving DecidableEq, Repr

/-- RVPC has no fault: "every well-formed operation from every state has exactly one next state"
(60_exceptions.md R330, R335). The type has no constructor, so no step faults. -/
inductive Fault
deriving DecidableEq, Repr

/-- The refusals, all at the boundary (60_exceptions.md R335). -/
inductive Refusal
  /-- an instruction without a meaning: raised by no arm of `exec`; safe -/
  | notModelled (mnemonic : String)
  /-- raised by `step` on a reserved word (30_encoding.md R118; log 22), or on a level-2 word outside the form of log 7;
  safe -/
  | reservedWord
  /-- raised by `step` and by `PSTAT` on a `PSTAT` that names another register (44_events.md R298; log 11); safe -/
  | pstatRegister
  /-- raised by `RESTORE` without a snapshot, or with one whose arrays do not have the lengths `CFG` requires
  (44_events.md R308; log 13); safe -/
  | malformedSnapshot
  /-- raised by `step` under a configuration that fails `WF(CFG)` (00_scope.md R9, 60_exceptions.md R334; log 3); safe -/
  | illFormedConfig
deriving DecidableEq, Repr

/-- The reset state under a configuration (70_reset_and_hazards.md R360 to R364): registers at RESET_X, regions at the
launch images, TXQ empty, both drivers deregistered. -/
def Arch.atReset (c : Config) : Arch where
  mem := c.image
  vid := c.resetVid
  per := c.resetPer
  txq := []
  tdrv := false
  rdrv := false

/-- The machine right after reset under CFG_REF, with no operation issued (log 3, log 5, log 20). -/
def State.reset : State where
  cfg := Config.ref
  arch := Arch.atReset Config.ref
  inbox := []
  snapIn := none
  result := .none

end Sys2Proof.Machine
end

