-- ==== Sys2Proof/Machine/Operands.lean ====
section
/-! DEFINITION. Access sizes, alignment, byte lanes and byte order (20_memory.md R75, R82; 30_encoding.md R113, R116;
40_bus_ops.md R152), the full-lane merge, and how an operation answers. -/

namespace Sys2Proof.Machine

/-- The widths of an access (30_encoding.md R113). -/
inductive Size
  | b | h | w
deriving DecidableEq, Repr

/-- `n`, the number of bytes (30_encoding.md R113). -/
def Size.bytes : Size → Nat
  | .b => 1
  | .h => 2
  | .w => 4

/-- The byte indexes `0 .. n-1` of an access. -/
def Size.lanes : Size → List Nat
  | .b => [0]
  | .h => [0, 1]
  | .w => [0, 1, 2, 3]

/-- `a & ~(n - 1)` (20_memory.md R75). -/
def align (sz : Size) (a : Word) : Word := a &&& ~~~(BitVec.ofNat 32 (sz.bytes - 1))

/-- Byte `i` of a value: `v[8i+7:8i]` (30_encoding.md R116). -/
def byteAt (v : Word) (i : Nat) : Byte := v.extractLsb' (8 * i) 8

/-- Bytes, lowest address first, as one value, the first in bits 7:0 (20_memory.md R82). -/
def ofBytes : List Byte → Word
  | [] => 0
  | b :: bs => (ofBytes bs <<< 8) ||| b.setWidth 32

/-- One byte lane of a halfword register, bits 15:8 when `hi` (40_bus_ops.md R152). -/
def laneOf (hi : Bool) (v : Half) : Byte := if hi then v.extractLsb' 8 8 else v.extractLsb' 0 8

/-- A byte positioned in its lane of a halfword register (40_bus_ops.md R151). -/
def placeLane (hi : Bool) (d : Byte) : Half := if hi then d.setWidth 16 <<< 8 else d.setWidth 16

/-- The lane mask of a byte access (40_bus_ops.md R151). -/
def laneMask (hi : Bool) : Half := if hi then 0xFF00 else 0x00FF

/-- `(X & ~k) | (v & k)`: the bits in `k` replaced by `v`'s (41_video_regs.md R170, R175). -/
def merge16 (x v k : Half) : Half := (x &&& ~~~k) ||| (v &&& k)

/-- `(X & ~k) | (v & k)` on a byte register (42_periph_regs.md R221). -/
def merge8 (x v k : Byte) : Byte := (x &&& ~~~k) ||| (v &&& k)

/-- The state after an operation: the new tuple and what the operation returns. -/
def State.put (s : State) (a : Arch) (r : Result) : State := { s with arch := a, result := r }

/-- An operation that succeeds, as all do (60_exceptions.md R330). -/
def State.answer (s : State) (a : Arch) (r : Result) : Host.Outcome State Fault Refusal := .next (s.put a r)

end Sys2Proof.Machine
end

