-- ==== Sys2Proof/Machine/Flags.lean ====
section
/-! DEFINITION. The flags (10_state.md R22): the pending bits of the video unit, the timer bits of TCR, and the
interrupt output. RVPC takes no exception (60_exceptions.md R327, R330), so there is no entry and no return to model:
raising, acknowledging and observing requests is all it does. -/

namespace Sys2Proof.Machine

/-- `INTPND <- INTPND | m` (44_events.md R291, R293). -/
def raisePending (m : Half) (v : VideoRegs) : VideoRegs := { v with intpnd := v.intpnd ||| m }

/-- `INTPND <- INTPND & ~m` (41_video_regs.md R176). -/
def clearPending (m : Half) (v : VideoRegs) : VideoRegs := { v with intpnd := v.intpnd &&& ~~~m }

/-- `IRQ` (60_exceptions.md R320), a function of the tuple (10_state.md R59). -/
def Arch.irq (a : Arch) : Bool := (a.vid.intpnd &&& a.vid.intenb != 0x0000) || (a.per.zStat && a.per.zInt)

/-- A bit of `TCR` at its position (42_periph_regs.md R235). -/
def tcrBit (n : Fin 8) (b : Bool) : Byte := if b then 1#8 <<< n.val else 0#8

/-- `TCR` as read: the stored fields assembled, strobes and reserved bits 0 (42_periph_regs.md R235; log 19). -/
def tcrRead (t : TcrBits) (p : PeriphRegs) : Byte :=
  tcrBit t.auto p.tAuto ||| tcrBit t.zint p.zInt ||| tcrBit t.zstat p.zStat ||| tcrBit t.enb p.tEnb

/-- Acknowledge (42_periph_regs.md R237). -/
def tcrAck (t : TcrBits) (v : Byte) (p : PeriphRegs) : PeriphRegs :=
  if v.getLsbD t.zclr then { p with zStat := false } else p

/-- Stored bits (42_periph_regs.md R238). -/
def tcrStore (t : TcrBits) (v : Byte) (p : PeriphRegs) : PeriphRegs :=
  { p with tEnb := v.getLsbD t.enb, zInt := v.getLsbD t.zint, tAuto := v.getLsbD t.auto }

/-- Reload (42_periph_regs.md R239). -/
def tcrReload (t : TcrBits) (v : Byte) (p : PeriphRegs) : PeriphRegs :=
  if v.getLsbD t.load then { p with tCount := p.tStage, tReset := true } else p

/-- `TCR` as written: acknowledge, store, reload, in this order (42_periph_regs.md R236). -/
def tcrWrite (t : TcrBits) (v : Byte) (p : PeriphRegs) : PeriphRegs :=
  tcrReload t v (tcrStore t v (tcrAck t v p))

end Sys2Proof.Machine
end

