-- ==== Sys2Proof/Machine/Registers.lean ====
section
/-! DEFINITION. The register logic of both blocks: what a read of each register returns and what a write does
(41_video_regs.md, 42_periph_regs.md). -/

namespace Sys2Proof.Machine

/-- What a read of a video register returns (41_video_regs.md R171, R173, R175, R177 to R196). -/
def vread (c : Config) (v : VideoRegs) : VReg → Half
  | .intpnd => v.intpnd
  | .intenb => v.intenb
  | .intclr => 0x0000
  | .dpstts => v.dpstts
  | .dpctrl => v.dpctrl
  | .brta => v.brta
  | .brtb => v.brtb
  | .brtc => v.brtc
  | .rest => v.rest
  | .frmcyc => v.frmcyc
  | .cta => v.cta
  | .ver => c.vipVersion
  | .splt0 => v.splt0
  | .splt1 => v.splt1
  | .splt2 => v.splt2
  | .splt3 => v.splt3
  | .oplt0 => v.oplt0
  | .oplt1 => v.oplt1
  | .oplt2 => v.oplt2
  | .oplt3 => v.oplt3
  | .bkcol => v.bkcol

/-- What a write of `v` under lane mask `m` does to the video registers (41_video_regs.md R172). Read-only registers
discard it (R174, R178, R185, R191); `INTENB` takes every lane bit (R175); `INTCLR` clears (R176); a plain register
takes the lane bits inside its mask (R170). -/
def vwrite (c : Config) (v m : Half) (r : VideoRegs) : VReg → VideoRegs
  | .intpnd => r
  | .intenb => { r with intenb := merge16 r.intenb v m }
  | .intclr => clearPending (v &&& m) r
  | .dpstts => r
  | .dpctrl => { r with dpctrl := merge16 r.dpctrl v (m &&& c.vMask.dpctrl) }
  | .brta => { r with brta := merge16 r.brta v (m &&& c.vMask.brta) }
  | .brtb => { r with brtb := merge16 r.brtb v (m &&& c.vMask.brtb) }
  | .brtc => { r with brtc := merge16 r.brtc v (m &&& c.vMask.brtc) }
  | .rest => { r with rest := merge16 r.rest v (m &&& c.vMask.rest) }
  | .frmcyc => { r with frmcyc := merge16 r.frmcyc v (m &&& c.vMask.frmcyc) }
  | .cta => r
  | .ver => r
  | .splt0 => { r with splt0 := merge16 r.splt0 v (m &&& c.vMask.splt0) }
  | .splt1 => { r with splt1 := merge16 r.splt1 v (m &&& c.vMask.splt1) }
  | .splt2 => { r with splt2 := merge16 r.splt2 v (m &&& c.vMask.splt2) }
  | .splt3 => { r with splt3 := merge16 r.splt3 v (m &&& c.vMask.splt3) }
  | .oplt0 => { r with oplt0 := merge16 r.oplt0 v (m &&& c.vMask.oplt0) }
  | .oplt1 => { r with oplt1 := merge16 r.oplt1 v (m &&& c.vMask.oplt1) }
  | .oplt2 => { r with oplt2 := merge16 r.oplt2 v (m &&& c.vMask.oplt2) }
  | .oplt3 => { r with oplt3 := merge16 r.oplt3 v (m &&& c.vMask.oplt3) }
  | .bkcol => { r with bkcol := merge16 r.bkcol v (m &&& c.vMask.bkcol) }

/-- What a read of a peripheral register returns (42_periph_regs.md R220, R221, R226, R227, R229 to R233, R235). -/
def pread (c : Config) (p : PeriphRegs) : PReg → Byte
  | .ccr => p.ccr
  | .ccsr => p.ccsr
  | .cdtr => 0x00
  | .cdrr => p.cdrr
  | .slb => p.slb
  | .shb => p.shb
  | .tlb => p.tCount.extractLsb' 0 8
  | .thb => p.tCount.extractLsb' 8 8
  | .tcr => tcrRead c.tcr p
  | .wcr => p.wcr
  | .scr => p.scr

/-- What a write does (42_periph_regs.md R220): masked store (R221, R223, R225, R241, R243), store and append to `TXQ`
(R228), nothing (R227, R229, R230), a half of the staged value (R232, R234), the three steps of `TCR` (R236). -/
def pwrite (c : Config) (v : Byte) (a : Arch) : PReg → Arch
  | .ccr => { a with per := { a.per with ccr := merge8 a.per.ccr v c.pMask.ccr } }
  | .ccsr => { a with per := { a.per with ccsr := merge8 a.per.ccsr v c.pMask.ccsr } }
  | .cdtr => { a with per := { a.per with cdtr := v }, txq := a.txq ++ [v] }
  | .cdrr => a
  | .slb => a
  | .shb => a
  | .tlb => { a with per := { a.per with tStage := a.per.tStage.extractLsb' 8 8 ++ v } }
  | .thb => { a with per := { a.per with tStage := v ++ a.per.tStage.extractLsb' 0 8 } }
  | .tcr => { a with per := tcrWrite c.tcr v a.per }
  | .wcr => { a with per := { a.per with wcr := merge8 a.per.wcr v c.pMask.wcr } }
  | .scr => { a with per := { a.per with scr := merge8 a.per.scr v c.pMask.scr } }

/-- A sideband update of the bits outside the write mask (44_events.md R298). -/
def pstatus (c : Config) (v : Byte) (p : PeriphRegs) : PReg → Option PeriphRegs
  | .ccr => some { p with ccr := merge8 v p.ccr c.pMask.ccr }
  | .ccsr => some { p with ccsr := merge8 v p.ccsr c.pMask.ccsr }
  | .scr => some { p with scr := merge8 v p.scr c.pMask.scr }
  | .cdtr | .cdrr | .slb | .shb | .tlb | .thb | .tcr | .wcr => none

end Sys2Proof.Machine
end

