-- ==== Sys2Proof/Machine/Ops.lean ====
section
/-! DEFINITION. The shared operations: the byte stores, the address decoder (20_memory.md R71, R72), the region store
(R80, R81), the turning of an access into register operations (40_bus_ops.md R150 to R157) and the two primitives
MemRead and MemWrite (R140, R141). RVPC raises no exception (60_exceptions.md R330): there is none to take here. -/

namespace Sys2Proof.Machine

/-! ## Byte stores -/

/-- The byte at an offset. -/
def readCell : ByteStore → Nat → Byte
  | [], _ => unlistedByte
  | (j, b) :: t, k => if j = k then b else readCell t k

/-- A cell in front of a store, left out when it holds what an unlisted offset reads as. -/
def consCell (k : Nat) (b : Byte) (m : ByteStore) : ByteStore := if b = unlistedByte then m else (k, b) :: m

/-- Replace the byte at an offset, keeping the canonical form. -/
def writeCell : ByteStore → Nat → Byte → ByteStore
  | [], k, b => consCell k b []
  | (j, c) :: t, k, b =>
    if k < j then consCell k b ((j, c) :: t)
    else if k = j then consCell k b t
    else (j, c) :: writeCell t k b

/-- Replace the store of one region. -/
def setStore (m : Memory) (r : Region) (b : ByteStore) : Memory :=
  match r with
  | .rom => { m with rom := b }
  | .wram => { m with wram := b }
  | .vram => { m with vram := b }
  | .aram => { m with aram := b }

/-- One byte of a region's store, by backing offset. -/
def regionByte (m : Memory) (r : Region) (k : Nat) : Byte := readCell (m.store r) k

/-! ## Region store -/

/-- The backing offset of byte `i` of an access at window offset `off`: "offset wraps modulo region size"
(20_memory.md R80). -/
def backOffset (c : Config) (r : Region) (off i : Nat) : Nat := (off + i) % (c.win r).backSize

/-- `RegionRead(r, off, n)` (20_memory.md R80). -/
def regionRead (c : Config) (m : Memory) (r : Region) (off : Nat) (sz : Size) : Word :=
  ofBytes (sz.lanes.map fun i => regionByte m r (backOffset c r off i))

/-- Store the bytes `is` of `v`, each at its backing offset, lowest first. -/
def storeBytes (c : Config) (r : Region) (off : Nat) (v : Word) (is : List Nat) (b : ByteStore) : ByteStore :=
  is.foldl (fun b i => writeCell b (backOffset c r off i) (byteAt v i)) b

/-- `RegionWrite(r, off, n, v)` (20_memory.md R81): a region that is not writable discards it. -/
def regionWrite (c : Config) (m : Memory) (r : Region) (off : Nat) (sz : Size) (v : Word) : Memory :=
  if (c.win r).writable then setStore m r (storeBytes c r off v sz.lanes (m.store r)) else m

/-! ## Address decoder -/

/-- The owner of an address (20_memory.md R70). -/
inductive Owner
  | region (r : Region)
  | vblk
  | pblk
  | unmapped
deriving DecidableEq, Repr

/-- `base <= a and a - base < size` (20_memory.md R72). -/
def inWindow (base size a : Nat) : Bool := decide (base ≤ a) && decide (a - base < size)

/-- `Lookup(a)` (20_memory.md R72), `a` after the address mask. -/
def lookup (c : Config) (a : Word) : Owner :=
  match Region.all.find? (fun r => inWindow (c.win r).base (c.win r).winSize a.toNat) with
  | some r => .region r
  | none =>
    if inWindow c.vblkBase vblkSize a.toNat then .vblk
    else if inWindow c.pblkBase pblkSize a.toNat then .pblk
    else .unmapped

/-- `a = addr & ADDR_MASK` (20_memory.md R71). -/
def maskAddr (c : Config) (addr : Word) : Word := addr &&& c.addrMask

/-- The owner of a bus access: the lookup uses the unaligned address (20_memory.md R72, R76). -/
def ownerOf (c : Config) (addr : Word) : Owner := lookup c (maskAddr c addr)

/-- The aligned address of a bus access (20_memory.md R75, R76). -/
def busAddr (c : Config) (addr : Word) (sz : Size) : Nat := (align sz (maskAddr c addr)).toNat

/-! ## Video block -/

/-- `VRegRead(o)`; a slot with no register reads as fill (40_bus_ops.md R155). -/
def vregRead (c : Config) (v : VideoRegs) (o : Nat) : Half :=
  match c.vregAt o with
  | some x => vread c v x
  | none => c.fillByte ++ c.fillByte

/-- `VRegWrite(o, v16, m16)`; a slot with no register ignores it (40_bus_ops.md R155). -/
def vregWrite (c : Config) (v m : Half) (r : VideoRegs) (o : Nat) : VideoRegs :=
  match c.vregAt o with
  | some x => vwrite c v m r x
  | none => r

/-- The byte lane that an offset's bit 0 chooses (40_bus_ops.md R152). -/
def oddLane (off : Nat) : Bool := off % 2 == 1

/-- `VBlkRead(off, n)` (40_bus_ops.md R150), `off` aligned to `n`. -/
def vblkRead (c : Config) (v : VideoRegs) (off : Nat) : Size → Word
  | .b => (laneOf (oddLane off) (vregRead c v (off / 2 * 2))).setWidth 32
  | .h => (vregRead c v off).setWidth 32
  | .w => vregRead c v (off + 2) ++ vregRead c v off

/-- `VBlkWrite(off, n, v)` (40_bus_ops.md R151): a word is two halfword writes, the lower offset first (R154). -/
def vblkWrite (c : Config) (r : VideoRegs) (off : Nat) (v : Word) : Size → VideoRegs
  | .b => vregWrite c (placeLane (oddLane off) (byteAt v 0)) (laneMask (oddLane off)) r (off / 2 * 2)
  | .h => vregWrite c (v.extractLsb' 0 16) 0xFFFF r off
  | .w => vregWrite c (v.extractLsb' 16 16) 0xFFFF (vregWrite c (v.extractLsb' 0 16) 0xFFFF r off) (off + 2)

/-! ## Peripheral block -/

/-- `PRegRead(o)`; a slot with no register reads as fill (42_periph_regs.md R244). -/
def pregRead (c : Config) (p : PeriphRegs) (o : Nat) : Byte :=
  match c.pregAt o with
  | some x => pread c p x
  | none => c.fillByte

/-- `PRegWrite(o, v8)`; a slot with no register ignores it (42_periph_regs.md R244). -/
def pregWrite (c : Config) (v : Byte) (a : Arch) (o : Nat) : Arch :=
  match c.pregAt o with
  | some x => pwrite c v a x
  | none => a

/-- One byte of the peripheral block (40_bus_ops.md R156). -/
def pblkByte (c : Config) (p : PeriphRegs) (o : Nat) : Byte := if o % 4 = 0 then pregRead c p o else c.fillByte

/-- `PBlkRead(off, n)` (40_bus_ops.md R156), `off` aligned to `n`. -/
def pblkRead (c : Config) (p : PeriphRegs) (off : Nat) (sz : Size) : Word :=
  ofBytes (sz.lanes.map fun i => pblkByte c p (off + i))

/-- `PBlkWrite(off, n, v)` (40_bus_ops.md R157): only `v[7:0]` reaches a register, once, whatever the width. -/
def pblkWrite (c : Config) (a : Arch) (off : Nat) (v : Word) : Arch :=
  if off % 4 = 0 then pregWrite c (byteAt v 0) a off else a

/-! ## The two primitives -/

/-- `Fill(n)` (00_scope.md R11). -/
def fill (c : Config) (sz : Size) : Word := ofBytes (sz.lanes.map fun _ => c.fillByte)

/-- `MemRead(addr, n)` (40_bus_ops.md R140), in the low `8n` bits. -/
def memRead (c : Config) (a : Arch) (addr : Word) (sz : Size) : Word :=
  match ownerOf c addr with
  | .region r => regionRead c a.mem r (busAddr c addr sz - (c.win r).base) sz
  | .vblk => vblkRead c a.vid (busAddr c addr sz - c.vblkBase) sz
  | .pblk => pblkRead c a.per (busAddr c addr sz - c.pblkBase) sz
  | .unmapped => fill c sz

/-- `MemWrite(addr, n, v)` (40_bus_ops.md R141). -/
def memWrite (c : Config) (a : Arch) (addr : Word) (sz : Size) (v : Word) : Arch :=
  match ownerOf c addr with
  | .region r => { a with mem := regionWrite c a.mem r (busAddr c addr sz - (c.win r).base) sz v }
  | .vblk => { a with vid := vblkWrite c a.vid (busAddr c addr sz - c.vblkBase) v sz }
  | .pblk => pblkWrite c a (busAddr c addr sz - c.pblkBase) v
  | .unmapped => a

/-! ## Direct ports and level-2 accesses -/

/-- The offset of a direct-port access: `addr` modulo the block size, then aligned down (40_bus_ops.md R149). -/
def portOffset (blkSize : Nat) (addr : Word) (sz : Size) : Nat :=
  (align sz (addr % BitVec.ofNat 32 blkSize)).toNat

/-- A video direct-port read (40_bus_ops.md R158 to R160). -/
def vportRead (s : State) (addr : Word) (sz : Size) : Word :=
  vblkRead s.cfg s.arch.vid (portOffset vblkSize addr sz) sz

/-- A video direct-port write (40_bus_ops.md R161 to R163). -/
def vportWrite (s : State) (addr : Word) (sz : Size) (v : Word) : Arch :=
  { s.arch with vid := vblkWrite s.cfg s.arch.vid (portOffset vblkSize addr sz) v sz }

/-- A peripheral direct-port read (40_bus_ops.md R164 to R166). -/
def pportRead (s : State) (addr : Word) (sz : Size) : Word :=
  pblkRead s.cfg s.arch.per (portOffset pblkSize addr sz) sz

/-- A peripheral direct-port write (40_bus_ops.md R167 to R169). -/
def pportWrite (s : State) (addr : Word) (sz : Size) (v : Word) : Arch :=
  pblkWrite s.cfg s.arch (portOffset pblkSize addr sz) v

/-- A level-2 access to a video register (40_bus_ops.md R150 to R153). -/
def vregAccess (x : VReg) (acc : VAccess) (s : State) : Host.Outcome State Fault Refusal :=
  match acc with
  | .readByte hi => s.answer s.arch (.byte (laneOf hi (vread s.cfg s.arch.vid x)))
  | .readHalf => s.answer s.arch (.half (vread s.cfg s.arch.vid x))
  | .writeByte hi d =>
    s.answer { s.arch with vid := vwrite s.cfg (placeLane hi d) (laneMask hi) s.arch.vid x } .none
  | .writeHalf d => s.answer { s.arch with vid := vwrite s.cfg d 0xFFFF s.arch.vid x } .none

/-- A level-2 access to a peripheral register (40_bus_ops.md R156, R157). -/
def pregAccess (x : PReg) (acc : PAccess) (s : State) : Host.Outcome State Fault Refusal :=
  match acc with
  | .read => s.answer s.arch (.byte (pread s.cfg s.arch.per x))
  | .write d => s.answer (pwrite s.cfg d s.arch x) .none

end Sys2Proof.Machine
end

