-- ==== Sys2Proof/Machine/Bus.lean ====
section
/-! DEFINITION. The bus operations `RD.*`, `WR.*` and the direct-port operations `VRD.*`, `VWR.*`, `PRD.*`, `PWR.*`
(40_bus_ops.md R142 to R147, R158 to R169). A read returns its result and changes no state (20_memory.md R85). -/

namespace Sys2Proof.Machine

/-- `RD.B addr` (40_bus_ops.md R142). -/
def execRdB (addr : Word) (s : State) : Host.Outcome State Fault Refusal :=
  s.answer s.arch (.byte ((memRead s.cfg s.arch addr .b).setWidth 8))

/-- `RD.H addr` (40_bus_ops.md R143). -/
def execRdH (addr : Word) (s : State) : Host.Outcome State Fault Refusal :=
  s.answer s.arch (.half ((memRead s.cfg s.arch addr .h).setWidth 16))

/-- `RD.W addr` (40_bus_ops.md R144). -/
def execRdW (addr : Word) (s : State) : Host.Outcome State Fault Refusal :=
  s.answer s.arch (.word (memRead s.cfg s.arch addr .w))

/-- `WR.B addr, data` (40_bus_ops.md R145). -/
def execWrB (addr : Word) (d : Byte) (s : State) : Host.Outcome State Fault Refusal :=
  s.answer (memWrite s.cfg s.arch addr .b (d.setWidth 32)) .none

/-- `WR.H addr, data` (40_bus_ops.md R146). -/
def execWrH (addr : Word) (d : Half) (s : State) : Host.Outcome State Fault Refusal :=
  s.answer (memWrite s.cfg s.arch addr .h (d.setWidth 32)) .none

/-- `WR.W addr, data` (40_bus_ops.md R147). -/
def execWrW (addr : Word) (d : Word) (s : State) : Host.Outcome State Fault Refusal :=
  s.answer (memWrite s.cfg s.arch addr .w d) .none

/-- `VRD.B addr` (40_bus_ops.md R158). -/
def execVrdB (addr : Word) (s : State) : Host.Outcome State Fault Refusal :=
  s.answer s.arch (.byte ((vportRead s addr .b).setWidth 8))

/-- `VRD.H addr` (40_bus_ops.md R159). -/
def execVrdH (addr : Word) (s : State) : Host.Outcome State Fault Refusal :=
  s.answer s.arch (.half ((vportRead s addr .h).setWidth 16))

/-- `VRD.W addr` (40_bus_ops.md R160). -/
def execVrdW (addr : Word) (s : State) : Host.Outcome State Fault Refusal :=
  s.answer s.arch (.word (vportRead s addr .w))

/-- `VWR.B addr, data` (40_bus_ops.md R161). -/
def execVwrB (addr : Word) (d : Byte) (s : State) : Host.Outcome State Fault Refusal :=
  s.answer (vportWrite s addr .b (d.setWidth 32)) .none

/-- `VWR.H addr, data` (40_bus_ops.md R162). -/
def execVwrH (addr : Word) (d : Half) (s : State) : Host.Outcome State Fault Refusal :=
  s.answer (vportWrite s addr .h (d.setWidth 32)) .none

/-- `VWR.W addr, data` (40_bus_ops.md R163). -/
def execVwrW (addr : Word) (d : Word) (s : State) : Host.Outcome State Fault Refusal :=
  s.answer (vportWrite s addr .w d) .none

/-- `PRD.B addr` (40_bus_ops.md R164). -/
def execPrdB (addr : Word) (s : State) : Host.Outcome State Fault Refusal :=
  s.answer s.arch (.byte ((pportRead s addr .b).setWidth 8))

/-- `PRD.H addr` (40_bus_ops.md R165). -/
def execPrdH (addr : Word) (s : State) : Host.Outcome State Fault Refusal :=
  s.answer s.arch (.half ((pportRead s addr .h).setWidth 16))

/-- `PRD.W addr` (40_bus_ops.md R166). -/
def execPrdW (addr : Word) (s : State) : Host.Outcome State Fault Refusal :=
  s.answer s.arch (.word (pportRead s addr .w))

/-- `PWR.B addr, data` (40_bus_ops.md R167). -/
def execPwrB (addr : Word) (d : Byte) (s : State) : Host.Outcome State Fault Refusal :=
  s.answer (pportWrite s addr .b (d.setWidth 32)) .none

/-- `PWR.H addr, data` (40_bus_ops.md R168). -/
def execPwrH (addr : Word) (d : Half) (s : State) : Host.Outcome State Fault Refusal :=
  s.answer (pportWrite s addr .h (d.setWidth 32)) .none

/-- `PWR.W addr, data` (40_bus_ops.md R169). -/
def execPwrW (addr : Word) (d : Word) (s : State) : Host.Outcome State Fault Refusal :=
  s.answer (pportWrite s addr .w d) .none

end Sys2Proof.Machine
end

