-- ==== Sys2Proof/Machine/Events.lean ====
section
/-! DEFINITION. The refresh tick, the sideband inputs and the interrupt accessor (44_events.md R291 to R299). -/

namespace Sys2Proof.Machine

/-- The frame counter after a refresh tick (44_events.md R291). -/
def nextFrame (v : VideoRegs) : Half := if v.frmcyc ≤ v.fcnt then 0 else v.fcnt + 1

/-- The pending bits a refresh tick raises (44_events.md R291). -/
def frameBits (c : Config) (v : VideoRegs) : Half :=
  c.rtFrameMask ||| (if v.fcnt = 0 then c.rtGameMask else 0)

/-- `RTICK` (44_events.md R291). -/
def execRtick (s : State) : Host.Outcome State Fault Refusal :=
  s.answer { s.arch with vid :=
    { raisePending (frameBits s.cfg s.arch.vid) s.arch.vid with fcnt := nextFrame s.arch.vid } } .none

/-- `VRAISE mask` (44_events.md R293). -/
def execVraise (mask : Half) (s : State) : Host.Outcome State Fault Refusal :=
  s.answer { s.arch with vid := raisePending mask s.arch.vid } .none

/-- `VSTAT value` (44_events.md R294). -/
def execVstat (v : Half) (s : State) : Host.Outcome State Fault Refusal :=
  s.answer { s.arch with vid := { s.arch.vid with dpstts := v } } .none

/-- `VCTA value` (44_events.md R295). -/
def execVcta (v : Half) (s : State) : Host.Outcome State Fault Refusal :=
  s.answer { s.arch with vid := { s.arch.vid with cta := v } } .none

/-- `SERRX value` (44_events.md R296): both halves in one step. -/
def execSerrx (v : Half) (s : State) : Host.Outcome State Fault Refusal :=
  s.answer { s.arch with per :=
    { s.arch.per with shb := v.extractLsb' 8 8, slb := v.extractLsb' 0 8 } } .none

/-- `COMRX value` (44_events.md R297). -/
def execComrx (v : Byte) (s : State) : Host.Outcome State Fault Refusal :=
  s.answer { s.arch with per := { s.arch.per with cdrr := v } } .none

/-- `PSTAT reg, value` (44_events.md R298). The decoder refuses every register but `CCR`, `CCSR` and `SCR`, and so does
the meaning (log 11). -/
def execPstat (x : PReg) (v : Byte) (s : State) : Host.Outcome State Fault Refusal :=
  match pstatus s.cfg v s.arch.per x with
  | some p => s.answer { s.arch with per := p } .none
  | none => .refused .pstatRegister

/-- `IRQQ` (44_events.md R299). -/
def execIrqq (s : State) : Host.Outcome State Fault Refusal :=
  s.answer s.arch (.bit s.arch.irq)

end Sys2Proof.Machine
end

