-- ==== Sys2Proof/Machine/HostOps.lean ====
section
/-! DEFINITION. The host operations (44_events.md R300, R303 to R308). -/

namespace Sys2Proof.Machine

/-- `RESET` (44_events.md R300): the whole tuple is replaced (70_reset_and_hazards.md R360 to R366). -/
def execReset (s : State) : Host.Outcome State Fault Refusal :=
  s.answer (Arch.atReset s.cfg) .none

/-- `SNAP` (44_events.md R307): returns the whole tuple. -/
def execSnap (s : State) : Host.Outcome State Fault Refusal :=
  s.answer s.arch (.snap s.arch)

/-- `RESTORE snap` (44_events.md R308): the tuple becomes the snapshot; one whose arrays do not have the lengths `CFG`
requires is refused, and so is a missing one (log 13). -/
def execRestore (s : State) : Host.Outcome State Fault Refusal :=
  match s.snapIn with
  | some x => if x.mem.Fits s.cfg then s.answer x .none else .refused .malformedSnapshot
  | none => .refused .malformedSnapshot

/-- `TDRV.ON interval` (44_events.md R303): "The interval is passed to the facility and has no effect on any rule of
RVPC". -/
def execTdrvOn (_interval : Word) (s : State) : Host.Outcome State Fault Refusal :=
  s.answer { s.arch with tdrv := true } .none

/-- `TDRV.OFF` (44_events.md R304). -/
def execTdrvOff (s : State) : Host.Outcome State Fault Refusal :=
  s.answer { s.arch with tdrv := false } .none

/-- `RDRV.ON` (44_events.md R305). -/
def execRdrvOn (s : State) : Host.Outcome State Fault Refusal :=
  s.answer { s.arch with rdrv := true } .none

/-- `RDRV.OFF` (44_events.md R306). -/
def execRdrvOff (s : State) : Host.Outcome State Fault Refusal :=
  s.answer { s.arch with rdrv := false } .none

end Sys2Proof.Machine
end

