-- ==== Sys2Proof/Machine/PeriphSlots.lean ====
section
/-! DEFINITION. The level-2 operation on each peripheral register (42_periph_regs.md; log 7). -/

namespace Sys2Proof.Machine

/-- `CCR` (42_periph_regs.md R222, R223). -/
def execCcr (acc : PAccess) (s : State) : Host.Outcome State Fault Refusal := pregAccess .ccr acc s

/-- `CCSR` (42_periph_regs.md R224, R225). -/
def execCcsr (acc : PAccess) (s : State) : Host.Outcome State Fault Refusal := pregAccess .ccsr acc s

/-- `CDTR` (42_periph_regs.md R226, R228). -/
def execCdtr (acc : PAccess) (s : State) : Host.Outcome State Fault Refusal := pregAccess .cdtr acc s

/-- `CDRR` (42_periph_regs.md R227). -/
def execCdrr (acc : PAccess) (s : State) : Host.Outcome State Fault Refusal := pregAccess .cdrr acc s

/-- `SLB` (42_periph_regs.md R229). -/
def execSlb (acc : PAccess) (s : State) : Host.Outcome State Fault Refusal := pregAccess .slb acc s

/-- `SHB` (42_periph_regs.md R230). -/
def execShb (acc : PAccess) (s : State) : Host.Outcome State Fault Refusal := pregAccess .shb acc s

/-- `TLB` (42_periph_regs.md R231, R232). -/
def execTlb (acc : PAccess) (s : State) : Host.Outcome State Fault Refusal := pregAccess .tlb acc s

/-- `THB` (42_periph_regs.md R233, R234). -/
def execThb (acc : PAccess) (s : State) : Host.Outcome State Fault Refusal := pregAccess .thb acc s

/-- `TCR` (42_periph_regs.md R235, R236). -/
def execTcr (acc : PAccess) (s : State) : Host.Outcome State Fault Refusal := pregAccess .tcr acc s

/-- `WCR` (42_periph_regs.md R241). -/
def execWcr (acc : PAccess) (s : State) : Host.Outcome State Fault Refusal := pregAccess .wcr acc s

/-- `SCR` (42_periph_regs.md R242, R243). -/
def execScr (acc : PAccess) (s : State) : Host.Outcome State Fault Refusal := pregAccess .scr acc s

end Sys2Proof.Machine
end

