-- ==== Sys2Proof/Machine/Timer.lean ====
section
/-! DEFINITION. The timer engine (43_timer_engine.md). -/

namespace Sys2Proof.Machine

/-- The decrement step: a counter at zero stays there (43_timer_engine.md R272). -/
def countDown (n : Half) : Half := if n ≠ 0 then n - 1 else n

/-- What expiry does: auto-reload or one-shot, with `Z_STAT` set (43_timer_engine.md R273 to R275). -/
def timerExpire (p : PeriphRegs) : PeriphRegs :=
  if p.tAuto then { p with zStat := true, tCount := p.tStage } else { p with zStat := true, tEnb := false }

/-- The whole timer step (43_timer_engine.md R276): nothing while Stopped (R271); while Running, clear the reset latch
(R280), decrement (R272), and expire if the counter is then zero. -/
def timerTick (p : PeriphRegs) : PeriphRegs :=
  if p.tEnb then
    let q := { p with tReset := false, tCount := countDown p.tCount }
    if q.tCount = 0 then timerExpire q else q
  else p

/-- `TTICK` (43_timer_engine.md R276). -/
def execTtick (s : State) : Host.Outcome State Fault Refusal :=
  s.answer { s.arch with per := timerTick s.arch.per } .none

end Sys2Proof.Machine
end

