-- ==== Sys2Proof/Machine/VideoSlots.lean ====
section
/-! DEFINITION. The level-2 operation on each video register (41_video_regs.md; log 7). -/

namespace Sys2Proof.Machine

/-- `INTPND` (41_video_regs.md R173, R174). -/
def execIntpnd (acc : VAccess) (s : State) : Host.Outcome State Fault Refusal := vregAccess .intpnd acc s

/-- `INTENB` (41_video_regs.md R175). -/
def execIntenb (acc : VAccess) (s : State) : Host.Outcome State Fault Refusal := vregAccess .intenb acc s

/-- `INTCLR` (41_video_regs.md R176, R177). -/
def execIntclr (acc : VAccess) (s : State) : Host.Outcome State Fault Refusal := vregAccess .intclr acc s

/-- `DPSTTS` (41_video_regs.md R178). -/
def execDpstts (acc : VAccess) (s : State) : Host.Outcome State Fault Refusal := vregAccess .dpstts acc s

/-- `DPCTRL` (41_video_regs.md R179). -/
def execDpctrl (acc : VAccess) (s : State) : Host.Outcome State Fault Refusal := vregAccess .dpctrl acc s

/-- `BRTA` (41_video_regs.md R180). -/
def execBrta (acc : VAccess) (s : State) : Host.Outcome State Fault Refusal := vregAccess .brta acc s

/-- `BRTB` (41_video_regs.md R181). -/
def execBrtb (acc : VAccess) (s : State) : Host.Outcome State Fault Refusal := vregAccess .brtb acc s

/-- `BRTC` (41_video_regs.md R182). -/
def execBrtc (acc : VAccess) (s : State) : Host.Outcome State Fault Refusal := vregAccess .brtc acc s

/-- `REST` (41_video_regs.md R183). -/
def execRest (acc : VAccess) (s : State) : Host.Outcome State Fault Refusal := vregAccess .rest acc s

/-- `FRMCYC` (41_video_regs.md R184). -/
def execFrmcyc (acc : VAccess) (s : State) : Host.Outcome State Fault Refusal := vregAccess .frmcyc acc s

/-- `CTA` (41_video_regs.md R185). -/
def execCta (acc : VAccess) (s : State) : Host.Outcome State Fault Refusal := vregAccess .cta acc s

/-- `VER` (41_video_regs.md R191). -/
def execVer (acc : VAccess) (s : State) : Host.Outcome State Fault Refusal := vregAccess .ver acc s

/-- `SPLT0` (41_video_regs.md R186). -/
def execSplt0 (acc : VAccess) (s : State) : Host.Outcome State Fault Refusal := vregAccess .splt0 acc s

/-- `SPLT1` (41_video_regs.md R187). -/
def execSplt1 (acc : VAccess) (s : State) : Host.Outcome State Fault Refusal := vregAccess .splt1 acc s

/-- `SPLT2` (41_video_regs.md R188). -/
def execSplt2 (acc : VAccess) (s : State) : Host.Outcome State Fault Refusal := vregAccess .splt2 acc s

/-- `SPLT3` (41_video_regs.md R189). -/
def execSplt3 (acc : VAccess) (s : State) : Host.Outcome State Fault Refusal := vregAccess .splt3 acc s

/-- `OPLT0` (41_video_regs.md R192). -/
def execOplt0 (acc : VAccess) (s : State) : Host.Outcome State Fault Refusal := vregAccess .oplt0 acc s

/-- `OPLT1` (41_video_regs.md R193). -/
def execOplt1 (acc : VAccess) (s : State) : Host.Outcome State Fault Refusal := vregAccess .oplt1 acc s

/-- `OPLT2` (41_video_regs.md R194). -/
def execOplt2 (acc : VAccess) (s : State) : Host.Outcome State Fault Refusal := vregAccess .oplt2 acc s

/-- `OPLT3` (41_video_regs.md R195). -/
def execOplt3 (acc : VAccess) (s : State) : Host.Outcome State Fault Refusal := vregAccess .oplt3 acc s

/-- `BKCOL` (41_video_regs.md R196). -/
def execBkcol (acc : VAccess) (s : State) : Host.Outcome State Fault Refusal := vregAccess .bkcol acc s

end Sys2Proof.Machine
end

