-- ==== Sys2Proof/Machine/Dispatch.lean ====
section
/-! DEFINITION. One arm for each operation, each one call of its meaning. -/

namespace Sys2Proof.Machine

def exec (i : Instr) (s : State) : Host.Outcome State Fault Refusal :=
  match i with
  | .rdB addr => Sys2Proof.Machine.execRdB addr s
  | .rdH addr => Sys2Proof.Machine.execRdH addr s
  | .rdW addr => Sys2Proof.Machine.execRdW addr s
  | .wrB addr d => Sys2Proof.Machine.execWrB addr d s
  | .wrH addr d => Sys2Proof.Machine.execWrH addr d s
  | .wrW addr d => Sys2Proof.Machine.execWrW addr d s
  | .vrdB addr => Sys2Proof.Machine.execVrdB addr s
  | .vrdH addr => Sys2Proof.Machine.execVrdH addr s
  | .vrdW addr => Sys2Proof.Machine.execVrdW addr s
  | .vwrB addr d => Sys2Proof.Machine.execVwrB addr d s
  | .vwrH addr d => Sys2Proof.Machine.execVwrH addr d s
  | .vwrW addr d => Sys2Proof.Machine.execVwrW addr d s
  | .prdB addr => Sys2Proof.Machine.execPrdB addr s
  | .prdH addr => Sys2Proof.Machine.execPrdH addr s
  | .prdW addr => Sys2Proof.Machine.execPrdW addr s
  | .pwrB addr d => Sys2Proof.Machine.execPwrB addr d s
  | .pwrH addr d => Sys2Proof.Machine.execPwrH addr d s
  | .pwrW addr d => Sys2Proof.Machine.execPwrW addr d s
  | .reset => Sys2Proof.Machine.execReset s
  | .ttick => Sys2Proof.Machine.execTtick s
  | .rtick => Sys2Proof.Machine.execRtick s
  | .vraise mask => Sys2Proof.Machine.execVraise mask s
  | .vstat v => Sys2Proof.Machine.execVstat v s
  | .vcta v => Sys2Proof.Machine.execVcta v s
  | .serrx v => Sys2Proof.Machine.execSerrx v s
  | .comrx v => Sys2Proof.Machine.execComrx v s
  | .pstat x v => Sys2Proof.Machine.execPstat x v s
  | .irqq => Sys2Proof.Machine.execIrqq s
  | .snap => Sys2Proof.Machine.execSnap s
  | .restore => Sys2Proof.Machine.execRestore s
  | .tdrvOn interval => Sys2Proof.Machine.execTdrvOn interval s
  | .tdrvOff => Sys2Proof.Machine.execTdrvOff s
  | .rdrvOn => Sys2Proof.Machine.execRdrvOn s
  | .rdrvOff => Sys2Proof.Machine.execRdrvOff s
  | .intpnd acc => Sys2Proof.Machine.execIntpnd acc s
  | .intenb acc => Sys2Proof.Machine.execIntenb acc s
  | .intclr acc => Sys2Proof.Machine.execIntclr acc s
  | .dpstts acc => Sys2Proof.Machine.execDpstts acc s
  | .dpctrl acc => Sys2Proof.Machine.execDpctrl acc s
  | .brta acc => Sys2Proof.Machine.execBrta acc s
  | .brtb acc => Sys2Proof.Machine.execBrtb acc s
  | .brtc acc => Sys2Proof.Machine.execBrtc acc s
  | .rest acc => Sys2Proof.Machine.execRest acc s
  | .frmcyc acc => Sys2Proof.Machine.execFrmcyc acc s
  | .cta acc => Sys2Proof.Machine.execCta acc s
  | .ver acc => Sys2Proof.Machine.execVer acc s
  | .splt0 acc => Sys2Proof.Machine.execSplt0 acc s
  | .splt1 acc => Sys2Proof.Machine.execSplt1 acc s
  | .splt2 acc => Sys2Proof.Machine.execSplt2 acc s
  | .splt3 acc => Sys2Proof.Machine.execSplt3 acc s
  | .oplt0 acc => Sys2Proof.Machine.execOplt0 acc s
  | .oplt1 acc => Sys2Proof.Machine.execOplt1 acc s
  | .oplt2 acc => Sys2Proof.Machine.execOplt2 acc s
  | .oplt3 acc => Sys2Proof.Machine.execOplt3 acc s
  | .bkcol acc => Sys2Proof.Machine.execBkcol acc s
  | .ccr acc => Sys2Proof.Machine.execCcr acc s
  | .ccsr acc => Sys2Proof.Machine.execCcsr acc s
  | .cdtr acc => Sys2Proof.Machine.execCdtr acc s
  | .cdrr acc => Sys2Proof.Machine.execCdrr acc s
  | .slb acc => Sys2Proof.Machine.execSlb acc s
  | .shb acc => Sys2Proof.Machine.execShb acc s
  | .tlb acc => Sys2Proof.Machine.execTlb acc s
  | .thb acc => Sys2Proof.Machine.execThb acc s
  | .tcr acc => Sys2Proof.Machine.execTcr acc s
  | .wcr acc => Sys2Proof.Machine.execWcr acc s
  | .scr acc => Sys2Proof.Machine.execScr acc s

end Sys2Proof.Machine
end

