-- ==== Sys2Proof/Machine/Step.lean ====
section
/-! DEFINITION. One step: the next operation in the total order of all agents' operations (20_memory.md R90, R91) is
decoded and performed. -/

namespace Sys2Proof.Machine

/-- The refusal that a rejected word ends in. -/
def refusalOf : Reject → Refusal
  | .reservedWord => .reservedWord
  | .pstatRegister => .pstatRegister

/-- The state in which an operation is performed: it has left the inbox and its snapshot is at hand (log 10). -/
def State.accept (s : State) (q : Request) (rest : List Request) : State :=
  { s with inbox := rest, snapIn := q.snap }

/-- One step. A configuration that fails `WF(CFG)` describes no machine (60_exceptions.md R334, log 3). With no
operation issued nothing changes: "it changes state only when an agent performs an operation on it" (00_scope.md R5,
log 9). A word the decoder refuses has no step (30_encoding.md R118, log 22). -/
def step (s : State) : Host.Outcome State Fault Refusal :=
  if s.cfg.Wf then
    match s.inbox with
    | [] => .next s
    | q :: rest =>
      match decode s.cfg q.raw with
      | .ok i => exec i (s.accept q rest)
      | .error e => .refused (refusalOf e)
  else .refused .illFormedConfig

/-- `s` with a table word as the next operation (log 8, log 20). The request carries the state's own tuple as the
snapshot beside the word, which only `RESTORE` reads (log 10). -/
def State.withFetchWord (s : State) (nbits w : Nat) : State :=
  { s with inbox := ⟨.host, Raw.ofTable s.cfg nbits w, some s.arch⟩ :: s.inbox }

end Sys2Proof.Machine
end

