-- ==== Sys2Proof/Safety.lean ====
section
/-! DEFINITION. The terms in which claims are made: the invariant, sequences of operations, which operations read and
which registers and bytes an operation writes, and the assumption on the tick drivers (44_events.md R309). -/

namespace Sys2Proof.Machine

/-- The invariant: the configuration is well-formed (00_scope.md R9) and every store is a canonical byte array of its
region's length (10_state.md R24 to R27). -/
abbrev State.Inv (s : State) : Prop := s.cfg.Wf ∧ s.arch.mem.Fits s.cfg

/-- A sequence of operations, one after the other (20_memory.md R91). -/
def execAll : List Instr → State → Host.Outcome State Fault Refusal
  | [], s => .next s
  | i :: is, s =>
    match exec i s with
    | .next t => execAll is t
    | .fault r => .fault r
    | .refused r => .refused r

/-- The write mask of a plain video register (41_video_regs.md R170, the column of 30_encoding.md R121); `none` for the
registers that are not plain masked storage. -/
def plainMask (c : Config) : VReg → Option Half
  | .intpnd => none
  | .intenb => none
  | .intclr => none
  | .dpstts => none
  | .dpctrl => some c.vMask.dpctrl
  | .brta => some c.vMask.brta
  | .brtb => some c.vMask.brtb
  | .brtc => some c.vMask.brtc
  | .rest => some c.vMask.rest
  | .frmcyc => some c.vMask.frmcyc
  | .cta => none
  | .ver => none
  | .splt0 => some c.vMask.splt0
  | .splt1 => some c.vMask.splt1
  | .splt2 => some c.vMask.splt2
  | .splt3 => some c.vMask.splt3
  | .oplt0 => some c.vMask.oplt0
  | .oplt1 => some c.vMask.oplt1
  | .oplt2 => some c.vMask.oplt2
  | .oplt3 => some c.vMask.oplt3
  | .bkcol => some c.vMask.bkcol

/-- The legal `op` bytes: the column `op` of 30_encoding.md R112. -/
def legalOps : List (BitVec 8) :=
  [0x00, 0x01, 0x02, 0x04, 0x05, 0x06, 0x40, 0x41, 0x42, 0x44, 0x45, 0x46, 0x80, 0x81, 0x82, 0x84, 0x85, 0x86,
   0xC0, 0xC1, 0xC2, 0xC3, 0xC4, 0xC5, 0xC6, 0xC7, 0xC8, 0xC9, 0xCA, 0xCB, 0xCC, 0xCD, 0xCE, 0xCF]

/-- The operation completes and does what 20_memory.md R81 gives for a writable region: byte `j` of the `n` bytes of `v`
is stored at offset `(off + j) mod back_size` of region `r`, every other byte of memory reads as before, and nothing
else of the tuple changes. -/
def StoresBytes (i : Instr) (s : State) (r : Region) (off n : Nat) (v : Word) : Prop :=
  ∃ m : Memory, exec i s = .next { s with arch := { s.arch with mem := m }, result := .none } ∧
    (∀ j < n, readCell (m.store r) ((off + j) % (s.cfg.win r).backSize) = v.extractLsb' (8 * j) 8) ∧
    ∀ r' k, (r' ≠ r ∨ ∀ j < n, k ≠ (off + j) % (s.cfg.win r).backSize) →
      readCell (m.store r') k = readCell (s.arch.mem.store r') k

/-! ## Level-2 operations -/

/-- The register and access of a level-2 video operation. -/
def videoSlot : Instr → Option (VReg × VAccess)
  | .intpnd acc => some (.intpnd, acc)
  | .intenb acc => some (.intenb, acc)
  | .intclr acc => some (.intclr, acc)
  | .dpstts acc => some (.dpstts, acc)
  | .dpctrl acc => some (.dpctrl, acc)
  | .brta acc => some (.brta, acc)
  | .brtb acc => some (.brtb, acc)
  | .brtc acc => some (.brtc, acc)
  | .rest acc => some (.rest, acc)
  | .frmcyc acc => some (.frmcyc, acc)
  | .cta acc => some (.cta, acc)
  | .ver acc => some (.ver, acc)
  | .splt0 acc => some (.splt0, acc)
  | .splt1 acc => some (.splt1, acc)
  | .splt2 acc => some (.splt2, acc)
  | .splt3 acc => some (.splt3, acc)
  | .oplt0 acc => some (.oplt0, acc)
  | .oplt1 acc => some (.oplt1, acc)
  | .oplt2 acc => some (.oplt2, acc)
  | .oplt3 acc => some (.oplt3, acc)
  | .bkcol acc => some (.bkcol, acc)
  | _ => none

/-- The register and access of a level-2 peripheral operation. -/
def periphSlot : Instr → Option (PReg × PAccess)
  | .ccr acc => some (.ccr, acc)
  | .ccsr acc => some (.ccsr, acc)
  | .cdtr acc => some (.cdtr, acc)
  | .cdrr acc => some (.cdrr, acc)
  | .slb acc => some (.slb, acc)
  | .shb acc => some (.shb, acc)
  | .tlb acc => some (.tlb, acc)
  | .thb acc => some (.thb, acc)
  | .tcr acc => some (.tcr, acc)
  | .wcr acc => some (.wcr, acc)
  | .scr acc => some (.scr, acc)
  | _ => none

/-- A level-2 access that reads. -/
def vaccReads : VAccess → Bool
  | .readByte _ | .readHalf => true
  | .writeByte _ _ | .writeHalf _ => false

/-- A level-2 access that reads. -/
def paccReads : PAccess → Bool
  | .read => true
  | .write _ => false

/-! ## Reads and writes -/

/-- The read-type operations: bus and direct-port reads, `IRQQ`, `SNAP`, and level-2 reads (30_encoding.md R112,
R117). -/
def isRead : Instr → Bool
  | .rdB _ | .rdH _ | .rdW _ | .vrdB _ | .vrdH _ | .vrdW _ | .prdB _ | .prdH _ | .prdW _ | .irqq | .snap => true
  | i =>
    match videoSlot i with
    | some (_, acc) => vaccReads acc
    | none =>
      match periphSlot i with
      | some (_, acc) => paccReads acc
      | none => false

/-- The write-type accesses: bus and direct-port writes and level-2 writes (30_encoding.md R112). -/
def isWrite : Instr → Bool
  | .wrB _ _ | .wrH _ _ | .wrW _ _ | .vwrB _ _ | .vwrH _ _ | .vwrW _ _ | .pwrB _ _ | .pwrH _ _ | .pwrW _ _ => true
  | i =>
    match videoSlot i with
    | some (_, acc) => !vaccReads acc
    | none =>
      match periphSlot i with
      | some (_, acc) => !paccReads acc
      | none => false

/-- The video registers in the slots that an access of the block touches (40_bus_ops.md R150, R151). -/
def slotRegs (c : Config) (off : Nat) : Size → List VReg
  | .b => (c.vregAt (off / 2 * 2)).toList
  | .h => (c.vregAt off).toList
  | .w => (c.vregAt off).toList ++ (c.vregAt (off + 2)).toList

/-- The peripheral register that a write of the block reaches (40_bus_ops.md R157). -/
def slotPReg (c : Config) (off : Nat) : List PReg := if off % 4 = 0 then (c.pregAt off).toList else []

/-- The video registers that a bus write addresses. -/
def busVideo (c : Config) (addr : Word) (sz : Size) : List VReg :=
  if ownerOf c addr = .vblk then slotRegs c (busAddr c addr sz - c.vblkBase) sz else []

/-- The peripheral register that a bus write addresses. -/
def busPeriph (c : Config) (addr : Word) (sz : Size) : List PReg :=
  if ownerOf c addr = .pblk then slotPReg c (busAddr c addr sz - c.pblkBase) else []

/-- The video registers that an operation addresses with a write. -/
def writesVideo (c : Config) : Instr → List VReg
  | .wrB a _ => busVideo c a .b
  | .wrH a _ => busVideo c a .h
  | .wrW a _ => busVideo c a .w
  | .vwrB a _ => slotRegs c (portOffset vblkSize a .b) .b
  | .vwrH a _ => slotRegs c (portOffset vblkSize a .h) .h
  | .vwrW a _ => slotRegs c (portOffset vblkSize a .w) .w
  | i =>
    match videoSlot i with
    | some (x, acc) => if vaccReads acc then [] else [x]
    | none => []

/-- The peripheral registers that an operation addresses with a write. -/
def writesPeriph (c : Config) : Instr → List PReg
  | .wrB a _ => busPeriph c a .b
  | .wrH a _ => busPeriph c a .h
  | .wrW a _ => busPeriph c a .w
  | .pwrB a _ => slotPReg c (portOffset pblkSize a .b)
  | .pwrH a _ => slotPReg c (portOffset pblkSize a .h)
  | .pwrW a _ => slotPReg c (portOffset pblkSize a .w)
  | i =>
    match periphSlot i with
    | some (x, acc) => if paccReads acc then [] else [x]
    | none => []

/-- The region, window offset and size of the bytes that a bus write stores; none outside writable regions
(20_memory.md R81). -/
def storeTarget (c : Config) (addr : Word) (sz : Size) : Option (Region × Nat × Size) :=
  match ownerOf c addr with
  | .region r => if (c.win r).writable then some (r, busAddr c addr sz - (c.win r).base, sz) else none
  | _ => none

/-- The bytes of memory that an operation stores. -/
def stores (c : Config) : Instr → Option (Region × Nat × Size)
  | .wrB a _ => storeTarget c a .b
  | .wrH a _ => storeTarget c a .h
  | .wrW a _ => storeTarget c a .w
  | _ => none

/-- Byte `k` of region `r` is one of the bytes that an operation stores. -/
def storesAt (c : Config) (i : Instr) (r : Region) (k : Nat) : Prop :=
  ∃ off sz, stores c i = some (r, off, sz) ∧ ∃ j < sz.bytes, k = backOffset c r off j

/-! ## The tick drivers -/

/-- The driver flags after an operation that succeeds (44_events.md R300, R303 to R306, R308). That a `RESTORE` of a
snapshot with a driver flag set lets the driver tick again, as its `ON` does, is the model's choice (DESIGN CHOICE,
log 23). -/
def flagsAfter (i : Instr) (snap : Option Arch) (t r : Bool) : Bool × Bool :=
  match i with
  | .reset => (false, false)
  | .restore =>
    match snap with
    | some x => (x.tdrv, x.rdrv)
    | none => (t, r)
  | .tdrvOn _ => (true, r)
  | .tdrvOff => (false, r)
  | .rdrvOn => (t, true)
  | .rdrvOff => (t, false)
  | _ => (t, r)

/-- The environment assumption on ticks: a driver issues `TTICK` only while `TDRV` is 1 and `RTICK` only while `RDRV`
is 1; ticks by hand are free (44_events.md R309, the spec's own decision D30; log 15). It is checked along the order of the requests. -/
def driversHeed (c : Config) (t r : Bool) : List Request → Bool
  | [] => true
  | q :: rest =>
    match decode c q.raw with
    | .error _ => driversHeed c t r rest
    | .ok i =>
      (!(q.agent == .timerDriver && i == .ttick) || t) && (!(q.agent == .refreshDriver && i == .rtick) || r) &&
        driversHeed c (flagsAfter i q.snap t r).1 (flagsAfter i q.snap t r).2 rest

/-- The requests waiting in a state meet the assumption on the drivers. -/
abbrev State.DriversHeed (s : State) : Prop := driversHeed s.cfg s.arch.tdrv s.arch.rdrv s.inbox = true

end Sys2Proof.Machine
end

