-- ==== Sys2Proof/Certificates/Slice0/Obligations.lean ====
section
/-! DEFINITION. The statements for the provers. Each cites the rule of spec/ it states. -/

open Sys2Proof Sys2Proof.Machine

/-! ## The step, the decoder, the configuration -/

/-- A step performs the decoded operation at the head of the total order of operations (20_memory.md section 7); the
list of requests is the model's (log 1). -/
def Obligations.StepPerformsDecodedOperation : Prop :=
  ∀ (s : State) (q : Request) (rest : List Request) (i : Instr),
    s.cfg.Wf → s.inbox = q :: rest → decode s.cfg q.raw = .ok i →
      step s = exec i { s with inbox := rest, snapIn := q.snap }

/-- With no operation issued the machine stays as it is (00_scope.md section 4; log 9). -/
def Obligations.IdleMachineStaysStill : Prop :=
  ∀ s : State, s.cfg.Wf → s.inbox = [] → step s = .next s

/-- 60_exceptions.md R334: an ill-formed configuration is refused before the first operation, and no operation changes
the configuration. Clauses (b), (c), (d), (f) and (g) of WF(CFG) are the spec's own decision D6 (log 12, log 21); that
every step tests it is the model's (log 3). -/
def Obligations.IllFormedConfigurationIsRefused : Prop :=
  (∀ s : State, ¬ s.cfg.Wf → step s = .refused .illFormedConfig) ∧
  ∀ (i : Instr) (s t : State), exec i s = .next t → t.cfg = s.cfg

/-- Exactly the words whose `op` is one of the 34 legal bytes are not reserved, and a reserved word has no step
(30_encoding.md R118, the spec's own decision D33, log 21; that the refusal ends the run is the model's, log 22). -/
def Obligations.ReservedWordsAreRefused : Prop :=
  ∀ (s : State) (w : BitVec 72),
    (decode s.cfg (.opw w) = .error .reservedWord ↔ w.extractLsb' 64 8 ∉ legalOps) ∧
    ∀ (agent : Agent) (snap : Option Arch) (rest : List Request), s.cfg.Wf → w.extractLsb' 64 8 ∉ legalOps →
      s.inbox = ⟨agent, .opw w, snap⟩ :: rest → step s = .refused .reservedWord

/-- Every well-formed operation has a next state in every state; `RESTORE` needs a well-formed snapshot
(60_exceptions.md section 5). -/
def Obligations.WellFormedOperationsComplete : Prop :=
  ∀ (i : Instr) (s : State), i.wf = true →
    (i = .restore → ∃ x : Arch, s.snapIn = some x ∧ x.mem.Fits s.cfg) → ∃ t, exec i s = .next t

/-- Decoding the canonical word of a well-formed operation gives the operation back, for every operation, every operand
and every well-formed configuration (30_encoding.md sections 1, 2 and 4, the spec's own decision D2, log 21; the level-2
words are the model's, log 7). -/
def Obligations.DecodeInvertsEncode : Prop :=
  ∀ (c : Config) (i : Instr), c.Wf → i.wf = true → decode c (encode c i) = .ok i

/-- Eight operation words written out in the spec's vectors decode to the operation they stand for (95_test_vectors.md V1,
V4, V23, V45, V52, V60, V91, V119; the encoding is the spec's own decision D2, log 21). The last two are no words of the
spec: they are the offsets of table rows of 30_encoding.md section 4, and that such an offset with the access bits 0 is a
byte read of the register is the model's choice (DESIGN CHOICE, log 7). -/
def Obligations.SpecWordsDecode : Prop :=
  decode Config.ref (.opw 0x0605000000AABBCCDD) = .ok (.wrW 0x05000000 0xAABBCCDD) ∧
  decode Config.ref (.opw 0x0505000002FFFF1234) = .ok (.wrH 0x05000002 0x1234) ∧
  decode Config.ref (.opw 0x040005F803000000AB) = .ok (.wrB 0x0005F803 0xAB) ∧
  decode Config.ref (.opw 0x410000008400000000) = .ok (.vrdH 0x84) ∧
  decode Config.ref (.opw 0xC80000000000000002) = .ok (.pstat .ccr 0x02) ∧
  decode Config.ref (.opw 0x8600000024FFFFFF81) = .ok (.pwrW 0x24 0xFFFFFF81) ∧
  decode Config.ref (.opw 0xC20000000000000000) = .ok .rtick ∧
  decode Config.ref (.opw 0xCC0000000000004E20) = .ok (.tdrvOn 20000) ∧
  decode Config.ref (.vslot 0x23) = .ok (.dpctrl (.readByte true)) ∧
  decode Config.ref (.pslot 0x20) = .ok (.tcr .read)

/-- The invariant holds right after reset; the configuration and the images there are the model's choice (log 3, log 5). -/
def Obligations.InvariantHoldsAtReset : Prop := State.reset.Inv

/-- Every step keeps the invariant: the configuration stays well-formed, and every region stays a canonical byte array
of its length (00_scope.md section 5, 10_state.md section 4). -/
def Obligations.StepKeepsInvariant : Prop :=
  ∀ s t : State, s.Inv → step s = .next t → t.Inv

/-! ## Memory -/

/-- 20_memory.md R80: a read in a region's window returns the stored bytes at offsets modulo the backing size, the first
in bits 7:0 (little-endian: the spec's own decision D3, log 21), and changes no state. That the address is first masked
is R71, the spec's own decision D4 (log 21). -/
def Obligations.RegionReadReturnsStoredBytes : Prop :=
  ∀ (s : State) (addr : Word) (r : Region), lookup s.cfg (addr &&& s.cfg.addrMask) = .region r →
    let byteOf (a : Word) (j : Nat) : Byte :=
      readCell (s.arch.mem.store r) ((a.toNat - (s.cfg.win r).base + j) % (s.cfg.win r).backSize)
    let a1 := addr &&& s.cfg.addrMask
    let a2 := a1 &&& ~~~1#32
    let a4 := a1 &&& ~~~3#32
    exec (.rdB addr) s = .next { s with result := .byte (byteOf a1 0) } ∧
    exec (.rdH addr) s = .next { s with result := .half (byteOf a2 1 ++ byteOf a2 0) } ∧
    exec (.rdW addr) s =
      .next { s with result := .word (byteOf a4 3 ++ byteOf a4 2 ++ byteOf a4 1 ++ byteOf a4 0) }

/-- 20_memory.md R81: a write in a writable region's window stores the low `8n` bits of the value, lowest byte first, at
offsets modulo the backing size, and changes nothing else; a region that is not writable discards it. That the address
is first masked is R71, the spec's own decision D4, and the byte order is D3 (log 21). -/
def Obligations.RegionWriteStoresBytes : Prop :=
  ∀ (s : State) (addr : Word) (r : Region) (b : Byte) (h : Half) (w : Word), s.Inv →
    lookup s.cfg (addr &&& s.cfg.addrMask) = .region r →
    let off (a : Word) : Nat := a.toNat - (s.cfg.win r).base
    let a1 := addr &&& s.cfg.addrMask
    ((s.cfg.win r).writable = true →
      StoresBytes (.wrB addr b) s r (off a1) 1 (b.setWidth 32) ∧
      StoresBytes (.wrH addr h) s r (off (a1 &&& ~~~1#32)) 2 (h.setWidth 32) ∧
      StoresBytes (.wrW addr w) s r (off (a1 &&& ~~~3#32)) 4 w) ∧
    ((s.cfg.win r).writable = false →
      exec (.wrB addr b) s = .next { s with result := .none } ∧
      exec (.wrH addr h) s = .next { s with result := .none } ∧
      exec (.wrW addr w) s = .next { s with result := .none })

/-- 20_memory.md R79: outside all windows a write changes no state. That every byte there reads as FILL_BYTE is R78, the
spec's own decision D7, and that the address is first masked is R71, its decision D4 (log 21). -/
def Obligations.UnmappedAccessDegrades : Prop :=
  ∀ (s : State) (addr : Word) (b : Byte) (h : Half) (w : Word),
    (∀ e ∈ s.cfg.extents,
      ¬ (e.1 ≤ (addr &&& s.cfg.addrMask).toNat ∧ (addr &&& s.cfg.addrMask).toNat < e.1 + e.2)) →
    let f := s.cfg.fillByte
    exec (.rdB addr) s = .next { s with result := .byte f } ∧
    exec (.rdH addr) s = .next { s with result := .half (f ++ f) } ∧
    exec (.rdW addr) s = .next { s with result := .word (f ++ f ++ f ++ f) } ∧
    exec (.wrB addr b) s = .next { s with result := .none } ∧
    exec (.wrH addr h) s = .next { s with result := .none } ∧
    exec (.wrW addr w) s = .next { s with result := .none }

/-- An access behaves exactly as one at the masked address with its low bits cleared: the clearing is 20_memory.md R75, the
masking is R71, the spec's own decision D4 (log 21). -/
def Obligations.AccessActsAtMaskedAlignedAddress : Prop :=
  ∀ (s : State) (addr : Word) (b : Byte) (h : Half) (w : Word), s.cfg.Wf →
    let a := addr &&& s.cfg.addrMask
    exec (.rdB addr) s = exec (.rdB a) s ∧
    exec (.rdH addr) s = exec (.rdH (a &&& ~~~1#32)) s ∧
    exec (.rdW addr) s = exec (.rdW (a &&& ~~~3#32)) s ∧
    exec (.wrB addr b) s = exec (.wrB a b) s ∧
    exec (.wrH addr h) s = exec (.wrH (a &&& ~~~1#32) h) s ∧
    exec (.wrW addr w) s = exec (.wrW (a &&& ~~~3#32) w) s

/-- 20_memory.md R72: under `WF(CFG)` the lookup finds the one window that contains the address, in whatever order the
tests are made, and none when no window does. Which configurations are well-formed is in part the spec's own decision D6
(log 21). -/
def Obligations.LookupFindsTheContainingWindow : Prop :=
  ∀ (c : Config) (a : Word), c.Wf →
    (∀ r, lookup c a = .region r ↔ (c.win r).base ≤ a.toNat ∧ a.toNat - (c.win r).base < (c.win r).winSize) ∧
    (lookup c a = .vblk ↔ c.vblkBase ≤ a.toNat ∧ a.toNat - c.vblkBase < vblkSize) ∧
    (lookup c a = .pblk ↔ c.pblkBase ≤ a.toNat ∧ a.toNat - c.pblkBase < pblkSize) ∧
    (lookup c a = .unmapped ↔ ∀ e ∈ c.extents, ¬ (e.1 ≤ a.toNat ∧ a.toNat < e.1 + e.2))

/-- Under `WF(CFG)` every byte of an aligned access has the owner of the unaligned address, so no access spans two
windows (20_memory.md section 2; the alignment that WF(CFG) asks for is the spec's own decision D6, log 21). -/
def Obligations.AlignedAccessNeverSpans : Prop :=
  ∀ (c : Config) (a : Word) (sz : Size) (j : Nat), c.Wf → j < sz.bytes →
    lookup c (align sz a + BitVec.ofNat 32 j) = lookup c a

/-- In a writable region a read after a write at the same address and width returns what was written (40_bus_ops.md
section 2). -/
def Obligations.ReadReturnsLastWrite : Prop :=
  ∀ (s : State) (addr : Word) (r : Region) (b : Byte) (h : Half) (w : Word), s.Inv →
    lookup s.cfg (addr &&& s.cfg.addrMask) = .region r → (s.cfg.win r).writable = true →
    (∃ t, exec (.wrB addr b) s = .next t ∧ exec (.rdB addr) t = .next { t with result := .byte b }) ∧
    (∃ t, exec (.wrH addr h) s = .next t ∧ exec (.rdH addr) t = .next { t with result := .half h }) ∧
    (∃ t, exec (.wrW addr w) s = .next t ∧ exec (.rdW addr) t = .next { t with result := .word w })

/-- A word at an aligned address is its two halfwords and a halfword its two bytes, the lower address less significant,
whatever owns the address (20_memory.md section 5). The byte order is R82, the spec's own decision D3; inside the
register blocks the lanes are its decisions D10 and D11, and the fill of unmapped addresses and holes D7 and D8 (log 21).
ADDR_MASK must keep the two low address bits, as in CFG_REF: with a mask that drops them the addresses `A + 1` to `A + 3`
are other names of `A`. -/
def Obligations.MixedWidthsAgree : Prop :=
  ∀ (s : State) (a : Word), s.cfg.Wf → a &&& 3#32 = 0#32 → s.cfg.addrMask &&& 3#32 = 3#32 →
    ∃ b0 b1 b2 b3 : Byte,
      exec (.rdB a) s = .next { s with result := .byte b0 } ∧
      exec (.rdB (a + 1)) s = .next { s with result := .byte b1 } ∧
      exec (.rdB (a + 2)) s = .next { s with result := .byte b2 } ∧
      exec (.rdB (a + 3)) s = .next { s with result := .byte b3 } ∧
      exec (.rdH a) s = .next { s with result := .half (b1 ++ b0) } ∧
      exec (.rdH (a + 2)) s = .next { s with result := .half (b3 ++ b2) } ∧
      exec (.rdW a) s = .next { s with result := .word (b3 ++ b2 ++ b1 ++ b0) }

/-! ## Ports and register blocks -/

/-- A direct-port operation has the result and the effect of the bus operation of the same width at the block's base
plus the offset modulo the block size (40_bus_ops.md R149, the spec's own decision D28; the masking of the bus address is
its decision D4; log 21). -/
def Obligations.DirectPortsActAsBusAccesses : Prop :=
  ∀ (s : State) (addr bus : Word) (b : Byte) (h : Half) (w : Word), s.cfg.Wf →
    ((bus &&& s.cfg.addrMask).toNat = s.cfg.vblkBase + addr.toNat % 0x80 →
      exec (.vrdB addr) s = exec (.rdB bus) s ∧ exec (.vrdH addr) s = exec (.rdH bus) s ∧
      exec (.vrdW addr) s = exec (.rdW bus) s ∧ exec (.vwrB addr b) s = exec (.wrB bus b) s ∧
      exec (.vwrH addr h) s = exec (.wrH bus h) s ∧ exec (.vwrW addr w) s = exec (.wrW bus w) s) ∧
    ((bus &&& s.cfg.addrMask).toNat = s.cfg.pblkBase + addr.toNat % 0x40 →
      exec (.prdB addr) s = exec (.rdB bus) s ∧ exec (.prdH addr) s = exec (.rdH bus) s ∧
      exec (.prdW addr) s = exec (.rdW bus) s ∧ exec (.pwrB addr b) s = exec (.wrB bus b) s ∧
      exec (.pwrH addr h) s = exec (.wrH bus h) s ∧ exec (.pwrW addr w) s = exec (.wrW bus w) s)

/-- The level-2 operation on a register is the direct-port operation at the register's offset (30_encoding.md section 4;
that a register row is an operation of its own is the model's choice, log 7). -/
def Obligations.RegisterRowsActAsPortAccesses : Prop :=
  ∀ (s : State) (b : Byte) (h : Half), s.cfg.Wf →
    (∀ (x : VReg) (hi : Bool),
      exec (Instr.ofVReg (.readByte hi) x) s = exec (.vrdB (BitVec.ofNat 32 (s.cfg.voff x + hi.toNat))) s ∧
      exec (Instr.ofVReg .readHalf x) s = exec (.vrdH (BitVec.ofNat 32 (s.cfg.voff x))) s ∧
      exec (Instr.ofVReg (.writeByte hi b) x) s = exec (.vwrB (BitVec.ofNat 32 (s.cfg.voff x + hi.toNat)) b) s ∧
      exec (Instr.ofVReg (.writeHalf h) x) s = exec (.vwrH (BitVec.ofNat 32 (s.cfg.voff x)) h) s) ∧
    ∀ x : PReg,
      exec (Instr.ofPReg .read x) s = exec (.prdB (BitVec.ofNat 32 (s.cfg.poff x))) s ∧
      exec (Instr.ofPReg (.write b) x) s = exec (.pwrB (BitVec.ofNat 32 (s.cfg.poff x)) b) s

/-- A word access to the video block is two halfword accesses, the lower offset first, and a byte read is a lane of the
halfword read (40_bus_ops.md section 3, the spec's own decision D10, log 21). -/
def Obligations.VideoAccessesDecompose : Prop :=
  ∀ (s : State) (addr w : Word),
    let a := addr &&& ~~~3#32
    (∃ lo hi : Half, exec (.vrdH a) s = .next { s with result := .half lo } ∧
      exec (.vrdH (a + 2)) s = .next { s with result := .half hi } ∧
      exec (.vrdW addr) s = .next { s with result := .word (hi ++ lo) }) ∧
    (∃ t, exec (.vwrH a (w.extractLsb' 0 16)) s = .next t ∧
      exec (.vwrH (a + 2) (w.extractLsb' 16 16)) t = exec (.vwrW addr w) s) ∧
    ∃ v : Half, exec (.vrdH addr) s = .next { s with result := .half v } ∧
      exec (.vrdB (addr &&& ~~~1#32)) s = .next { s with result := .byte (v.extractLsb' 0 8) } ∧
      exec (.vrdB (addr ||| 1#32)) s = .next { s with result := .byte (v.extractLsb' 8 8) }

/-- A wide read of the peripheral block returns the register in its low byte and fill above it, and a wide write writes
the register once with `v[7:0]`; an access that is not at a multiple of 4 touches holes only (40_bus_ops.md section 4,
the spec's own decisions D8 and D11, log 21). -/
def Obligations.PeripheralWideAccess : Prop :=
  ∀ (s : State) (addr : Word) (b : Byte) (h : Half) (w : Word),
    let f := s.cfg.fillByte
    let a := addr &&& ~~~3#32
    (∃ v : Byte, exec (.prdB a) s = .next { s with result := .byte v } ∧
      exec (.prdH a) s = .next { s with result := .half (f ++ v) } ∧
      exec (.prdW addr) s = .next { s with result := .word (f ++ f ++ f ++ v) }) ∧
    exec (.pwrH a h) s = exec (.pwrB a (h.extractLsb' 0 8)) s ∧
    exec (.pwrW addr w) s = exec (.pwrB a (w.extractLsb' 0 8)) s ∧
    (addr &&& 3#32 ≠ 0#32 →
      exec (.prdB addr) s = .next { s with result := .byte f } ∧
      exec (.pwrB addr b) s = .next { s with result := .none }) ∧
    (addr &&& 2#32 = 2#32 →
      exec (.prdH addr) s = .next { s with result := .half (f ++ f) } ∧
      exec (.pwrH addr h) s = .next { s with result := .none })

/-- A byte of a register block that belongs to no register reads as FILL_BYTE and ignores writes (30_encoding.md R124,
the spec's own decision D8, log 21). -/
def Obligations.HolesReadFillAndIgnoreWrites : Prop :=
  ∀ (s : State) (o : Nat) (b : Byte) (h : Half),
    let f := s.cfg.fillByte
    let at' (j : Nat) : Word := BitVec.ofNat 32 (o + j)
    (o < 0x80 → o % 2 = 0 → (∀ x, s.cfg.voff x ≠ o) →
      exec (.vrdB (at' 0)) s = .next { s with result := .byte f } ∧
      exec (.vrdB (at' 1)) s = .next { s with result := .byte f } ∧
      exec (.vrdH (at' 0)) s = .next { s with result := .half (f ++ f) } ∧
      exec (.vwrB (at' 0) b) s = .next { s with result := .none } ∧
      exec (.vwrB (at' 1) b) s = .next { s with result := .none } ∧
      exec (.vwrH (at' 0) h) s = .next { s with result := .none }) ∧
    (o < 0x40 → (o % 4 ≠ 0 ∨ ∀ x, s.cfg.poff x ≠ o) →
      exec (.prdB (at' 0)) s = .next { s with result := .byte f } ∧
      exec (.pwrB (at' 0) b) s = .next { s with result := .none })

/-- A level-2 word whose offset selects no register is decoded, and performed it reads FILL_BYTE in each byte of the
slot's access, or changes no state: for the video block a byte or a halfword, for the peripheral block a byte
(40_bus_ops.md R155, 41_video_regs.md R190, 42_periph_regs.md R244, the spec's own decision D8, log 21; the level-2 words
are the model's, log 7). -/
def Obligations.LevelTwoWordsOfHolesDegrade : Prop :=
  ∀ (s : State) (d : Half),
    let f := s.cfg.fillByte
    let runs (w : Raw) (r : Result) : Prop := ∃ i, decode s.cfg w = .ok i ∧ exec i s = .next { s with result := r }
    (∀ off : BitVec 7, (∀ x, s.cfg.voff x ≠ off.toNat / 2 * 2) →
      runs (vslotWord off 0b00#2 0b0#1 d) (.byte f) ∧ runs (vslotWord off 0b01#2 0b0#1 d) (.half (f ++ f)) ∧
      runs (vslotWord off 0b00#2 0b1#1 d) .none ∧ runs (vslotWord off 0b01#2 0b1#1 d) .none) ∧
    ∀ (off : BitVec 6) (b : Byte), (∀ x, s.cfg.poff x ≠ off.toNat) →
      runs (pslotWord off 0b0#1 b) (.byte f) ∧ runs (pslotWord off 0b1#1 b) .none

/-! ## Video registers -/

/-- 41_video_regs.md R170, for each of the 15 plain registers: a read returns `X`; a write of `v` under lane mask `m`
leaves `(X & ~k) | (v & k)` with `k = m & WMASK_X`, every other register as it was, and nothing else changed. Where no
bit of `X` is outside `WMASK_X`, the register then reads back `v & WMASK_X`. The lanes of byte accesses are the spec's
own decision D10 (log 21). -/
def Obligations.PlainRegistersAreMaskedStorage : Prop :=
  ∀ (s : State) (x : VReg) (wmask : Half), plainMask s.cfg x = some wmask →
    let X := vread s.cfg s.arch.vid x
    let writes (i : Instr) (v m : Half) : Prop :=
      ∃ v' : VideoRegs, exec i s = .next { s with arch := { s.arch with vid := v' }, result := .none } ∧
        vread s.cfg v' x = (X &&& ~~~(m &&& wmask)) ||| (v &&& (m &&& wmask)) ∧
        (∀ y, y ≠ x → vread s.cfg v' y = vread s.cfg s.arch.vid y) ∧ v'.fcnt = s.arch.vid.fcnt
    exec (Instr.ofVReg .readHalf x) s = .next { s with result := .half X } ∧
    exec (Instr.ofVReg (.readByte false) x) s = .next { s with result := .byte (X.extractLsb' 0 8) } ∧
    exec (Instr.ofVReg (.readByte true) x) s = .next { s with result := .byte (X.extractLsb' 8 8) } ∧
    (∀ d, writes (Instr.ofVReg (.writeHalf d) x) d 0xFFFF) ∧
    (∀ d, writes (Instr.ofVReg (.writeByte false d) x) (0#8 ++ d) 0x00FF) ∧
    (∀ d, writes (Instr.ofVReg (.writeByte true d) x) (d ++ 0#8) 0xFF00) ∧
    (X &&& ~~~wmask = 0x0000 → ∀ d, ∃ t, exec (Instr.ofVReg (.writeHalf d) x) s = .next t ∧
      exec (Instr.ofVReg .readHalf x) t = .next { t with result := .half (d &&& wmask) })

/-- The plain registers are the 15 of 30_encoding.md section 4 with a write mask, and each has its own storage: the
register named is the field named. -/
def Obligations.PlainRegistersByName : Prop :=
  ∀ (s : State) (d : Half), s.cfg.vMask = Config.ref.vMask →
    let put (v : VideoRegs) : Host.Outcome State Fault Refusal :=
      .next { s with arch := { s.arch with vid := v }, result := .none }
    exec (.dpctrl (.writeHalf d)) s = put { s.arch.vid with dpctrl := d } ∧
    exec (.brta (.writeHalf d)) s = put { s.arch.vid with brta := d } ∧
    exec (.brtb (.writeHalf d)) s = put { s.arch.vid with brtb := d } ∧
    exec (.brtc (.writeHalf d)) s = put { s.arch.vid with brtc := d } ∧
    exec (.rest (.writeHalf d)) s = put { s.arch.vid with rest := d } ∧
    exec (.frmcyc (.writeHalf d)) s = put { s.arch.vid with frmcyc := d } ∧
    exec (.splt0 (.writeHalf d)) s = put { s.arch.vid with splt0 := d } ∧
    exec (.splt1 (.writeHalf d)) s = put { s.arch.vid with splt1 := d } ∧
    exec (.splt2 (.writeHalf d)) s = put { s.arch.vid with splt2 := d } ∧
    exec (.splt3 (.writeHalf d)) s = put { s.arch.vid with splt3 := d } ∧
    exec (.oplt0 (.writeHalf d)) s = put { s.arch.vid with oplt0 := d } ∧
    exec (.oplt1 (.writeHalf d)) s = put { s.arch.vid with oplt1 := d } ∧
    exec (.oplt2 (.writeHalf d)) s = put { s.arch.vid with oplt2 := d } ∧
    exec (.oplt3 (.writeHalf d)) s = put { s.arch.vid with oplt3 := d } ∧
    exec (.bkcol (.writeHalf d)) s = put { s.arch.vid with bkcol := d }

/-- 41_video_regs.md R175: `INTENB` reads its value; a halfword write replaces it whatever it was. That a byte write
replaces its byte only is the spec's own decision D10 (log 21). -/
def Obligations.IntenbTakesWhatIsWritten : Prop :=
  ∀ (s : State) (d : Half) (b : Byte),
    let old := s.arch.vid.intenb
    let put (v : Half) : Host.Outcome State Fault Refusal :=
      .next { s with arch := { s.arch with vid := { s.arch.vid with intenb := v } }, result := .none }
    exec (.intenb .readHalf) s = .next { s with result := .half old } ∧
    exec (.intenb (.readByte false)) s = .next { s with result := .byte (old.extractLsb' 0 8) } ∧
    exec (.intenb (.readByte true)) s = .next { s with result := .byte (old.extractLsb' 8 8) } ∧
    exec (.intenb (.writeHalf d)) s = put d ∧
    exec (.intenb (.writeByte false b)) s = put (old.extractLsb' 8 8 ++ b) ∧
    exec (.intenb (.writeByte true b)) s = put (b ++ old.extractLsb' 0 8)

/-- 41_video_regs.md R173: `INTPND` reads the pending bits and clears nothing. That every write is discarded is R174, the
spec's own decision D14 (log 21). -/
def Obligations.IntpndReadsLiveAndIgnoresWrites : Prop :=
  ∀ (s : State) (acc : VAccess),
    exec (.intpnd .readHalf) s = .next { s with result := .half s.arch.vid.intpnd } ∧
    exec (.intpnd (.readByte false)) s = .next { s with result := .byte (s.arch.vid.intpnd.extractLsb' 0 8) } ∧
    exec (.intpnd (.readByte true)) s = .next { s with result := .byte (s.arch.vid.intpnd.extractLsb' 8 8) } ∧
    (vaccReads acc = false → exec (.intpnd acc) s = .next { s with result := .none })

/-- 41_video_regs.md R176: a write of `INTCLR` clears exactly the pending bits named in the lanes written and stores
nothing. That a read returns `0x0000` is R177, the spec's own decision D13 (log 21). -/
def Obligations.IntclrClearsNamedBits : Prop :=
  ∀ (s : State) (d : Half) (b : Byte),
    let p := s.arch.vid.intpnd
    let pend (v : Half) : Host.Outcome State Fault Refusal :=
      .next { s with arch := { s.arch with vid := { s.arch.vid with intpnd := v } }, result := .none }
    exec (.intclr (.writeHalf d)) s = pend (p &&& ~~~d) ∧
    exec (.intclr (.writeByte false b)) s = pend (p &&& ~~~(0#8 ++ b)) ∧
    exec (.intclr (.writeByte true b)) s = pend (p &&& ~~~(b ++ 0#8)) ∧
    exec (.intclr (.writeHalf p)) s = pend 0x0000 ∧
    exec (.intclr .readHalf) s = .next { s with result := .half 0x0000 } ∧
    exec (.intclr (.readByte false)) s = .next { s with result := .byte 0x00 } ∧
    exec (.intclr (.readByte true)) s = .next { s with result := .byte 0x00 }

/-- 41_video_regs.md R191: `VER` reads VIP_VERSION and discards writes. `DPSTTS` and `CTA` read their value and discard
writes; only `VSTAT`, `VCTA`, `RESET` and `RESTORE` change them (41_video_regs.md section 3; for `CTA` the spec's own
decision D15, for the inputs D17, log 21). -/
def Obligations.DisplayRegistersDiscardWrites : Prop :=
  (∀ (s : State) (acc : VAccess),
    exec (.ver .readHalf) s = .next { s with result := .half s.cfg.vipVersion } ∧
    exec (.dpstts .readHalf) s = .next { s with result := .half s.arch.vid.dpstts } ∧
    exec (.cta .readHalf) s = .next { s with result := .half s.arch.vid.cta } ∧
    exec (.ver (.readByte false)) s = .next { s with result := .byte (s.cfg.vipVersion.extractLsb' 0 8) } ∧
    exec (.ver (.readByte true)) s = .next { s with result := .byte (s.cfg.vipVersion.extractLsb' 8 8) } ∧
    exec (.dpstts (.readByte false)) s = .next { s with result := .byte (s.arch.vid.dpstts.extractLsb' 0 8) } ∧
    exec (.dpstts (.readByte true)) s = .next { s with result := .byte (s.arch.vid.dpstts.extractLsb' 8 8) } ∧
    exec (.cta (.readByte false)) s = .next { s with result := .byte (s.arch.vid.cta.extractLsb' 0 8) } ∧
    exec (.cta (.readByte true)) s = .next { s with result := .byte (s.arch.vid.cta.extractLsb' 8 8) } ∧
    (vaccReads acc = false →
      exec (.ver acc) s = .next { s with result := .none } ∧
      exec (.dpstts acc) s = .next { s with result := .none } ∧
      exec (.cta acc) s = .next { s with result := .none })) ∧
  ∀ (i : Instr) (s t : State), exec i s = .next t → i ≠ .reset → i ≠ .restore →
    ((∀ v, i ≠ .vstat v) → t.arch.vid.dpstts = s.arch.vid.dpstts) ∧
    ((∀ v, i ≠ .vcta v) → t.arch.vid.cta = s.arch.vid.cta)

/-! ## Peripheral registers -/

/-- 42_periph_regs.md R222 to R225, R241 and R242, with the masked discipline of R221: a read returns the register; a
write takes the bits inside the write mask and keeps the others; nothing else changes. That `SCR` is written so is R243,
the spec's own decision D25 (log 21). -/
def Obligations.MaskedPeripheralRegisters : Prop :=
  ∀ (s : State) (v : Byte),
    let p := s.arch.per
    let m := s.cfg.pMask
    let put (p' : PeriphRegs) : Host.Outcome State Fault Refusal :=
      .next { s with arch := { s.arch with per := p' }, result := .none }
    exec (.ccr .read) s = .next { s with result := .byte p.ccr } ∧
    exec (.ccsr .read) s = .next { s with result := .byte p.ccsr } ∧
    exec (.scr .read) s = .next { s with result := .byte p.scr } ∧
    exec (.wcr .read) s = .next { s with result := .byte p.wcr } ∧
    exec (.ccr (.write v)) s = put { p with ccr := (p.ccr &&& ~~~m.ccr) ||| (v &&& m.ccr) } ∧
    exec (.ccsr (.write v)) s = put { p with ccsr := (p.ccsr &&& ~~~m.ccsr) ||| (v &&& m.ccsr) } ∧
    exec (.scr (.write v)) s = put { p with scr := (p.scr &&& ~~~m.scr) ||| (v &&& m.scr) } ∧
    exec (.wcr (.write v)) s = put { p with wcr := (p.wcr &&& ~~~m.wcr) ||| (v &&& m.wcr) }

/-- `CDTR` reads `0x00`; a write stores the byte and appends it to `TXQ`, and so does a port write of any width with
`v[7:0]`; bytes written one after the other stand in `TXQ` in that order, repeated bytes repeated, and nothing else
changes (42_periph_regs.md R226 and R228, the spec's own decisions D13 and D26, log 21). -/
def Obligations.CdtrQueuesTheByte : Prop :=
  ∀ (s : State) (v : Byte) (h : Half) (w : Word),
    let put (b : Byte) : Host.Outcome State Fault Refusal :=
      .next { s with arch := { s.arch with per := { s.arch.per with cdtr := b }, txq := s.arch.txq ++ [b] },
                     result := .none }
    exec (.cdtr .read) s = .next { s with result := .byte 0x00 } ∧
    exec (.cdtr (.write v)) s = put v ∧
    (s.cfg.Wf →
      exec (.pwrB (BitVec.ofNat 32 (s.cfg.poff .cdtr)) v) s = put v ∧
      exec (.pwrH (BitVec.ofNat 32 (s.cfg.poff .cdtr)) h) s = put (h.extractLsb' 0 8) ∧
      exec (.pwrW (BitVec.ofNat 32 (s.cfg.poff .cdtr)) w) s = put (w.extractLsb' 0 8)) ∧
    ∀ l : List Byte, execAll ((l ++ [v]).map fun b => .cdtr (.write b)) s =
      .next { s with arch := { s.arch with per := { s.arch.per with cdtr := v }, txq := s.arch.txq ++ l ++ [v] },
                     result := .none }

/-- `CDRR`, `SLB` and `SHB` read their value and discard writes; only `COMRX`, `SERRX`, `RESET` and `RESTORE` change them
(42_periph_regs.md sections 2 and 3). That `CDRR` discards writes and that the inputs load the registers is the spec's
own decision D17, and that `SERRX` loads both `SLB` and `SHB` is its decision D24 (log 21). -/
def Obligations.ReceiveRegistersDiscardWrites : Prop :=
  (∀ (s : State) (v : Byte),
    exec (.cdrr .read) s = .next { s with result := .byte s.arch.per.cdrr } ∧
    exec (.slb .read) s = .next { s with result := .byte s.arch.per.slb } ∧
    exec (.shb .read) s = .next { s with result := .byte s.arch.per.shb } ∧
    exec (.cdrr (.write v)) s = .next { s with result := .none } ∧
    exec (.slb (.write v)) s = .next { s with result := .none } ∧
    exec (.shb (.write v)) s = .next { s with result := .none }) ∧
  ∀ (i : Instr) (s t : State), exec i s = .next t → i ≠ .reset → i ≠ .restore →
    ((∀ v, i ≠ .comrx v) → t.arch.per.cdrr = s.arch.per.cdrr) ∧
    ((∀ v, i ≠ .serrx v) → t.arch.per.slb = s.arch.per.slb ∧ t.arch.per.shb = s.arch.per.shb)

/-- 42_periph_regs.md R231 to R234: reads of `TLB` and `THB` return the live counter's bytes; writes update the staged
value's byte and nothing else. -/
def Obligations.TimerBytesReadLiveAndWriteStaged : Prop :=
  ∀ (s : State) (v : Byte),
    let p := s.arch.per
    let stage (h : Half) : Host.Outcome State Fault Refusal :=
      .next { s with arch := { s.arch with per := { p with tStage := h } }, result := .none }
    exec (.tlb .read) s = .next { s with result := .byte (p.tCount.extractLsb' 0 8) } ∧
    exec (.thb .read) s = .next { s with result := .byte (p.tCount.extractLsb' 8 8) } ∧
    exec (.tlb (.write v)) s = stage (p.tStage.extractLsb' 8 8 ++ v) ∧
    exec (.thb (.write v)) s = stage (v ++ p.tStage.extractLsb' 0 8)

/-- `TCR` reads as its stored fields, strobes and reserved bits 0, at the bit numbers of CFG_REF (42_periph_regs.md R235,
the spec's own decision D19, log 21; bit numbers log 19). -/
def Obligations.TcrReadsAssembledFields : Prop :=
  ∀ s : State, s.cfg.tcr = { enb := 0, zstat := 1, zclr := 2, zint := 3, auto := 5, load := 6 } →
    let bit (b : Bool) : BitVec 1 := BitVec.ofBool b
    let v : Byte := 0#1 ++ 0#1 ++ bit s.arch.per.tAuto ++ 0#1 ++ bit s.arch.per.zInt ++ 0#1 ++
      bit s.arch.per.zStat ++ bit s.arch.per.tEnb
    exec (.tcr .read) s = .next { s with result := .byte v }

/-- What one `TCR` write does, at the bit numbers of CFG_REF (42_periph_regs.md R236 to R239, the spec's own decisions D19
and D20, log 21; bit numbers log 19). -/
def Obligations.TcrWriteActsInThreeSteps : Prop :=
  ∀ (s : State) (v : Byte), s.cfg.tcr = { enb := 0, zstat := 1, zclr := 2, zint := 3, auto := 5, load := 6 } →
    let p := s.arch.per
    exec (.tcr (.write v)) s = .next { s with
      arch := { s.arch with per := { p with
        zStat := if v.getLsbD 2 then false else p.zStat,
        tEnb := v.getLsbD 0,
        zInt := v.getLsbD 3,
        tAuto := v.getLsbD 5,
        tCount := if v.getLsbD 6 then p.tStage else p.tCount,
        tReset := if v.getLsbD 6 then true else p.tReset } },
      result := .none }

/-! ## The timer engine -/

/-- 43_timer_engine.md R271 and R276 (with R273 to R275, R280): one `TTICK`, case by case. That a count of zero does not
wrap is R272, the spec's own decision D21, and the count after a one-shot expiry D22 (log 21). -/
def Obligations.TimerTick : Prop :=
  ∀ s : State,
    let p := s.arch.per
    let put (p' : PeriphRegs) : Host.Outcome State Fault Refusal :=
      .next { s with arch := { s.arch with per := p' }, result := .none }
    (p.tEnb = false → exec .ttick s = put p) ∧
    (p.tEnb = true → 1 < p.tCount.toNat → exec .ttick s = put { p with tReset := false, tCount := p.tCount - 1 }) ∧
    (p.tEnb = true → p.tCount.toNat ≤ 1 → p.tAuto = true →
      exec .ttick s = put { p with tReset := false, zStat := true, tCount := p.tStage }) ∧
    (p.tEnb = true → p.tCount.toNat ≤ 1 → p.tAuto = false →
      exec .ttick s = put { p with tReset := false, zStat := true, tCount := 0, tEnb := false })

/-- With `N` in the counter of a Running timer, no tick before number `max(N, 1)` expires and that one does
(43_timer_engine.md section 3; a count of zero is the spec's own decision D21, the state after a one-shot expiry D22,
log 21). -/
def Obligations.FirstExpiryAtTickMaxN1 : Prop :=
  ∀ (s : State), s.arch.per.tEnb = true →
    let n := s.arch.per.tCount.toNat
    (∀ k, k < max n 1 → ∃ t, execAll (List.replicate k .ttick) s = .next t ∧
      t.arch.per.tCount.toNat = n - k ∧ t.arch.per.tEnb = true ∧ t.arch.per.zStat = s.arch.per.zStat) ∧
    ∃ t, execAll (List.replicate (max n 1) .ttick) s = .next t ∧ t.arch.per.zStat = true ∧
      t.arch.per.tEnb = s.arch.per.tAuto ∧
      t.arch.per.tCount = (if s.arch.per.tAuto then s.arch.per.tStage else 0)

/-- With auto-reload and the staged value `N` unchanged, an expiry comes every `max(N, 1)` ticks and leaves `N` in the
counter; a Stopped timer is changed by no number of ticks (43_timer_engine.md section 3). That `N = 0` expires on every
tick, so that the period is `max(N, 1)`, is the spec's own decision D21 (log 21). -/
def Obligations.AutoReloadIsPeriodicAndStoppedIsQuiet : Prop :=
  (∀ (s : State) (m : Nat), s.arch.per.tEnb = true → s.arch.per.tAuto = true →
    s.arch.per.tCount = s.arch.per.tStage →
    ∃ t, execAll (List.replicate ((m + 1) * max s.arch.per.tStage.toNat 1) .ttick) s = .next t ∧
      t.arch.per.zStat = true ∧ t.arch.per.tCount = s.arch.per.tStage ∧ t.arch.per.tStage = s.arch.per.tStage ∧
      t.arch.per.tEnb = true ∧ t.arch.per.tAuto = true) ∧
  ∀ (s : State) (k : Nat), s.arch.per.tEnb = false →
    ∃ t, execAll (List.replicate k .ttick) s = .next t ∧ t.arch = s.arch

/-! ## Events -/

/-- One `RTICK` (44_events.md R291, the spec's own decision D18, log 21). -/
def Obligations.RefreshTick : Prop :=
  ∀ s : State,
    let v := s.arch.vid
    exec .rtick s = .next { s with
      arch := { s.arch with vid := { v with
        intpnd := if v.fcnt = 0 then v.intpnd ||| s.cfg.rtFrameMask ||| s.cfg.rtGameMask
                  else v.intpnd ||| s.cfg.rtFrameMask,
        fcnt := if v.frmcyc.toNat ≤ v.fcnt.toNat then 0 else v.fcnt + 1 } },
      result := .none }

/-- From `FCNT = 0` and with `FRMCYC = k`, the frame counter after `n` refresh ticks is `n mod (k + 1)`, so the
game-frame bits are raised every `k + 1` ticks; after any tick `FCNT <= FRMCYC` (44_events.md section 1, the spec's own
decision D18, log 21). -/
def Obligations.FrameCounterCyclesThroughFrmcyc : Prop :=
  (∀ (s : State) (n : Nat), s.arch.vid.fcnt = 0 →
    ∃ t, execAll (List.replicate n .rtick) s = .next t ∧ t.arch.vid.frmcyc = s.arch.vid.frmcyc ∧
      t.arch.vid.fcnt.toNat = n % (s.arch.vid.frmcyc.toNat + 1)) ∧
  ∀ s t : State, exec .rtick s = .next t → t.arch.vid.fcnt.toNat ≤ s.arch.vid.frmcyc.toNat

/-- The sideband inputs (44_events.md R293 to R297, the spec's own decisions D15, D17 and D24, log 21). -/
def Obligations.SidebandInputs : Prop :=
  ∀ (s : State) (h : Half) (b : Byte),
    let v := s.arch.vid
    let p := s.arch.per
    let putV (v' : VideoRegs) : Host.Outcome State Fault Refusal :=
      .next { s with arch := { s.arch with vid := v' }, result := .none }
    let putP (p' : PeriphRegs) : Host.Outcome State Fault Refusal :=
      .next { s with arch := { s.arch with per := p' }, result := .none }
    exec (.vraise h) s = putV { v with intpnd := v.intpnd ||| h } ∧
    exec (.vstat h) s = putV { v with dpstts := h } ∧
    exec (.vcta h) s = putV { v with cta := h } ∧
    exec (.serrx h) s = putP { p with shb := h.extractLsb' 8 8, slb := h.extractLsb' 0 8 } ∧
    exec (.comrx b) s = putP { p with cdrr := b }

/-- `PSTAT` sets the bits outside the write mask of `CCR`, `CCSR` or `SCR` and leaves the others; the decoder takes the
register from `addr[5:0]` and refuses any other (44_events.md R298, the spec's own decisions D17 and D25, log 21; which
address bits count is log 11). -/
def Obligations.PstatSetsReadOnlyBits : Prop :=
  ∀ (s : State) (v : Byte) (addr data : Word), s.cfg.Wf →
    let p := s.arch.per
    let m := s.cfg.pMask
    let put (p' : PeriphRegs) : Host.Outcome State Fault Refusal :=
      .next { s with arch := { s.arch with per := p' }, result := .none }
    let word : BitVec 72 := 0xC8#8 ++ addr ++ data
    exec (.pstat .ccr v) s = put { p with ccr := (p.ccr &&& m.ccr) ||| (v &&& ~~~m.ccr) } ∧
    exec (.pstat .ccsr v) s = put { p with ccsr := (p.ccsr &&& m.ccsr) ||| (v &&& ~~~m.ccsr) } ∧
    exec (.pstat .scr v) s = put { p with scr := (p.scr &&& m.scr) ||| (v &&& ~~~m.scr) } ∧
    (∀ x ∈ [PReg.ccr, PReg.ccsr, PReg.scr], addr.toNat % 64 = s.cfg.poff x →
      decode s.cfg (.opw word) = .ok (.pstat x (data.extractLsb' 0 8))) ∧
    ((∀ x ∈ [PReg.ccr, PReg.ccsr, PReg.scr], addr.toNat % 64 ≠ s.cfg.poff x) →
      decode s.cfg (.opw word) = .error .pstatRegister)

/-- 60_exceptions.md R320 and 44_events.md R299: `IRQQ` returns the OR of the enabled pending bits of both blocks and
changes no state. That the formula holds of every state is also the spec's own decision D31 (log 21). -/
def Obligations.IrqIsTheOrOfEnabledPendingBits : Prop :=
  ∀ s : State,
    let irq : Prop := (s.arch.vid.intpnd &&& s.arch.vid.intenb) ≠ 0x0000 ∨
      (s.arch.per.zStat = true ∧ s.arch.per.zInt = true)
    (irq → exec .irqq s = .next { s with result := .bit true }) ∧
    (¬ irq → exec .irqq s = .next { s with result := .bit false })

/-! ## Host operations -/

/-- 44_events.md R300 and 70_reset_and_hazards.md R360: `RESET` replaces the whole tuple, in one step, by the tuple the
machine starts with. The reset values are R361 to R364, the spec's own decision D27 (log 6, log 21): under the RESET_X
of CFG_REF every register, flag and hidden field is zero and every register but `VER` reads as zero. -/
def Obligations.ResetReplacesTheTuple : Prop :=
  exec .reset State.reset = .next State.reset ∧ ∀ s : State,
    exec .reset s = .next { s with
      arch := { mem := s.cfg.image, vid := s.cfg.resetVid, per := s.cfg.resetPer, txq := [], tdrv := false, rdrv := false },
      result := .none } ∧
    (s.cfg.resetVid = Config.ref.resetVid → s.cfg.resetPer = Config.ref.resetPer → ∃ t, exec .reset s = .next t ∧
      (∀ x, x ≠ .ver → vread t.cfg t.arch.vid x = 0x0000) ∧ t.arch.vid.fcnt = 0x0000 ∧
      t.arch.per = { scr := 0x00, wcr := 0x00, tEnb := false, zStat := false, zInt := false, tAuto := false,
                     shb := 0x00, slb := 0x00, cdrr := 0x00, cdtr := 0x00, ccsr := 0x00, ccr := 0x00,
                     tStage := 0x0000, tCount := 0x0000, tWord := 0x00000000, tReset := false } ∧
      (∀ x, exec (Instr.ofPReg .read x) t = .next { t with result := .byte 0x00 }) ∧
      (∀ x, x ≠ .ver → exec (Instr.ofVReg .readHalf x) t = .next { t with result := .half 0x0000 }) ∧
      exec (.ver .readHalf) t = .next { t with result := .half s.cfg.vipVersion } ∧
      exec .irqq t = .next { t with result := .bit false })

/-- `SNAP` returns the tuple and changes no state; `RESTORE` makes the snapshot the tuple, so `SNAP` after `RESTORE`
returns the snapshot and `RESTORE` of `SNAP`'s result leaves the tuple unchanged; a snapshot of wrong lengths is refused
(44_events.md R307 and R308, the spec's own decision D29, log 21; the form of a snapshot is log 13 and log 14). -/
def Obligations.SnapRestoreRoundTrip : Prop :=
  ∀ (s : State) (x : Arch),
    exec .snap s = .next { s with result := .snap s.arch } ∧
    (x.mem.Fits s.cfg →
      execAll [.restore, .snap] { s with snapIn := some x } =
        .next { s with arch := x, snapIn := some x, result := .snap x }) ∧
    (s.arch.mem.Fits s.cfg →
      exec .restore { s with snapIn := some s.arch } = .next { s with snapIn := some s.arch, result := .none }) ∧
    (¬ x.mem.Fits s.cfg → exec .restore { s with snapIn := some x } = .refused .malformedSnapshot)

/-- The driver registration operations set and clear `TDRV` and `RDRV` and change nothing else; the interval has no
effect (44_events.md R303 to R306, the spec's own decision D30, log 21). -/
def Obligations.DriverRegistration : Prop :=
  ∀ (s : State) (interval : Word),
    exec (.tdrvOn interval) s = .next { s with arch := { s.arch with tdrv := true }, result := .none } ∧
    exec .tdrvOff s = .next { s with arch := { s.arch with tdrv := false }, result := .none } ∧
    exec .rdrvOn s = .next { s with arch := { s.arch with rdrv := true }, result := .none } ∧
    exec .rdrvOff s = .next { s with arch := { s.arch with rdrv := false }, result := .none }

/-- Along the order of the requests no driver issues a tick while it is not registered, and every step keeps that
(44_events.md section 5, R309, the spec's own decision D30, log 21; the check is the model's form of the assumption,
log 15, and that a `RESTORE` counts as a registration is the model's choice, log 23). -/
def Obligations.DriverDisciplineIsKept : Prop :=
  ∀ s t : State, s.DriversHeed → step s = .next t → t.DriversHeed

/-- Once the timer driver is deregistered, a tick it issues comes only after a `TDRV.ON` or a `RESTORE`, and likewise for
the refresh driver and `RDRV.ON`. This is of the predicate `driversHeed`, the model's form of the environment assumption
(DEDUCED, log 15; 44_events.md R309 is the spec's own decision D30, log 21). R304 and R306 name the `ON` operations only:
that a `RESTORE` too lets a driver tick again is the model's choice (DESIGN CHOICE, log 23). -/
def Obligations.NoDriverTickBeforeRegistration : Prop :=
  ∀ (s : State) (pre post : List Request) (q : Request), s.DriversHeed → s.inbox = pre ++ q :: post →
    (s.arch.tdrv = false → q.agent = .timerDriver → decode s.cfg q.raw = .ok .ttick →
      ∃ p ∈ pre, ∃ i, decode s.cfg p.raw = .ok i ∧ (i = .restore ∨ ∃ n, i = .tdrvOn n)) ∧
    (s.arch.rdrv = false → q.agent = .refreshDriver → decode s.cfg q.raw = .ok .rtick →
      ∃ p ∈ pre, ∃ i, decode s.cfg p.raw = .ok i ∧ (i = .restore ∨ i = .rdrvOn))

/-! ## Whole-machine rules -/

/-- A read-type operation completes in every state and leaves the state as it was, but for the result it returns
(20_memory.md R85, the spec's own decision D32, log 21; the result port is log 2). -/
def Obligations.ReadsChangeNoState : Prop :=
  ∀ (i : Instr) (s : State), isRead i = true → ∃ r, exec i s = .next { s with result := r }

/-- The frame of every write access of a bus, a port or a register row, which completes in every state: it returns
nothing; the configuration, the waiting requests, the drivers' flags and the hidden fields no port reaches stay; a video
register changes only if a slot of the access selects it, or if it is `INTPND` and the access writes `INTCLR`; a
peripheral register or timer field changes only if the access reaches its register; a byte of memory changes only if
the access stores it (20_memory.md section 6, 40_bus_ops.md sections 2 to 5). Which slots an access touches is the
spec's own decisions D10, D11 and D28, and which registers discard writes is in part D14, D15 and D17 (log 21). -/
def Obligations.WriteFrame : Prop :=
  ∀ (i : Instr) (s : State), s.Inv → isWrite i = true → ∃ a : Arch,
    exec i s = .next { s with arch := a, result := .none } ∧
    a.tdrv = s.arch.tdrv ∧ a.rdrv = s.arch.rdrv ∧ a.vid.fcnt = s.arch.vid.fcnt ∧ a.per.tWord = s.arch.per.tWord ∧
    (∀ x, x ∉ writesVideo s.cfg i → (x = .intpnd → VReg.intclr ∉ writesVideo s.cfg i) →
      vread s.cfg a.vid x = vread s.cfg s.arch.vid x) ∧
    (PReg.ccr ∉ writesPeriph s.cfg i → a.per.ccr = s.arch.per.ccr) ∧
    (PReg.ccsr ∉ writesPeriph s.cfg i → a.per.ccsr = s.arch.per.ccsr) ∧
    (PReg.scr ∉ writesPeriph s.cfg i → a.per.scr = s.arch.per.scr) ∧
    (PReg.wcr ∉ writesPeriph s.cfg i → a.per.wcr = s.arch.per.wcr) ∧
    (PReg.cdtr ∉ writesPeriph s.cfg i → a.per.cdtr = s.arch.per.cdtr ∧ a.txq = s.arch.txq) ∧
    a.per.cdrr = s.arch.per.cdrr ∧ a.per.slb = s.arch.per.slb ∧ a.per.shb = s.arch.per.shb ∧
    (PReg.tlb ∉ writesPeriph s.cfg i → PReg.thb ∉ writesPeriph s.cfg i → a.per.tStage = s.arch.per.tStage) ∧
    (PReg.tcr ∉ writesPeriph s.cfg i → a.per.tEnb = s.arch.per.tEnb ∧ a.per.zStat = s.arch.per.zStat ∧
      a.per.zInt = s.arch.per.zInt ∧ a.per.tAuto = s.arch.per.tAuto ∧ a.per.tCount = s.arch.per.tCount ∧
      a.per.tReset = s.arch.per.tReset) ∧
    ∀ r k, ¬ storesAt s.cfg i r k → readCell (a.mem.store r) k = readCell (s.arch.mem.store r) k

/-- `IRQ` can change only by a write that addresses `INTENB`, `INTCLR` or `TCR`, and by `TTICK`, `RTICK`, `VRAISE`,
`RESET` and `RESTORE` (60_exceptions.md section 1). That there is no serial or communication source is the spec's own
decision D36 and an assumption of the model (DEDUCED, unsafe, log 17): of a chip with such a source the statement is
false. -/
def Obligations.IrqChangesOnlyByListedOperations : Prop :=
  ∀ (i : Instr) (s t : State), exec i s = .next t →
    VReg.intenb ∉ writesVideo s.cfg i → VReg.intclr ∉ writesVideo s.cfg i → PReg.tcr ∉ writesPeriph s.cfg i →
    i ≠ .ttick → i ≠ .rtick → (∀ m, i ≠ .vraise m) → i ≠ .reset → i ≠ .restore →
      t.arch.irq = s.arch.irq

/-- A pending bit, once set, stays set until a write addresses its acknowledge register, `INTCLR` or `TCR`, or `RESET` or
`RESTORE` replaces the state (60_exceptions.md section 2). That a write of `INTPND` clears nothing is the spec's own
decision D14, and that the timer's acknowledge bit is in `TCR` is D19 (log 21). -/
def Obligations.PendingBitsAreSticky : Prop :=
  ∀ (i : Instr) (s t : State), exec i s = .next t → i ≠ .reset → i ≠ .restore →
    (VReg.intclr ∉ writesVideo s.cfg i → ∀ k, s.arch.vid.intpnd.getLsbD k = true → t.arch.vid.intpnd.getLsbD k = true) ∧
    (PReg.tcr ∉ writesPeriph s.cfg i → s.arch.per.zStat = true → t.arch.per.zStat = true)

/-- No bus, port or register access sets a pending flag, and no sideband input but `VRAISE` does: only `RTICK` and
`VRAISE` set bits of `INTPND`, only `TTICK` sets `Z_STAT`, `RESET` and `RESTORE` apart (10_state.md section 2,
60_exceptions.md R323). That `SERRX`, `COMRX` and `PSTAT` set none is the spec's own decision D36 and an assumption of
the model (DEDUCED, unsafe, log 17), and that bus writes of `INTPND` and `Z_STAT` set none is D14 and D19 (log 21). -/
def Obligations.PendingFlagsAreSetOnlyByTheirSources : Prop :=
  ∀ (i : Instr) (s t : State), exec i s = .next t → i ≠ .reset → i ≠ .restore →
    (i ≠ .rtick → (∀ m, i ≠ .vraise m) →
      ∀ k, t.arch.vid.intpnd.getLsbD k = true → s.arch.vid.intpnd.getLsbD k = true) ∧
    (i ≠ .ttick → t.arch.per.zStat = true → s.arch.per.zStat = true)

/-- The timer starts, stops, reloads and counts only by a write of `TCR`, by `TTICK`, and by `RESET` and `RESTORE`
(43_timer_engine.md section 1, 42_periph_regs.md section 4). That no write of `TLB` or `THB` commits the staged value is
R240, the spec's own decision D20, and that `T_RESET` changes only so is R280, its decision D23 (log 21). -/
def Obligations.TimerChangesOnlyByItsOperations : Prop :=
  ∀ (i : Instr) (s t : State), exec i s = .next t → PReg.tcr ∉ writesPeriph s.cfg i →
    i ≠ .ttick → i ≠ .reset → i ≠ .restore →
      t.arch.per.tEnb = s.arch.per.tEnb ∧ t.arch.per.tCount = s.arch.per.tCount ∧
      t.arch.per.tReset = s.arch.per.tReset ∧ t.arch.per.tAuto = s.arch.per.tAuto ∧ t.arch.per.zInt = s.arch.per.zInt

/-- `TXQ` is the history of the bytes written to `CDTR`: an operation appends one byte when it writes `CDTR` and otherwise
leaves it, `RESET` and `RESTORE` apart (10_state.md R57 and 42_periph_regs.md R228, the spec's own decision D26,
log 21). -/
def Obligations.TransmitQueueOnlyGrows : Prop :=
  ∀ (i : Instr) (s t : State), exec i s = .next t → i ≠ .reset → i ≠ .restore →
    (PReg.cdtr ∉ writesPeriph s.cfg i ∧ t.arch.txq = s.arch.txq) ∨
    (PReg.cdtr ∈ writesPeriph s.cfg i ∧ t.arch.txq = s.arch.txq ++ [t.arch.per.cdtr])

/-- Only bus writes change memory and none changes ROM, `RESET` and `RESTORE` apart (10_state.md section 4, 20_memory.md
section 7). That no display or audio unit writes VRAM or ARAM is an assumption (20_memory.md R97, 91_not_in_source.md
N20; DEDUCED, unsafe, log 16): of a chip with such a writer the statement is false. -/
def Obligations.OnlyBusWritesChangeMemory : Prop :=
  ∀ (i : Instr) (s t : State), s.cfg.Wf → exec i s = .next t → i ≠ .reset → i ≠ .restore →
    t.arch.mem.rom = s.arch.mem.rom ∧
    ((∀ a d, i ≠ .wrB a d) → (∀ a d, i ≠ .wrH a d) → (∀ a d, i ≠ .wrW a d) → t.arch.mem = s.arch.mem)

/-- A write repeated with no operation between gives the same state as writing once, unless it appends to `TXQ`
(20_memory.md section 6; that a write of `CDTR` appends is the spec's own decision D26, log 21). -/
def Obligations.RepeatedWritesAreIdempotent : Prop :=
  ∀ (i : Instr) (s t : State), s.Inv → isWrite i = true → exec i s = .next t → t.arch.txq = s.arch.txq →
    exec i t = .next t

/-- The inert hidden fields `T_WORD` and `T_RESET` and the flags `TDRV` and `RDRV` gate no rule: two states that differ
only in them give the same result and, those fields apart, the same next state (10_state.md section 7). That no rule
reads `T_WORD` and `T_RESET` is R55 and R56, the spec's own decision D23, and that `TDRV` and `RDRV` gate none is R58,
its decision D30 (log 21). `SNAP` returns them, so it is left out. -/
def Obligations.InertFieldsGateNothing : Prop :=
  ∀ (i : Instr) (s t : State) (w : Word) (r td rd : Bool), i ≠ .snap → exec i s = .next t →
    ∃ (w' : Word) (r' td' rd' : Bool),
      exec i { s with arch := { s.arch with per := { s.arch.per with tWord := w, tReset := r }, tdrv := td, rdrv := rd } } =
        .next { t with arch :=
          { t.arch with per := { t.arch.per with tWord := w', tReset := r' }, tdrv := td', rdrv := rd' } }

/-- The result of a read-type operation other than `SNAP` is the same whatever `FCNT`, `T_STAGE`, `T_WORD`, `T_RESET`,
`CDTR`, `TXQ`, `TDRV` and `RDRV` hold. `FCNT`, `T_STAGE`, `T_WORD`, `T_RESET` and `TXQ` have no offset
(41_video_regs.md section 5, 42_periph_regs.md section 6), and `TDRV` and `RDRV` are environment state (10_state.md
section 7, R58, the spec's own decision D30, log 21). `CDTR` has an offset: that its read returns `0x00` and not the byte
written is 42_periph_regs.md R226, its decision D13 (log 21). -/
def Obligations.HiddenFieldsCannotBeRead : Prop :=
  ∀ (i : Instr) (s t : State) (f st : Half) (w : Word) (r td rd : Bool) (cd : Byte) (q : List Byte),
    isRead i = true → i ≠ .snap → exec i s = .next t →
    let s' : State := { s with arch := { s.arch with
      vid := { s.arch.vid with fcnt := f }
      per := { s.arch.per with tStage := st, tWord := w, tReset := r, cdtr := cd }
      txq := q
      tdrv := td
      rdrv := rd } }
    exec i s' = .next { s' with result := t.result }

/-- 60_exceptions.md R336: what a step does is the same whichever agent issued the operation. -/
def Obligations.AgentsHaveEqualRights : Prop :=
  ∀ (s : State) (q : Request) (agent : Agent) (rest : List Request), s.inbox = q :: rest →
    step { s with inbox := { q with agent := agent } :: rest } = step s
end

