-- ==== Sys2Proof/Laws/Memory.lean ====
section
/-! SUPPORT. The laws of the byte stores: a read after a write, the canonical form, the length, and that canonical
stores with equal bytes are equal. -/

namespace Sys2Proof.Laws

open Sys2Proof Sys2Proof.Machine

/-- A canonical store continues with a canonical store. -/
theorem canon_tail {x : Host.Cell} {m : ByteStore} (h : ByteStore.Canon (x :: m)) : ByteStore.Canon m :=
  ⟨(List.pairwise_cons.mp h.1).2, fun c hc => h.2 c (List.mem_cons_of_mem x hc)⟩

/-- The first offset of a canonical store is the lowest. -/
theorem canon_head_lt {x : Host.Cell} {m : ByteStore} (h : ByteStore.Canon (x :: m)) : ∀ c ∈ m, x.1 < c.1 :=
  (List.pairwise_cons.mp h.1).1

/-- An offset that no entry has reads as the unlisted byte. -/
theorem readCell_of_absent {m : ByteStore} {k : Nat} (h : ∀ c ∈ m, c.1 ≠ k) : readCell m k = unlistedByte := by
  induction m with
  | nil => rfl
  | cons x t ih =>
    obtain ⟨j, b⟩ := x
    have hj : j ≠ k := h (j, b) List.mem_cons_self
    simpa [readCell, hj] using ih fun c hc => h c (List.mem_cons_of_mem _ hc)

theorem readCell_consCell_same {m : ByteStore} {k : Nat} {b : Byte} (h : ∀ c ∈ m, c.1 ≠ k) :
    readCell (consCell k b m) k = b := by
  unfold consCell
  split
  · next hb => rw [readCell_of_absent h, hb]
  · simp [readCell]

theorem readCell_consCell_other {m : ByteStore} {k k' : Nat} {b : Byte} (h : k' ≠ k) :
    readCell (consCell k b m) k' = readCell m k' := by
  unfold consCell
  split
  · rfl
  · simp [readCell, Ne.symm h]

/-- A read after a write to the same offset gives the byte written. -/
theorem readCell_writeCell_same {m : ByteStore} (k : Nat) (b : Byte) (h : m.Canon) :
    readCell (writeCell m k b) k = b := by
  induction m with
  | nil => exact readCell_consCell_same (by simp)
  | cons x t ih =>
    obtain ⟨j, c⟩ := x
    have hlt := canon_head_lt h
    simp only [writeCell]
    split
    · next hk =>
      refine readCell_consCell_same fun d hd => ?_
      rcases List.mem_cons.mp hd with rfl | hd
      · exact Nat.ne_of_gt hk
      · exact Nat.ne_of_gt (Nat.lt_trans hk (hlt d hd))
    · split
      · next hkj => exact readCell_consCell_same fun d hd => Nat.ne_of_gt (hkj ▸ hlt d hd)
      · next hkj => simpa [readCell, Ne.symm hkj] using ih (canon_tail h)

/-- A write leaves every other offset alone. -/
theorem readCell_writeCell_other (m : ByteStore) {k k' : Nat} (b : Byte) (hk : k' ≠ k) :
    readCell (writeCell m k b) k' = readCell m k' := by
  induction m with
  | nil => exact readCell_consCell_other hk
  | cons x t ih =>
    obtain ⟨j, c⟩ := x
    simp only [writeCell]
    split
    · exact readCell_consCell_other hk
    · split
      · next hkj => rw [readCell_consCell_other hk]; simp [readCell, hkj ▸ Ne.symm hk]
      · simp only [readCell, ih]

/-- Every entry of a store after a write is the one written or was there before. -/
theorem mem_writeCell {m : ByteStore} {k : Nat} {b : Byte} {c : Host.Cell} (h : c ∈ writeCell m k b) :
    c = (k, b) ∧ b ≠ unlistedByte ∨ c ∈ m := by
  have hcons : ∀ {t : ByteStore}, c ∈ consCell k b t → c = (k, b) ∧ b ≠ unlistedByte ∨ c ∈ t := by
    intro t ht
    unfold consCell at ht
    split at ht
    · exact .inr ht
    · next hb => exact (List.mem_cons.mp ht).imp (fun h => ⟨h, hb⟩) id
  induction m with
  | nil => exact hcons h
  | cons x t ih =>
    obtain ⟨j, d⟩ := x
    simp only [writeCell] at h
    split at h
    · exact hcons h
    · split at h
      · exact (hcons h).imp id (List.mem_cons_of_mem _)
      · rcases List.mem_cons.mp h with rfl | h
        · exact .inr List.mem_cons_self
        · exact (ih h).imp id (List.mem_cons_of_mem _)

theorem canon_consCell {m : ByteStore} {k : Nat} {b : Byte} (h : m.Canon) (hk : ∀ c ∈ m, k < c.1) :
    (consCell k b m).Canon := by
  unfold consCell
  split
  · exact h
  · next hb =>
    refine ⟨List.pairwise_cons.mpr ⟨hk, h.1⟩, fun c hc => ?_⟩
    rcases List.mem_cons.mp hc with rfl | hc
    · exact hb
    · exact h.2 c hc

/-- A write keeps the canonical form. -/
theorem canon_writeCell {m : ByteStore} (k : Nat) (b : Byte) (h : m.Canon) : (writeCell m k b).Canon := by
  induction m with
  | nil => exact canon_consCell h (by simp)
  | cons x t ih =>
    obtain ⟨j, c⟩ := x
    have hlt := canon_head_lt h
    simp only [writeCell]
    split
    · next hk =>
      refine canon_consCell h fun d hd => ?_
      rcases List.mem_cons.mp hd with rfl | hd
      · exact hk
      · exact Nat.lt_trans hk (hlt d hd)
    · split
      · next hkj => exact canon_consCell (canon_tail h) fun d hd => hkj ▸ hlt d hd
      · next hk hkj =>
        have hi := ih (canon_tail h)
        refine ⟨List.pairwise_cons.mpr ⟨fun d hd => ?_, hi.1⟩, fun d hd => ?_⟩
        · rcases mem_writeCell hd with ⟨rfl, _⟩ | hd
          · exact Nat.lt_of_le_of_ne (Nat.le_of_not_lt hk) (Ne.symm hkj)
          · exact hlt d hd
        · rcases List.mem_cons.mp hd with rfl | hd
          · exact h.2 _ List.mem_cons_self
          · exact hi.2 d hd

/-- A write inside the array keeps its length. -/
theorem hasLength_writeCell {m : ByteStore} {n : Nat} (k : Nat) (b : Byte) (h : m.HasLength n) (hk : k < n) :
    (writeCell m k b).HasLength n :=
  ⟨canon_writeCell k b h.1, fun c hc => by
    rcases mem_writeCell hc with ⟨rfl, _⟩ | hc
    · exact hk
    · exact h.2 c hc⟩

/-- Canonical stores that hold the same bytes are the same list. -/
theorem canon_ext {m m' : ByteStore} (h : m.Canon) (h' : m'.Canon) (e : ∀ k, readCell m k = readCell m' k) :
    m = m' := by
  have absent : ∀ {x : Host.Cell} {t : ByteStore}, ByteStore.Canon (x :: t) → ∀ k, k ≤ x.1 → readCell t k = unlistedByte :=
    fun hx k hk => readCell_of_absent fun c hc => Nat.ne_of_gt (Nat.lt_of_le_of_lt hk (canon_head_lt hx c hc))
  induction m generalizing m' with
  | nil =>
    cases m' with
    | nil => rfl
    | cons y u =>
      obtain ⟨i, d⟩ := y
      exact absurd (by simpa [readCell] using (e i).symm) (h'.2 (i, d) List.mem_cons_self)
  | cons x t ih =>
    obtain ⟨j, c⟩ := x
    cases m' with
    | nil => exact absurd (by simpa [readCell] using e j) (h.2 (j, c) List.mem_cons_self)
    | cons y u =>
      obtain ⟨i, d⟩ := y
      have hc := h.2 (j, c) List.mem_cons_self
      have hd := h'.2 (i, d) List.mem_cons_self
      have hji : j = i := by
        rcases Nat.lt_trichotomy j i with hlt | heq | hlt
        · have := e j
          rw [readCell, if_pos rfl, readCell, if_neg (Nat.ne_of_gt hlt), absent h' j (Nat.le_of_lt hlt)] at this
          exact absurd this hc
        · exact heq
        · have := e i
          rw [readCell, readCell, if_pos rfl, if_neg (Nat.ne_of_gt hlt), absent h i (Nat.le_of_lt hlt)] at this
          exact absurd this.symm hd
      subst hji
      have hcd : c = d := by simpa [readCell] using e j
      subst hcd
      refine congrArg _ (ih (canon_tail h) (canon_tail h') fun k => ?_)
      by_cases hk : j = k
      · subst hk; rw [absent h j (Nat.le_refl j), absent h' j (Nat.le_refl j)]
      · simpa [readCell, hk] using e k

/-- A store that already holds the byte is not changed by writing it. -/
theorem writeCell_of_read {m : ByteStore} {k : Nat} {b : Byte} (h : m.Canon) (hb : readCell m k = b) :
    writeCell m k b = m :=
  canon_ext (canon_writeCell k b h) h fun k' => by
    by_cases hk : k' = k
    · subst hk; rw [readCell_writeCell_same _ _ h, hb]
    · exact readCell_writeCell_other m b hk

/-! ## The bytes of an access -/

/-- The lanes of an access are below its size, and there are no others. -/
theorem mem_lanes {sz : Size} {i : Nat} : i ∈ sz.lanes ↔ i < sz.bytes := by
  cases sz <;> simp [Size.lanes, Size.bytes] <;> omega

theorem nodup_lanes (sz : Size) : sz.lanes.Nodup := by cases sz <;> decide

theorem bytes_pos (sz : Size) : 0 < sz.bytes := by cases sz <;> decide

theorem bytes_le_four (sz : Size) : sz.bytes ≤ 4 := by cases sz <;> decide

/-- Distinct lanes of an access have distinct backing offsets, in a store of at least four bytes. -/
theorem backOffset_inj {c : Config} {r : Region} {off i j : Nat} (hb : 4 ≤ (c.win r).backSize) (hi : i < 4) (hj : j < 4)
    (h : backOffset c r off i = backOffset c r off j) : i = j := by
  unfold backOffset at h
  generalize hn : (c.win r).backSize = n at hb h
  have key : ∀ {x y : Nat}, x < y → y < 4 → (off + x) % n = (off + y) % n → False := by
    intro x y hxy hy he
    have hd : n ∣ (off + y) - (off + x) := (Nat.modEq_iff_dvd' (by omega)).mp he
    have := Nat.le_of_dvd (by omega) hd
    omega
  rcases Nat.lt_trichotomy i j with hlt | heq | hlt
  · exact (key hlt hj h).elim
  · exact heq
  · exact (key hlt hi h.symm).elim

theorem canon_storeBytes {c : Config} {r : Region} {off : Nat} {v : Word} (is : List Nat) {m : ByteStore} (h : m.Canon) :
    (storeBytes c r off v is m).Canon := by
  induction is generalizing m with
  | nil => exact h
  | cons i t ih => exact ih (canon_writeCell _ _ h)

theorem hasLength_storeBytes {c : Config} {r : Region} {off : Nat} {v : Word} (is : List Nat) {m : ByteStore}
    (hb : 0 < (c.win r).backSize) (h : m.HasLength (c.win r).backSize) :
    (storeBytes c r off v is m).HasLength (c.win r).backSize := by
  induction is generalizing m with
  | nil => exact h
  | cons i t ih => exact ih (hasLength_writeCell _ _ h (Nat.mod_lt _ hb))

/-- Storing bytes leaves every other offset alone. -/
theorem readCell_storeBytes_other {c : Config} {r : Region} {off : Nat} {v : Word} (is : List Nat) (m : ByteStore) {k : Nat}
    (hk : ∀ i ∈ is, k ≠ backOffset c r off i) : readCell (storeBytes c r off v is m) k = readCell m k := by
  induction is generalizing m with
  | nil => rfl
  | cons i t ih =>
    exact (ih _ fun j hj => hk j (List.mem_cons_of_mem _ hj)).trans
      (readCell_writeCell_other m _ (hk i List.mem_cons_self))

/-- Each stored byte is read back at its backing offset. -/
theorem readCell_storeBytes_same {c : Config} {r : Region} {off : Nat} {v : Word} (sz : Size) {m : ByteStore} {i : Nat}
    (hm : m.Canon) (hb : 4 ≤ (c.win r).backSize) (hi : i < sz.bytes) :
    readCell (storeBytes c r off v sz.lanes m) (backOffset c r off i) = byteAt v i := by
  have key : ∀ (is : List Nat), is.Nodup → (∀ j ∈ is, j < 4) → ∀ {m : ByteStore}, m.Canon → i ∈ is →
      readCell (storeBytes c r off v is m) (backOffset c r off i) = byteAt v i := by
    intro is
    induction is with
    | nil => intro _ _ _ _ hmem; cases hmem
    | cons j t ih =>
      intro hnd hlt m hm hmem
      have hnd' := List.nodup_cons.mp hnd
      rcases List.mem_cons.mp hmem with rfl | hmem
      · refine (readCell_storeBytes_other t _ fun l hl he => ?_).trans (readCell_writeCell_same _ _ hm)
        have := backOffset_inj hb (hlt i List.mem_cons_self) (hlt l (List.mem_cons_of_mem _ hl)) he
        exact hnd'.1 (this ▸ hl)
      · exact ih hnd'.2 (fun l hl => hlt l (List.mem_cons_of_mem _ hl)) (canon_writeCell _ _ hm) hmem
  exact key sz.lanes (nodup_lanes sz) (fun j hj => Nat.lt_of_lt_of_le (mem_lanes.mp hj) (bytes_le_four sz)) hm
    (mem_lanes.mpr hi)

/-! ## Whole memories -/

@[simp] theorem store_setStore_same (m : Memory) (r : Region) (b : ByteStore) : (setStore m r b).store r = b := by
  cases r <;> rfl

theorem store_setStore_other (m : Memory) {r r' : Region} (b : ByteStore) (h : r' ≠ r) :
    (setStore m r b).store r' = m.store r' := by
  cases r <;> cases r' <;> first | rfl | exact absurd rfl h

theorem fits_iff {c : Config} {m : Memory} :
    m.Fits c ↔ ∀ r, (m.store r).HasLength (c.win r).backSize :=
  ⟨fun h r => by cases r; exacts [h.1, h.2.1, h.2.2.1, h.2.2.2], fun h => ⟨h .rom, h .wram, h .vram, h .aram⟩⟩

theorem memory_ext_store {m m' : Memory} (h : ∀ r, m.store r = m'.store r) : m = m' := by
  obtain ⟨a, b, c, d⟩ := m
  obtain ⟨a', b', c', d'⟩ := m'
  have h1 : a = a' := h .rom
  have h2 : b = b' := h .wram
  have h3 : c = c' := h .vram
  have h4 : d = d' := h .aram
  subst h1 h2 h3 h4; rfl

/-- Memories whose arrays fit and hold the same bytes are equal. -/
theorem memory_ext_bytes {c : Config} {m m' : Memory} (h : m.Fits c) (h' : m'.Fits c)
    (e : ∀ r k, regionByte m r k = regionByte m' r k) : m = m' :=
  memory_ext_store fun r => canon_ext (fits_iff.mp h r).1 (fits_iff.mp h' r).1 (e r)

/-- A region write keeps the arrays at their lengths. -/
theorem fits_regionWrite {c : Config} {m : Memory} (r : Region) (off : Nat) (sz : Size) (v : Word)
    (hb : 0 < (c.win r).backSize) (h : m.Fits c) : (regionWrite c m r off sz v).Fits c := by
  unfold regionWrite
  split
  · refine fits_iff.mpr fun r' => ?_
    by_cases hr : r' = r
    · subst hr; rw [store_setStore_same]; exact hasLength_storeBytes _ hb (fits_iff.mp h r')
    · rw [store_setStore_other m _ hr]; exact fits_iff.mp h r'
  · exact h

/-- What a region write does to every byte of memory: the bytes of the access, at their backing offsets, take the bytes
of the value, if the region is writable; every other byte stays (20_memory.md R81). -/
theorem regionByte_regionWrite {c : Config} {m : Memory} {r : Region} (off : Nat) (sz : Size) (v : Word)
    (hb : 4 ≤ (c.win r).backSize) (hm : (m.store r).Canon) :
    ((c.win r).writable = true → ∀ i < sz.bytes,
      regionByte (regionWrite c m r off sz v) r (backOffset c r off i) = byteAt v i) ∧
    (∀ r' k, (r' ≠ r ∨ ∀ i < sz.bytes, k ≠ backOffset c r off i) →
      regionByte (regionWrite c m r off sz v) r' k = regionByte m r' k) := by
  unfold regionWrite regionByte
  constructor
  · intro hw i hi
    rw [if_pos hw, store_setStore_same]
    exact readCell_storeBytes_same sz hm hb hi
  · intro r' k hk
    split
    · by_cases hr : r' = r
      · subst hr
        rw [store_setStore_same]
        exact readCell_storeBytes_other _ _ fun i hi =>
          (hk.resolve_left fun hne => hne rfl) i (mem_lanes.mp hi)
      · rw [store_setStore_other m _ hr]
    · rfl

end Sys2Proof.Laws
end

