-- ==== Sys2Proof/Laws/Decoder.lean ====
section
/-! SUPPORT. The laws of the address decoder and of register selection under `WF(CFG)` (20_memory.md R72, R75, R76;
30_encoding.md R120, R122). -/

namespace Sys2Proof.Laws

open Sys2Proof Sys2Proof.Machine

theorem mem_vreg_all (x : VReg) : x ∈ VReg.all := by cases x <;> decide

theorem mem_preg_all (x : PReg) : x ∈ PReg.all := by cases x <;> decide

theorem mem_region_all (r : Region) : r ∈ Region.all := by cases r <;> decide

/-- A search by a key that is distinct on the list finds exactly the element with that key. -/
theorem find_key {α : Type} {l : List α} {f : α → Nat} (hn : (l.map f).Nodup) {o : Nat} {x : α} (hx : x ∈ l) :
    l.find? (fun y => f y == o) = some x ↔ f x = o := by
  constructor
  · intro h; simpa using List.find?_some h
  · intro h
    induction l with
    | nil => cases hx
    | cons y t ih =>
      rw [List.map_cons, List.nodup_cons] at hn
      rcases List.mem_cons.mp hx with rfl | hx
      · simp [h]
      · have hne : f y ≠ o := fun he => hn.1 (List.mem_map.mpr ⟨x, hx, by rw [h, he]⟩)
        simpa [hne] using ih hn.2 hx

/-- A halfword slot selects the register whose offset it is (30_encoding.md R120). -/
theorem vregAt_eq_some {c : Config} (h : c.Wf) {o : Nat} {x : VReg} : c.vregAt o = some x ↔ c.voff x = o :=
  find_key h.2.2.2.2.2.2.2.1 (mem_vreg_all x)

/-- A peripheral slot selects the register whose offset it is (30_encoding.md R122). -/
theorem pregAt_eq_some {c : Config} (h : c.Wf) {o : Nat} {x : PReg} : c.pregAt o = some x ↔ c.poff x = o :=
  find_key h.2.2.2.2.2.2.2.2.2 (mem_preg_all x)

@[simp] theorem vregAt_voff {c : Config} (h : c.Wf) (x : VReg) : c.vregAt (c.voff x) = some x := (vregAt_eq_some h).mpr rfl

@[simp] theorem pregAt_poff {c : Config} (h : c.Wf) (x : PReg) : c.pregAt (c.poff x) = some x := (pregAt_eq_some h).mpr rfl

/-- An offset that no video register has is a hole. -/
theorem vregAt_eq_none {c : Config} {o : Nat} : c.vregAt o = none ↔ ∀ x, c.voff x ≠ o := by
  simp [Config.vregAt, List.find?_eq_none, mem_vreg_all]

/-- An offset that no peripheral register has is a hole. -/
theorem pregAt_eq_none {c : Config} {o : Nat} : c.pregAt o = none ↔ ∀ x, c.poff x ≠ o := by
  simp [Config.pregAt, List.find?_eq_none, mem_preg_all]

theorem voff_lt {c : Config} (h : c.Wf) (x : VReg) : c.voff x < 0x80 := (h.2.2.2.2.2.2.1 x (mem_vreg_all x)).1

theorem voff_even {c : Config} (h : c.Wf) (x : VReg) : c.voff x % 2 = 0 := (h.2.2.2.2.2.2.1 x (mem_vreg_all x)).2

theorem poff_lt {c : Config} (h : c.Wf) (x : PReg) : c.poff x < 0x40 := (h.2.2.2.2.2.2.2.2.1 x (mem_preg_all x)).1

theorem poff_mod {c : Config} (h : c.Wf) (x : PReg) : c.poff x % 4 = 0 := (h.2.2.2.2.2.2.2.2.1 x (mem_preg_all x)).2

/-! ## Windows -/

theorem inWindow_iff {base size a : Nat} : inWindow base size a = true ↔ base ≤ a ∧ a < base + size := by
  simp only [inWindow, Bool.and_eq_true, decide_eq_true_eq]; omega

/-- The base and size of an owner's window; an unmapped address has none. -/
def ownerExtent (c : Config) : Owner → Option (Nat × Nat)
  | .region r => some ((c.win r).base, (c.win r).winSize)
  | .vblk => some (c.vblkBase, vblkSize)
  | .pblk => some (c.pblkBase, pblkSize)
  | .unmapped => none

/-- The owner that the lookup finds has the address in its window (20_memory.md R72). -/
theorem lookup_inside {c : Config} {a : Word} {e : Nat × Nat} (h : ownerExtent c (lookup c a) = some e) :
    e.1 ≤ a.toNat ∧ a.toNat < e.1 + e.2 := by
  unfold lookup at h
  split at h
  · next r hr =>
    have := List.find?_some hr
    cases h
    exact inWindow_iff.mp this
  · split at h
    · next hv => cases h; exact inWindow_iff.mp hv
    · split at h
      · next hp => cases h; exact inWindow_iff.mp hp
      · cases h

/-- An unmapped address is in no window (20_memory.md R72). -/
theorem lookup_unmapped {c : Config} {a : Word} :
    lookup c a = .unmapped ↔ ∀ e ∈ c.extents, ¬ (e.1 ≤ a.toNat ∧ a.toNat < e.1 + e.2) := by
  unfold lookup
  rcases hf : Region.all.find? (fun r => inWindow (c.win r).base (c.win r).winSize a.toNat) with _ | r
  · have hr := List.find?_eq_none.mp hf
    simp only [inWindow_iff] at hr
    have h1 := hr .rom (by decide)
    have h2 := hr .wram (by decide)
    have h3 := hr .vram (by decide)
    have h4 := hr .aram (by decide)
    simp only [Config.win] at h1 h2 h3 h4
    by_cases hv : inWindow c.vblkBase vblkSize a.toNat = true
    · have := inWindow_iff.mp hv
      simp [hv, Config.extents, this]
    · by_cases hp : inWindow c.pblkBase pblkSize a.toNat = true
      · have := inWindow_iff.mp hp
        simp [hv, hp, Config.extents, this]
      · rw [inWindow_iff] at hv hp
        simp only [Config.extents, List.forall_mem_cons, inWindow_iff, hv, hp, h1, h2, h3, h4]
        simp
  · have hb := List.find?_some hf
    have hi := inWindow_iff.mp hb
    simp only [reduceCtorEq, false_iff, not_forall, not_not]
    exact ⟨((c.win r).base, (c.win r).winSize), by cases r <;> simp [Config.extents, Config.win], hi⟩

/-- Two windows that share an address are the same window of the list. -/
theorem pairwise_apart_unique {l : List (Nat × Nat)} (h : l.Pairwise Apart) {i j : Nat} (hi : i < l.length) (hj : j < l.length)
    {a : Nat} (ha : (l[i]).1 ≤ a ∧ a < (l[i]).1 + (l[i]).2) (hb : (l[j]).1 ≤ a ∧ a < (l[j]).1 + (l[j]).2) : i = j := by
  rcases Nat.lt_trichotomy i j with hlt | heq | hlt
  · have := List.pairwise_iff_getElem.mp h i j hi hj hlt
    simp only [Apart] at this; omega
  · exact heq
  · have := List.pairwise_iff_getElem.mp h j i hj hi hlt
    simp only [Apart] at this; omega

/-- The place of an owner in `Config.extents`. -/
def ownerIndex : Owner → Nat
  | .region .rom => 0
  | .region .wram => 1
  | .region .vram => 2
  | .region .aram => 3
  | .vblk => 4
  | .pblk => 5
  | .unmapped => 6

theorem extents_ownerIndex {c : Config} {w : Owner} {e : Nat × Nat} (h : ownerExtent c w = some e) :
    c.extents[ownerIndex w]? = some e := by
  rcases w with r | _ | _ | _
  · cases r <;> simpa [ownerExtent, Config.extents, ownerIndex, Config.win] using h
  · simpa [ownerExtent, Config.extents, ownerIndex] using h
  · simpa [ownerExtent, Config.extents, ownerIndex] using h
  · simp [ownerExtent] at h

theorem ownerIndex_inj {w w' : Owner} (h : ownerIndex w = ownerIndex w') : w = w' := by
  rcases w with r | _ | _ | _ <;> rcases w' with r' | _ | _ | _ <;>
    first
      | rfl
      | (cases r <;> first | (cases r' <;> first | rfl | simp [ownerIndex] at h) | simp [ownerIndex] at h)
      | (cases r' <;> simp [ownerIndex] at h)
      | simp [ownerIndex] at h

/-- Under `WF(CFG)` the lookup finds a window exactly when the address lies in it (20_memory.md R72). -/
theorem lookup_eq_iff {c : Config} (h : c.Wf) {a : Word} {w : Owner} {e : Nat × Nat} (he : ownerExtent c w = some e) :
    lookup c a = w ↔ e.1 ≤ a.toNat ∧ a.toNat < e.1 + e.2 := by
  constructor
  · rintro rfl; exact lookup_inside he
  · intro hin
    have hw := extents_ownerIndex he
    rcases hl : ownerExtent c (lookup c a) with _ | e'
    · have hu : lookup c a = .unmapped := by
        rcases hq : lookup c a with r | _ | _ | _ <;> rw [hq] at hl <;> first | rfl | (simp [ownerExtent] at hl)
      exact absurd hin (lookup_unmapped.mp hu e (List.mem_of_getElem? hw))
    · have hw' := extents_ownerIndex hl
      have hin' := lookup_inside hl
      obtain ⟨hi, hie⟩ := List.getElem?_eq_some_iff.mp hw
      obtain ⟨hj, hje⟩ := List.getElem?_eq_some_iff.mp hw'
      subst hie hje
      exact ownerIndex_inj (pairwise_apart_unique h.1 hj hi hin' hin)

theorem extent_mem {c : Config} {w : Owner} {e : Nat × Nat} (he : ownerExtent c w = some e) : e ∈ c.extents :=
  List.mem_of_getElem? (extents_ownerIndex he)

/-- A window starts and ends on a multiple of four (00_scope.md R9 (c)). -/
theorem extent_aligned {c : Config} (h : c.Wf) {w : Owner} {e : Nat × Nat} (he : ownerExtent c w = some e) :
    e.1 % 4 = 0 ∧ e.2 % 4 = 0 := h.2.2.1.1 e (extent_mem he)

theorem backSize_ge {c : Config} (h : c.Wf) (r : Region) : 4 ≤ (c.win r).backSize :=
  (h.2.2.2.1 r (mem_region_all r)).1

theorem backSize_le {c : Config} (h : c.Wf) (r : Region) : (c.win r).backSize ≤ (c.win r).winSize :=
  (h.2.2.2.1 r (mem_region_all r)).2

theorem backSize_mod {c : Config} (h : c.Wf) (r : Region) : (c.win r).backSize % 4 = 0 :=
  h.2.2.1.2 r (mem_region_all r)

/-! ## Alignment -/

theorem align_toNat (sz : Size) (a : Word) : (align sz a).toNat = a.toNat / sz.bytes * sz.bytes := by
  have key : ∀ (k : Nat), k ≤ 2 → (a &&& ~~~(BitVec.ofNat 32 (2 ^ k - 1))).toNat = a.toNat / 2 ^ k * 2 ^ k := by
    intro k hk
    have : a &&& ~~~(BitVec.ofNat 32 (2 ^ k - 1)) = (a >>> k) <<< k := by
      apply BitVec.eq_of_getLsbD_eq
      intro i hi
      simp only [BitVec.getLsbD_and, BitVec.getLsbD_not, BitVec.getLsbD_ofNat, Nat.testBit_two_pow_sub_one,
        BitVec.getLsbD_shiftLeft, BitVec.getLsbD_ushiftRight]
      by_cases hik : i < k
      · simp [hi, hik]
      · simp [hi, hik, Nat.add_sub_cancel' (Nat.le_of_not_lt hik)]
    rw [this, BitVec.toNat_shiftLeft, BitVec.toNat_ushiftRight, Nat.shiftRight_eq_div_pow, Nat.shiftLeft_eq,
      Nat.mod_eq_of_lt]
    have := Nat.div_mul_le_self a.toNat (2 ^ k)
    omega
  cases sz
  · simpa [align, Size.bytes] using key 0 (by omega)
  · simpa [align, Size.bytes] using key 1 (by omega)
  · simpa [align, Size.bytes] using key 2 (by omega)

/-- The aligned address lies at most three bytes below the address. -/
theorem align_bounds (sz : Size) (a : Word) :
    (align sz a).toNat ≤ a.toNat ∧ a.toNat < (align sz a).toNat + sz.bytes ∧ (align sz a).toNat % sz.bytes = 0 := by
  rw [align_toNat]
  have hb := bytes_pos sz
  refine ⟨Nat.div_mul_le_self _ _, ?_, Nat.mul_mod_left _ _⟩
  have := Nat.div_add_mod a.toNat sz.bytes
  have hm := Nat.mod_lt a.toNat hb
  rw [Nat.mul_comm] at this
  omega

/-- Every byte of the aligned access lies in the window of the address (20_memory.md R76, R77). -/
theorem aligned_inside {c : Config} (h : c.Wf) {a : Word} {w : Owner} {e : Nat × Nat} (he : ownerExtent c w = some e)
    (sz : Size) (hin : e.1 ≤ a.toNat ∧ a.toNat < e.1 + e.2) :
    e.1 ≤ (align sz a).toNat ∧ (align sz a).toNat + sz.bytes ≤ e.1 + e.2 := by
  obtain ⟨h1, h2⟩ := extent_aligned h he
  obtain ⟨h3, h4, h5⟩ := align_bounds sz a
  cases sz <;> simp only [Size.bytes] at h3 h4 h5 ⊢ <;> omega

/-- Looking up before or after aligning gives the same owner (20_memory.md R76). -/
theorem lookup_align {c : Config} (h : c.Wf) (sz : Size) (a : Word) : lookup c (align sz a) = lookup c a := by
  rcases he : ownerExtent c (lookup c a) with _ | e
  · have hu : lookup c a = .unmapped := by
      rcases hq : lookup c a with r | _ | _ | _ <;> rw [hq] at he <;> first | rfl | (simp [ownerExtent] at he)
    rw [hu]
    by_contra hne
    rcases he' : ownerExtent c (lookup c (align sz a)) with _ | e'
    · rcases hq : lookup c (align sz a) with r | _ | _ | _ <;> rw [hq] at he' hne <;>
        first | exact hne rfl | (simp [ownerExtent] at he')
    · obtain ⟨h1, h2⟩ := lookup_inside he'
      obtain ⟨h3, h4⟩ := extent_aligned h he'
      obtain ⟨h5, h6, h7⟩ := align_bounds sz a
      refine lookup_unmapped.mp hu e' (extent_mem he') ?_
      cases sz <;> simp only [Size.bytes] at h5 h6 h7 <;> omega
  · have hin := lookup_inside he
    refine (lookup_eq_iff h he).mpr ?_
    have := aligned_inside h he sz hin
    have hb := bytes_pos sz
    omega

end Sys2Proof.Laws
end

