-- ==== Sys2Proof/Laws/State.lean ====
section
/-! SUPPORT. One lemma a field for each named update of the state, true by definition. -/

namespace Sys2Proof.Laws

open Sys2Proof Sys2Proof.Machine

/-! ## The state -/

@[simp] theorem put_cfg (s : State) (a : Arch) (r : Result) : (s.put a r).cfg = s.cfg := rfl
@[simp] theorem put_arch (s : State) (a : Arch) (r : Result) : (s.put a r).arch = a := rfl
@[simp] theorem put_inbox (s : State) (a : Arch) (r : Result) : (s.put a r).inbox = s.inbox := rfl
@[simp] theorem put_snapIn (s : State) (a : Arch) (r : Result) : (s.put a r).snapIn = s.snapIn := rfl
@[simp] theorem put_result (s : State) (a : Arch) (r : Result) : (s.put a r).result = r := rfl

@[simp] theorem accept_cfg (s : State) (q : Request) (rest : List Request) : (s.accept q rest).cfg = s.cfg := rfl
@[simp] theorem accept_arch (s : State) (q : Request) (rest : List Request) : (s.accept q rest).arch = s.arch := rfl
@[simp] theorem accept_inbox (s : State) (q : Request) (rest : List Request) : (s.accept q rest).inbox = rest := rfl
@[simp] theorem accept_snapIn (s : State) (q : Request) (rest : List Request) : (s.accept q rest).snapIn = q.snap := rfl
@[simp] theorem accept_result (s : State) (q : Request) (rest : List Request) : (s.accept q rest).result = s.result := rfl

/-- An operation that answers has the next state it puts. -/
theorem answer_eq (s : State) (a : Arch) (r : Result) : s.answer a r = .next (s.put a r) := rfl

/-- An answer is a next state exactly when it is the state put. -/
@[simp] theorem answer_eq_next {s t : State} {a : Arch} {r : Result} : s.answer a r = .next t ↔ s.put a r = t := by
  rw [answer_eq]; exact ⟨fun h => by injection h, fun h => by rw [h]⟩

@[simp] theorem withFetchWord_cfg (s : State) (n w : Nat) : (s.withFetchWord n w).cfg = s.cfg := rfl
@[simp] theorem withFetchWord_arch (s : State) (n w : Nat) : (s.withFetchWord n w).arch = s.arch := rfl
@[simp] theorem withFetchWord_snapIn (s : State) (n w : Nat) : (s.withFetchWord n w).snapIn = s.snapIn := rfl
@[simp] theorem withFetchWord_result (s : State) (n w : Nat) : (s.withFetchWord n w).result = s.result := rfl

@[simp] theorem withFetchWord_inbox (s : State) (n w : Nat) :
    (s.withFetchWord n w).inbox = ⟨.host, Raw.ofTable s.cfg n w, some s.arch⟩ :: s.inbox := rfl

/-! ## Pending bits -/

@[simp] theorem raisePending_intpnd (m : Half) (v : VideoRegs) : (raisePending m v).intpnd = v.intpnd ||| m := rfl
@[simp] theorem raisePending_intenb (m : Half) (v : VideoRegs) : (raisePending m v).intenb = v.intenb := rfl
@[simp] theorem raisePending_dpstts (m : Half) (v : VideoRegs) : (raisePending m v).dpstts = v.dpstts := rfl
@[simp] theorem raisePending_dpctrl (m : Half) (v : VideoRegs) : (raisePending m v).dpctrl = v.dpctrl := rfl
@[simp] theorem raisePending_brta (m : Half) (v : VideoRegs) : (raisePending m v).brta = v.brta := rfl
@[simp] theorem raisePending_brtb (m : Half) (v : VideoRegs) : (raisePending m v).brtb = v.brtb := rfl
@[simp] theorem raisePending_brtc (m : Half) (v : VideoRegs) : (raisePending m v).brtc = v.brtc := rfl
@[simp] theorem raisePending_rest (m : Half) (v : VideoRegs) : (raisePending m v).rest = v.rest := rfl
@[simp] theorem raisePending_frmcyc (m : Half) (v : VideoRegs) : (raisePending m v).frmcyc = v.frmcyc := rfl
@[simp] theorem raisePending_cta (m : Half) (v : VideoRegs) : (raisePending m v).cta = v.cta := rfl
@[simp] theorem raisePending_splt0 (m : Half) (v : VideoRegs) : (raisePending m v).splt0 = v.splt0 := rfl
@[simp] theorem raisePending_splt1 (m : Half) (v : VideoRegs) : (raisePending m v).splt1 = v.splt1 := rfl
@[simp] theorem raisePending_splt2 (m : Half) (v : VideoRegs) : (raisePending m v).splt2 = v.splt2 := rfl
@[simp] theorem raisePending_splt3 (m : Half) (v : VideoRegs) : (raisePending m v).splt3 = v.splt3 := rfl
@[simp] theorem raisePending_oplt0 (m : Half) (v : VideoRegs) : (raisePending m v).oplt0 = v.oplt0 := rfl
@[simp] theorem raisePending_oplt1 (m : Half) (v : VideoRegs) : (raisePending m v).oplt1 = v.oplt1 := rfl
@[simp] theorem raisePending_oplt2 (m : Half) (v : VideoRegs) : (raisePending m v).oplt2 = v.oplt2 := rfl
@[simp] theorem raisePending_oplt3 (m : Half) (v : VideoRegs) : (raisePending m v).oplt3 = v.oplt3 := rfl
@[simp] theorem raisePending_bkcol (m : Half) (v : VideoRegs) : (raisePending m v).bkcol = v.bkcol := rfl
@[simp] theorem raisePending_fcnt (m : Half) (v : VideoRegs) : (raisePending m v).fcnt = v.fcnt := rfl

@[simp] theorem clearPending_intpnd (m : Half) (v : VideoRegs) : (clearPending m v).intpnd = v.intpnd &&& ~~~m := rfl
@[simp] theorem clearPending_intenb (m : Half) (v : VideoRegs) : (clearPending m v).intenb = v.intenb := rfl
@[simp] theorem clearPending_dpstts (m : Half) (v : VideoRegs) : (clearPending m v).dpstts = v.dpstts := rfl
@[simp] theorem clearPending_dpctrl (m : Half) (v : VideoRegs) : (clearPending m v).dpctrl = v.dpctrl := rfl
@[simp] theorem clearPending_brta (m : Half) (v : VideoRegs) : (clearPending m v).brta = v.brta := rfl
@[simp] theorem clearPending_brtb (m : Half) (v : VideoRegs) : (clearPending m v).brtb = v.brtb := rfl
@[simp] theorem clearPending_brtc (m : Half) (v : VideoRegs) : (clearPending m v).brtc = v.brtc := rfl
@[simp] theorem clearPending_rest (m : Half) (v : VideoRegs) : (clearPending m v).rest = v.rest := rfl
@[simp] theorem clearPending_frmcyc (m : Half) (v : VideoRegs) : (clearPending m v).frmcyc = v.frmcyc := rfl
@[simp] theorem clearPending_cta (m : Half) (v : VideoRegs) : (clearPending m v).cta = v.cta := rfl
@[simp] theorem clearPending_splt0 (m : Half) (v : VideoRegs) : (clearPending m v).splt0 = v.splt0 := rfl
@[simp] theorem clearPending_splt1 (m : Half) (v : VideoRegs) : (clearPending m v).splt1 = v.splt1 := rfl
@[simp] theorem clearPending_splt2 (m : Half) (v : VideoRegs) : (clearPending m v).splt2 = v.splt2 := rfl
@[simp] theorem clearPending_splt3 (m : Half) (v : VideoRegs) : (clearPending m v).splt3 = v.splt3 := rfl
@[simp] theorem clearPending_oplt0 (m : Half) (v : VideoRegs) : (clearPending m v).oplt0 = v.oplt0 := rfl
@[simp] theorem clearPending_oplt1 (m : Half) (v : VideoRegs) : (clearPending m v).oplt1 = v.oplt1 := rfl
@[simp] theorem clearPending_oplt2 (m : Half) (v : VideoRegs) : (clearPending m v).oplt2 = v.oplt2 := rfl
@[simp] theorem clearPending_oplt3 (m : Half) (v : VideoRegs) : (clearPending m v).oplt3 = v.oplt3 := rfl
@[simp] theorem clearPending_bkcol (m : Half) (v : VideoRegs) : (clearPending m v).bkcol = v.bkcol := rfl
@[simp] theorem clearPending_fcnt (m : Half) (v : VideoRegs) : (clearPending m v).fcnt = v.fcnt := rfl

/-! ## TCR -/

@[simp] theorem tcrWrite_scr (t : TcrBits) (v : Byte) (p : PeriphRegs) : (tcrWrite t v p).scr = p.scr := by
  unfold tcrWrite tcrReload tcrStore tcrAck; split <;> split <;> rfl
@[simp] theorem tcrWrite_wcr (t : TcrBits) (v : Byte) (p : PeriphRegs) : (tcrWrite t v p).wcr = p.wcr := by
  unfold tcrWrite tcrReload tcrStore tcrAck; split <;> split <;> rfl
@[simp] theorem tcrWrite_tEnb (t : TcrBits) (v : Byte) (p : PeriphRegs) : (tcrWrite t v p).tEnb = v.getLsbD t.enb := by
  unfold tcrWrite tcrReload tcrStore tcrAck; split <;> split <;> rfl
@[simp] theorem tcrWrite_zStat (t : TcrBits) (v : Byte) (p : PeriphRegs) : (tcrWrite t v p).zStat = (if v.getLsbD t.zclr then false else p.zStat) := by
  unfold tcrWrite tcrReload tcrStore tcrAck; split <;> split <;> rfl
@[simp] theorem tcrWrite_zInt (t : TcrBits) (v : Byte) (p : PeriphRegs) : (tcrWrite t v p).zInt = v.getLsbD t.zint := by
  unfold tcrWrite tcrReload tcrStore tcrAck; split <;> split <;> rfl
@[simp] theorem tcrWrite_tAuto (t : TcrBits) (v : Byte) (p : PeriphRegs) : (tcrWrite t v p).tAuto = v.getLsbD t.auto := by
  unfold tcrWrite tcrReload tcrStore tcrAck; split <;> split <;> rfl
@[simp] theorem tcrWrite_shb (t : TcrBits) (v : Byte) (p : PeriphRegs) : (tcrWrite t v p).shb = p.shb := by
  unfold tcrWrite tcrReload tcrStore tcrAck; split <;> split <;> rfl
@[simp] theorem tcrWrite_slb (t : TcrBits) (v : Byte) (p : PeriphRegs) : (tcrWrite t v p).slb = p.slb := by
  unfold tcrWrite tcrReload tcrStore tcrAck; split <;> split <;> rfl
@[simp] theorem tcrWrite_cdrr (t : TcrBits) (v : Byte) (p : PeriphRegs) : (tcrWrite t v p).cdrr = p.cdrr := by
  unfold tcrWrite tcrReload tcrStore tcrAck; split <;> split <;> rfl
@[simp] theorem tcrWrite_cdtr (t : TcrBits) (v : Byte) (p : PeriphRegs) : (tcrWrite t v p).cdtr = p.cdtr := by
  unfold tcrWrite tcrReload tcrStore tcrAck; split <;> split <;> rfl
@[simp] theorem tcrWrite_ccsr (t : TcrBits) (v : Byte) (p : PeriphRegs) : (tcrWrite t v p).ccsr = p.ccsr := by
  unfold tcrWrite tcrReload tcrStore tcrAck; split <;> split <;> rfl
@[simp] theorem tcrWrite_ccr (t : TcrBits) (v : Byte) (p : PeriphRegs) : (tcrWrite t v p).ccr = p.ccr := by
  unfold tcrWrite tcrReload tcrStore tcrAck; split <;> split <;> rfl
@[simp] theorem tcrWrite_tStage (t : TcrBits) (v : Byte) (p : PeriphRegs) : (tcrWrite t v p).tStage = p.tStage := by
  unfold tcrWrite tcrReload tcrStore tcrAck; split <;> split <;> rfl
@[simp] theorem tcrWrite_tCount (t : TcrBits) (v : Byte) (p : PeriphRegs) : (tcrWrite t v p).tCount = (if v.getLsbD t.load then p.tStage else p.tCount) := by
  unfold tcrWrite tcrReload tcrStore tcrAck; split <;> split <;> rfl
@[simp] theorem tcrWrite_tWord (t : TcrBits) (v : Byte) (p : PeriphRegs) : (tcrWrite t v p).tWord = p.tWord := by
  unfold tcrWrite tcrReload tcrStore tcrAck; split <;> split <;> rfl
@[simp] theorem tcrWrite_tReset (t : TcrBits) (v : Byte) (p : PeriphRegs) : (tcrWrite t v p).tReset = (if v.getLsbD t.load then true else p.tReset) := by
  unfold tcrWrite tcrReload tcrStore tcrAck; split <;> split <;> rfl

end Sys2Proof.Laws
end

