-- ==== Sys2Proof/Laws/Registers.lean ====
section
/-! SUPPORT. What one register write and one timer tick can do. -/

namespace Sys2Proof.Laws

open Sys2Proof Sys2Proof.Machine

/-! ## Lanes and merges -/

theorem merge16_full (x v : Half) : merge16 x v 0xFFFF = v := by
  show (x &&& ~~~(BitVec.allOnes 16)) ||| (v &&& BitVec.allOnes 16) = v
  rw [BitVec.not_allOnes, BitVec.and_zero, BitVec.and_allOnes, BitVec.zero_or]

/-- The upper byte of a halfword made of two bytes. -/
@[simp] theorem hiByte_append (a b : Byte) : (a ++ b : BitVec (8 + 8)).extractLsb' 8 8 = a := by
  apply BitVec.eq_of_getLsbD_eq
  intro i hi
  rw [BitVec.getLsbD_extractLsb', BitVec.getLsbD_append]
  simp [hi]

/-- The lower byte of a halfword made of two bytes. -/
@[simp] theorem loByte_append (a b : Byte) : (a ++ b : BitVec (8 + 8)).extractLsb' 0 8 = b := by
  apply BitVec.eq_of_getLsbD_eq
  intro i hi
  rw [BitVec.getLsbD_extractLsb', BitVec.getLsbD_append]
  simp [hi]

/-- The low lane holds its byte below a zero byte. -/
theorem placeLane_low (d : Byte) : placeLane false d = (0#8 ++ d : BitVec (8 + 8)) := by
  apply BitVec.eq_of_getLsbD_eq
  intro i hi
  rw [BitVec.getLsbD_append]
  simp only [placeLane, Bool.false_eq_true, if_false, BitVec.getLsbD_setWidth, BitVec.getLsbD_zero]
  split
  · simp [hi]
  · next h => simp [BitVec.getLsbD_of_ge d i (by omega)]

/-- The high lane holds its byte above a zero byte. -/
theorem placeLane_high (d : Byte) : placeLane true d = (d ++ 0#8 : BitVec (8 + 8)) := by
  apply BitVec.eq_of_getLsbD_eq
  intro i hi
  rw [BitVec.getLsbD_append]
  simp only [placeLane, if_true, BitVec.getLsbD_shiftLeft, BitVec.getLsbD_setWidth, BitVec.getLsbD_zero]
  split
  · next h => simp [h]
  · next h => simp [hi, h]; omega

/-- A write of the low lane replaces the lower byte. -/
theorem merge16_low (x : Half) (d : Byte) :
    merge16 x (placeLane false d) (laneMask false) = (x.extractLsb' 8 8 ++ d : BitVec (8 + 8)) := by
  rw [placeLane_low, show laneMask false = (0#8 ++ BitVec.allOnes 8 : BitVec (8 + 8)) by decide]
  apply BitVec.eq_of_getLsbD_eq
  intro i hi
  unfold merge16
  rw [BitVec.getLsbD_or, BitVec.getLsbD_and, BitVec.getLsbD_not, BitVec.getLsbD_and, BitVec.getLsbD_append,
    BitVec.getLsbD_append, BitVec.getLsbD_append]
  by_cases h : i < 8
  · simp only [h, hi, if_true, BitVec.getLsbD_allOnes]
    simp
  · have : 8 + (i - 8) = i := by omega
    have h' : i - 8 < 8 := by omega
    simp [h, hi, this, h']

/-- A write of the high lane replaces the upper byte. -/
theorem merge16_high (x : Half) (d : Byte) :
    merge16 x (placeLane true d) (laneMask true) = (d ++ x.extractLsb' 0 8 : BitVec (8 + 8)) := by
  rw [placeLane_high, show laneMask true = (BitVec.allOnes 8 ++ 0#8 : BitVec (8 + 8)) by decide]
  apply BitVec.eq_of_getLsbD_eq
  intro i hi
  unfold merge16
  rw [BitVec.getLsbD_or, BitVec.getLsbD_and, BitVec.getLsbD_not, BitVec.getLsbD_and, BitVec.getLsbD_append,
    BitVec.getLsbD_append, BitVec.getLsbD_append]
  by_cases h : i < 8
  · simp [h, hi]
  · have h' : i - 8 < 8 := by omega
    simp only [h, hi, if_false, h', BitVec.getLsbD_allOnes]
    simp

theorem merge16_idem (x v k : Half) : merge16 (merge16 x v k) v k = merge16 x v k := by
  ext i hi
  simp only [merge16, BitVec.getElem_or, BitVec.getElem_and, BitVec.getElem_not]
  cases x[i] <;> cases v[i] <;> cases k[i] <;> rfl

theorem merge8_idem (x v k : Byte) : merge8 (merge8 x v k) v k = merge8 x v k := by
  ext i hi
  simp only [merge8, BitVec.getElem_or, BitVec.getElem_and, BitVec.getElem_not]
  cases x[i] <;> cases v[i] <;> cases k[i] <;> rfl

/-! ## Video registers -/

/-- A write of a register leaves every other register's reading alone, `INTPND` under `INTCLR` apart. -/
theorem vread_vwrite_other {c : Config} {v m : Half} {r : VideoRegs} {x y : VReg} (h : y ≠ x)
    (hi : y = .intpnd → x ≠ .intclr) : vread c (vwrite c v m r x) y = vread c r y := by
  cases x <;> cases y <;> first | rfl | exact absurd rfl h | exact absurd rfl (hi rfl)

@[simp] theorem vwrite_fcnt (c : Config) (v m : Half) (r : VideoRegs) (x : VReg) : (vwrite c v m r x).fcnt = r.fcnt := by
  cases x <;> rfl

/-- The pending bits after a register write: `INTCLR` clears those it names, every other register keeps them. -/
theorem vwrite_intpnd (c : Config) (v m : Half) (r : VideoRegs) (x : VReg) :
    (vwrite c v m r x).intpnd = if x = .intclr then r.intpnd &&& ~~~(v &&& m) else r.intpnd := by
  cases x <;> rfl

theorem vwrite_intenb_other {c : Config} {v m : Half} {r : VideoRegs} {x : VReg} (h : x ≠ .intenb) :
    (vwrite c v m r x).intenb = r.intenb := by
  cases x <;> first | rfl | exact absurd rfl h

theorem vwrite_dpstts (c : Config) (v m : Half) (r : VideoRegs) (x : VReg) : (vwrite c v m r x).dpstts = r.dpstts := by
  cases x <;> rfl

theorem vwrite_cta (c : Config) (v m : Half) (r : VideoRegs) (x : VReg) : (vwrite c v m r x).cta = r.cta := by
  cases x <;> rfl

/-- A plain register takes the lane bits inside its mask (41_video_regs.md R170). -/
theorem vread_vwrite_plain {c : Config} {v m w : Half} {r : VideoRegs} {x : VReg} (h : plainMask c x = some w) :
    vread c (vwrite c v m r x) x = merge16 (vread c r x) v (m &&& w) := by
  cases x <;> first | (injection h with h; subst h; rfl) | cases h

/-- A register write repeated is the write. -/
theorem vwrite_idem (c : Config) (v m : Half) (r : VideoRegs) (x : VReg) :
    vwrite c v m (vwrite c v m r x) x = vwrite c v m r x := by
  cases x <;> simp [vwrite, merge16_idem, clearPending, BitVec.and_assoc]

/-- Writes of different registers commute. -/
theorem vwrite_comm (c : Config) (v m v' m' : Half) (r : VideoRegs) {x y : VReg} (h : x ≠ y) :
    vwrite c v m (vwrite c v' m' r y) x = vwrite c v' m' (vwrite c v m r x) y := by
  cases x <;> cases y <;> first | rfl | exact absurd rfl h

/-! ## Peripheral registers -/

@[simp] theorem pwrite_mem (c : Config) (v : Byte) (a : Arch) (x : PReg) : (pwrite c v a x).mem = a.mem := by cases x <;> rfl

@[simp] theorem pwrite_vid (c : Config) (v : Byte) (a : Arch) (x : PReg) : (pwrite c v a x).vid = a.vid := by cases x <;> rfl

@[simp] theorem pwrite_tdrv (c : Config) (v : Byte) (a : Arch) (x : PReg) : (pwrite c v a x).tdrv = a.tdrv := by
  cases x <;> rfl

@[simp] theorem pwrite_rdrv (c : Config) (v : Byte) (a : Arch) (x : PReg) : (pwrite c v a x).rdrv = a.rdrv := by
  cases x <;> rfl

@[simp] theorem pwrite_tWord (c : Config) (v : Byte) (a : Arch) (x : PReg) : (pwrite c v a x).per.tWord = a.per.tWord := by
  cases x <;> first | rfl | exact tcrWrite_tWord _ _ _

@[simp] theorem pwrite_cdrr (c : Config) (v : Byte) (a : Arch) (x : PReg) : (pwrite c v a x).per.cdrr = a.per.cdrr := by
  cases x <;> first | rfl | exact tcrWrite_cdrr _ _ _

@[simp] theorem pwrite_slb (c : Config) (v : Byte) (a : Arch) (x : PReg) : (pwrite c v a x).per.slb = a.per.slb := by
  cases x <;> first | rfl | exact tcrWrite_slb _ _ _

@[simp] theorem pwrite_shb (c : Config) (v : Byte) (a : Arch) (x : PReg) : (pwrite c v a x).per.shb = a.per.shb := by
  cases x <;> first | rfl | exact tcrWrite_shb _ _ _

theorem pwrite_ccr_other {c : Config} {v : Byte} {a : Arch} {x : PReg} (h : x ≠ .ccr) :
    (pwrite c v a x).per.ccr = a.per.ccr := by
  cases x <;> first | rfl | exact tcrWrite_ccr _ _ _ | exact absurd rfl h

theorem pwrite_ccsr_other {c : Config} {v : Byte} {a : Arch} {x : PReg} (h : x ≠ .ccsr) :
    (pwrite c v a x).per.ccsr = a.per.ccsr := by
  cases x <;> first | rfl | exact tcrWrite_ccsr _ _ _ | exact absurd rfl h

theorem pwrite_scr_other {c : Config} {v : Byte} {a : Arch} {x : PReg} (h : x ≠ .scr) :
    (pwrite c v a x).per.scr = a.per.scr := by
  cases x <;> first | rfl | exact tcrWrite_scr _ _ _ | exact absurd rfl h

theorem pwrite_wcr_other {c : Config} {v : Byte} {a : Arch} {x : PReg} (h : x ≠ .wcr) :
    (pwrite c v a x).per.wcr = a.per.wcr := by
  cases x <;> first | rfl | exact tcrWrite_wcr _ _ _ | exact absurd rfl h

/-- Only a write of `CDTR` stores the transmit byte, and it appends it to `TXQ` (42_periph_regs.md R228). -/
theorem pwrite_cdtr (c : Config) (v : Byte) (a : Arch) (x : PReg) :
    (x = .cdtr → (pwrite c v a x).per.cdtr = v ∧ (pwrite c v a x).txq = a.txq ++ [v]) ∧
    (x ≠ .cdtr → (pwrite c v a x).per.cdtr = a.per.cdtr ∧ (pwrite c v a x).txq = a.txq) := by
  cases x <;> refine ⟨fun h => ?_, fun h => ?_⟩ <;>
    first | exact ⟨rfl, rfl⟩ | exact ⟨tcrWrite_cdtr _ _ _, rfl⟩ | exact absurd rfl h | cases h

theorem pwrite_tStage_other {c : Config} {v : Byte} {a : Arch} {x : PReg} (hl : x ≠ .tlb) (hh : x ≠ .thb) :
    (pwrite c v a x).per.tStage = a.per.tStage := by
  cases x <;> first | rfl | exact tcrWrite_tStage _ _ _ | exact absurd rfl hl | exact absurd rfl hh

/-- Only a write of `TCR` touches the timer's control and counter (42_periph_regs.md R240). -/
theorem pwrite_timer_other {c : Config} {v : Byte} {a : Arch} {x : PReg} (h : x ≠ .tcr) :
    (pwrite c v a x).per.tEnb = a.per.tEnb ∧ (pwrite c v a x).per.zStat = a.per.zStat ∧
    (pwrite c v a x).per.zInt = a.per.zInt ∧ (pwrite c v a x).per.tAuto = a.per.tAuto ∧
    (pwrite c v a x).per.tCount = a.per.tCount ∧ (pwrite c v a x).per.tReset = a.per.tReset := by
  cases x <;> first | exact ⟨rfl, rfl, rfl, rfl, rfl, rfl⟩ | exact absurd rfl h

/-- No register write sets the pending bit of the timer. -/
theorem pwrite_zStat_le (c : Config) (v : Byte) (a : Arch) (x : PReg) (h : (pwrite c v a x).per.zStat = true) :
    a.per.zStat = true := by
  by_cases hx : x = .tcr
  · subst hx
    have h' : (if v.getLsbD c.tcr.zclr then false else a.per.zStat) = true := (tcrWrite_zStat _ _ _).symm.trans h
    split at h'
    · cases h'
    · exact h'
  · exact (pwrite_timer_other hx).2.1 ▸ h

/-- Peripheral registers are equal when their fields are. -/
theorem periph_ext {p q : PeriphRegs} (h : p.scr = q.scr ∧ p.wcr = q.wcr ∧ p.tEnb = q.tEnb ∧ p.zStat = q.zStat ∧
    p.zInt = q.zInt ∧ p.tAuto = q.tAuto ∧ p.shb = q.shb ∧ p.slb = q.slb ∧ p.cdrr = q.cdrr ∧ p.cdtr = q.cdtr ∧
    p.ccsr = q.ccsr ∧ p.ccr = q.ccr ∧ p.tStage = q.tStage ∧ p.tCount = q.tCount ∧ p.tWord = q.tWord ∧
    p.tReset = q.tReset) : p = q := by
  cases p; cases q
  simp only at h
  simp [h]

/-- The whole effect of a `TCR` write (42_periph_regs.md R236 to R239). -/
theorem tcrWrite_eq (t : TcrBits) (v : Byte) (p : PeriphRegs) :
    tcrWrite t v p = { p with
      zStat := if v.getLsbD t.zclr then false else p.zStat
      tEnb := v.getLsbD t.enb
      zInt := v.getLsbD t.zint
      tAuto := v.getLsbD t.auto
      tCount := if v.getLsbD t.load then p.tStage else p.tCount
      tReset := if v.getLsbD t.load then true else p.tReset } :=
  periph_ext (by simp)

/-- A `TCR` write repeated is the write. -/
theorem tcrWrite_idem (t : TcrBits) (v : Byte) (p : PeriphRegs) : tcrWrite t v (tcrWrite t v p) = tcrWrite t v p := by
  refine periph_ext ?_
  simp only [tcrWrite_scr, tcrWrite_wcr, tcrWrite_tEnb, tcrWrite_zStat, tcrWrite_zInt, tcrWrite_tAuto, tcrWrite_shb,
    tcrWrite_slb, tcrWrite_cdrr, tcrWrite_cdtr, tcrWrite_ccsr, tcrWrite_ccr, tcrWrite_tStage, tcrWrite_tCount,
    tcrWrite_tWord, tcrWrite_tReset, true_and]
  refine ⟨?_, ?_, ?_⟩ <;> split <;> rfl

/-- A register write repeated is the write, unless it appends to `TXQ` (20_memory.md R86). -/
theorem pwrite_idem (c : Config) (v : Byte) (a : Arch) {x : PReg} (h : x ≠ .cdtr) :
    pwrite c v (pwrite c v a x) x = pwrite c v a x := by
  have hhi : ∀ u w : Byte, ((u ++ w : BitVec (8 + 8)) : Half).extractLsb' 8 8 = u := hiByte_append
  have hlo : ∀ u w : Byte, ((u ++ w : BitVec (8 + 8)) : Half).extractLsb' 0 8 = w := loByte_append
  cases x
  case cdtr => exact absurd rfl h
  case tlb => simp only [pwrite]; rw [hhi]
  case thb => simp only [pwrite]; rw [hlo]
  case tcr => simp only [pwrite]; rw [tcrWrite_idem]
  all_goals first | rfl | simp only [pwrite, merge8_idem]

/-! ## The timer -/

/-- What one timer tick does, by case (43_timer_engine.md R276). -/
theorem timerTick_cases (p : PeriphRegs) :
    (p.tEnb = false ∧ timerTick p = p) ∨
    (p.tEnb = true ∧ 1 < p.tCount.toNat ∧ timerTick p = { p with tReset := false, tCount := p.tCount - 1 }) ∨
    (p.tEnb = true ∧ p.tCount.toNat ≤ 1 ∧ p.tAuto = true ∧
      timerTick p = { p with tReset := false, zStat := true, tCount := p.tStage }) ∨
    (p.tEnb = true ∧ p.tCount.toNat ≤ 1 ∧ p.tAuto = false ∧
      timerTick p = { p with tReset := false, zStat := true, tCount := 0, tEnb := false }) := by
  rcases he : p.tEnb with _ | _
  · exact .inl ⟨rfl, by simp [timerTick, he]⟩
  · have hz : countDown p.tCount = 0 ↔ p.tCount.toNat ≤ 1 := by
      unfold countDown
      split
      · next h => bv_omega
      · next h => bv_omega
    by_cases hle : p.tCount.toNat ≤ 1
    · have hc := hz.mpr hle
      rcases ha : p.tAuto with _ | _
      · exact .inr (.inr (.inr ⟨rfl, hle, rfl, by simp [timerTick, timerExpire, he, hc, ha]⟩))
      · exact .inr (.inr (.inl ⟨rfl, hle, rfl, by simp [timerTick, timerExpire, he, hc, ha]⟩))
    · have hc : ¬ countDown p.tCount = 0 := fun h => hle (hz.mp h)
      have hn : p.tCount ≠ 0 := by bv_omega
      have hd : countDown p.tCount = p.tCount - 1 := if_pos hn
      refine .inr (.inl ⟨rfl, by omega, ?_⟩)
      have hc' : ¬ p.tCount - 1 = 0 := hd ▸ hc
      unfold timerTick
      rw [if_pos he]
      simp only [hd]
      rw [if_neg hc', he]

end Sys2Proof.Laws
end

