-- ==== Sys2Proof/Laws/Access.lean ====
section
/-! SUPPORT. What a write access does, once for every write-type operation: the register writes it turns into and the
bytes it stores, as functions of the operation alone. -/

namespace Sys2Proof.Laws

open Sys2Proof Sys2Proof.Machine

/-! ## The writes of one operation -/

/-- The halfword register writes of a video block write, in their order: register, value, lane mask. -/
def slotWrites (c : Config) (off : Nat) (v : Word) : Size → List (VReg × Half × Half)
  | .b => (c.vregAt (off / 2 * 2)).toList.map fun x => (x, placeLane (oddLane off) (byteAt v 0), laneMask (oddLane off))
  | .h => (c.vregAt off).toList.map fun x => (x, v.extractLsb' 0 16, 0xFFFF)
  | .w => ((c.vregAt off).toList.map fun x => (x, v.extractLsb' 0 16, 0xFFFF)) ++
      (c.vregAt (off + 2)).toList.map fun x => (x, v.extractLsb' 16 16, 0xFFFF)

/-- The video register writes of a bus write. -/
def busVWrites (c : Config) (addr : Word) (sz : Size) (v : Word) : List (VReg × Half × Half) :=
  if ownerOf c addr = .vblk then slotWrites c (busAddr c addr sz - c.vblkBase) v sz else []

/-- A level-2 write of a video register. -/
def slotAccessWrites (x : VReg) : VAccess → List (VReg × Half × Half)
  | .readByte _ | .readHalf => []
  | .writeByte hi d => [(x, placeLane hi d, laneMask hi)]
  | .writeHalf d => [(x, d, 0xFFFF)]

/-- The video register writes of an operation, in their order. -/
def vWrites (c : Config) : Instr → List (VReg × Half × Half)
  | .wrB a d => busVWrites c a .b (d.setWidth 32)
  | .wrH a d => busVWrites c a .h (d.setWidth 32)
  | .wrW a d => busVWrites c a .w d
  | .vwrB a d => slotWrites c (portOffset vblkSize a .b) (d.setWidth 32) .b
  | .vwrH a d => slotWrites c (portOffset vblkSize a .h) (d.setWidth 32) .h
  | .vwrW a d => slotWrites c (portOffset vblkSize a .w) d .w
  | i =>
    match videoSlot i with
    | some (x, acc) => slotAccessWrites x acc
    | none => []

/-- The peripheral register write of a block write, with its byte. -/
def pslotWrites (c : Config) (off : Nat) (v : Word) : List (PReg × Byte) :=
  (slotPReg c off).map fun x => (x, byteAt v 0)

/-- The peripheral register write of a bus write. -/
def busPWrites (c : Config) (addr : Word) (sz : Size) (v : Word) : List (PReg × Byte) :=
  if ownerOf c addr = .pblk then pslotWrites c (busAddr c addr sz - c.pblkBase) v else []

/-- A level-2 write of a peripheral register. -/
def pslotAccessWrites (x : PReg) : PAccess → List (PReg × Byte)
  | .read => []
  | .write d => [(x, d)]

/-- The peripheral register writes of an operation: at most one (`pWrites_le_one`). -/
def pWrites (c : Config) : Instr → List (PReg × Byte)
  | .wrB a d => busPWrites c a .b (d.setWidth 32)
  | .wrH a d => busPWrites c a .h (d.setWidth 32)
  | .wrW a d => busPWrites c a .w d
  | .pwrB a d => pslotWrites c (portOffset pblkSize a .b) (d.setWidth 32)
  | .pwrH a d => pslotWrites c (portOffset pblkSize a .h) (d.setWidth 32)
  | .pwrW a d => pslotWrites c (portOffset pblkSize a .w) d
  | i =>
    match periphSlot i with
    | some (x, acc) => pslotAccessWrites x acc
    | none => []

/-- The value that an operation stores to the bytes of `stores`. -/
def storedValue : Instr → Word
  | .wrB _ d => d.setWidth 32
  | .wrH _ d => d.setWidth 32
  | .wrW _ d => d
  | _ => 0

/-- The memory after an operation's stores. -/
def storeEffect (c : Config) (i : Instr) (m : Memory) : Memory :=
  match stores c i with
  | some (r, off, sz) => regionWrite c m r off sz (storedValue i)
  | none => m

/-- Register writes one after the other. -/
def applyV (c : Config) (l : List (VReg × Half × Half)) (r : VideoRegs) : VideoRegs :=
  l.foldl (fun r e => vwrite c e.2.1 e.2.2 r e.1) r

/-- Register writes one after the other. -/
def applyP (c : Config) (l : List (PReg × Byte)) (a : Arch) : Arch :=
  l.foldl (fun a e => pwrite c e.2 a e.1) a

/-- The tuple after the writes of an operation. -/
def writeEffect (c : Config) (i : Instr) (a : Arch) : Arch :=
  applyP c (pWrites c i) { a with vid := applyV c (vWrites c i) a.vid, mem := storeEffect c i a.mem }

/-! ## The shared operations as writes -/

@[simp] theorem applyV_nil (c : Config) (r : VideoRegs) : applyV c [] r = r := rfl

@[simp] theorem applyV_cons (c : Config) (e : VReg × Half × Half) (l : List (VReg × Half × Half)) (r : VideoRegs) :
    applyV c (e :: l) r = applyV c l (vwrite c e.2.1 e.2.2 r e.1) := rfl

theorem applyV_append (c : Config) (l l' : List (VReg × Half × Half)) (r : VideoRegs) :
    applyV c (l ++ l') r = applyV c l' (applyV c l r) := List.foldl_append

@[simp] theorem applyP_nil (c : Config) (a : Arch) : applyP c [] a = a := rfl

@[simp] theorem applyP_cons (c : Config) (e : PReg × Byte) (l : List (PReg × Byte)) (a : Arch) :
    applyP c (e :: l) a = applyP c l (pwrite c e.2 a e.1) := rfl

theorem vregWrite_eq (c : Config) (v m : Half) (r : VideoRegs) (o : Nat) :
    vregWrite c v m r o = applyV c ((c.vregAt o).toList.map fun x => (x, v, m)) r := by
  unfold vregWrite; cases c.vregAt o <;> rfl

/-- A video block write is its register writes (40_bus_ops.md R151). -/
theorem vblkWrite_eq (c : Config) (r : VideoRegs) (off : Nat) (v : Word) (sz : Size) :
    vblkWrite c r off v sz = applyV c (slotWrites c off v sz) r := by
  cases sz <;> simp only [vblkWrite, slotWrites, vregWrite_eq, applyV_append]

/-- A peripheral block write is at most one register write (40_bus_ops.md R157). -/
theorem pblkWrite_eq (c : Config) (a : Arch) (off : Nat) (v : Word) :
    pblkWrite c a off v = applyP c (pslotWrites c off v) a := by
  unfold pblkWrite pslotWrites slotPReg
  split
  · unfold pregWrite; cases c.pregAt off <;> rfl
  · rfl

/-- Everything a bus write can do (40_bus_ops.md R141). -/
theorem memWrite_eq (c : Config) (a : Arch) (addr : Word) (sz : Size) (v : Word) :
    memWrite c a addr sz v = applyP c (busPWrites c addr sz v)
      { a with vid := applyV c (busVWrites c addr sz v) a.vid
               mem := match storeTarget c addr sz with
                      | some (r, off, sz) => regionWrite c a.mem r off sz v
                      | none => a.mem } := by
  unfold memWrite busPWrites busVWrites storeTarget
  rcases ho : ownerOf c addr with r | _ | _ | _
  · by_cases hw : (c.win r).writable = true
    · simp [hw]
    · simp [hw, regionWrite]
  · simp [vblkWrite_eq]
  · simp [pblkWrite_eq]
  · simp

/-- Everything a level-2 access to a video register can do. -/
theorem vregAccess_write (x : VReg) {acc : VAccess} (h : vaccReads acc = false) (s : State) :
    vregAccess x acc s = .next (s.put { s.arch with vid := applyV s.cfg (slotAccessWrites x acc) s.arch.vid } .none) := by
  cases acc <;> first | rfl | cases h

/-- Everything a level-2 access to a peripheral register can do. -/
theorem pregAccess_write (x : PReg) {acc : PAccess} (h : paccReads acc = false) (s : State) :
    pregAccess x acc s = .next (s.put (applyP s.cfg (pslotAccessWrites x acc) s.arch) .none) := by
  cases acc <;> first | rfl | cases h

/-! ## The write-type operations -/

/-- A write-type operation completes, returns nothing, and does its writes (20_memory.md R81, 40_bus_ops.md R151,
R157). -/
theorem exec_write {i : Instr} (h : isWrite i = true) (s : State) :
    exec i s = .next (s.put (writeEffect s.cfg i s.arch) .none) := by
  cases i
  case wrB a d => exact congrArg (fun x => Host.Outcome.next (s.put x .none)) (memWrite_eq s.cfg s.arch a .b _)
  case wrH a d => exact congrArg (fun x => Host.Outcome.next (s.put x .none)) (memWrite_eq s.cfg s.arch a .h _)
  case wrW a d => exact congrArg (fun x => Host.Outcome.next (s.put x .none)) (memWrite_eq s.cfg s.arch a .w _)
  case vwrB a d => exact congrArg (fun x => Host.Outcome.next (s.put { s.arch with vid := x } .none)) (vblkWrite_eq ..)
  case vwrH a d => exact congrArg (fun x => Host.Outcome.next (s.put { s.arch with vid := x } .none)) (vblkWrite_eq ..)
  case vwrW a d => exact congrArg (fun x => Host.Outcome.next (s.put { s.arch with vid := x } .none)) (vblkWrite_eq ..)
  case pwrB a d => exact congrArg (fun x => Host.Outcome.next (s.put x .none)) (pblkWrite_eq ..)
  case pwrH a d => exact congrArg (fun x => Host.Outcome.next (s.put x .none)) (pblkWrite_eq ..)
  case pwrW a d => exact congrArg (fun x => Host.Outcome.next (s.put x .none)) (pblkWrite_eq ..)
  all_goals first
    | cases h
    | exact vregAccess_write _ (by simpa [isWrite, videoSlot] using h) s
    | exact pregAccess_write _ (by simpa [isWrite, videoSlot, periphSlot] using h) s

/-- The registers of the video writes are those the operation addresses. -/
theorem vWrites_regs (c : Config) (i : Instr) : (vWrites c i).map (·.1) = writesVideo c i := by
  have hs : ∀ (off : Nat) (v : Word) (sz : Size), (slotWrites c off v sz).map (·.1) = slotRegs c off sz := by
    intro off v sz; cases sz <;> simp [slotWrites, slotRegs, List.map_map, Function.comp_def]
  have hb : ∀ (a : Word) (sz : Size) (v : Word), (busVWrites c a sz v).map (·.1) = busVideo c a sz := by
    intro a sz v; unfold busVWrites busVideo; split
    · exact hs ..
    · rfl
  have ha : ∀ (x : VReg) (acc : VAccess), (slotAccessWrites x acc).map (·.1) = if vaccReads acc then [] else [x] := by
    intro x acc; cases acc <;> rfl
  cases i
  case vwrB a d => exact hs (portOffset vblkSize a .b) (d.setWidth 32) .b
  case vwrH a d => exact hs (portOffset vblkSize a .h) (d.setWidth 32) .h
  case vwrW a d => exact hs (portOffset vblkSize a .w) d .w
  all_goals first | exact hb .. | exact ha .. | rfl

/-- The registers of the peripheral writes are those the operation addresses. -/
theorem pWrites_regs (c : Config) (i : Instr) : (pWrites c i).map (·.1) = writesPeriph c i := by
  have hs : ∀ (off : Nat) (v : Word), (pslotWrites c off v).map (·.1) = slotPReg c off := by
    intro off v; simp [pslotWrites, Function.comp_def]
  have hb : ∀ (a : Word) (sz : Size) (v : Word), (busPWrites c a sz v).map (·.1) = busPeriph c a sz := by
    intro a sz v; unfold busPWrites busPeriph; split
    · exact hs ..
    · rfl
  have ha : ∀ (x : PReg) (acc : PAccess), (pslotAccessWrites x acc).map (·.1) = if paccReads acc then [] else [x] := by
    intro x acc; cases acc <;> rfl
  cases i <;> first | exact hb .. | exact hs .. | exact ha .. | rfl

theorem slotPReg_le_one (c : Config) (off : Nat) : (slotPReg c off).length ≤ 1 := by
  unfold slotPReg; split
  · cases c.pregAt off <;> simp
  · simp

/-- An operation writes at most one peripheral register (40_bus_ops.md R157). -/
theorem pWrites_le_one (c : Config) (i : Instr) : pWrites c i = [] ∨ ∃ x v, pWrites c i = [(x, v)] := by
  have hl : (pWrites c i).length ≤ 1 := by
    rw [← List.length_map (f := (·.1)), pWrites_regs]
    have hb : ∀ (a : Word) (sz : Size), (busPeriph c a sz).length ≤ 1 := by
      intro a sz; unfold busPeriph; split
      · exact slotPReg_le_one ..
      · simp
    have ha : ∀ (x : PReg) (acc : PAccess), (if paccReads acc then [] else [x] : List PReg).length ≤ 1 := by
      intro x acc; split <;> simp
    cases i <;> first | exact hb .. | exact slotPReg_le_one .. | exact ha .. | exact Nat.zero_le 1
  rcases h : pWrites c i with _ | ⟨⟨x, v⟩, _ | ⟨y, t⟩⟩
  · exact .inl rfl
  · exact .inr ⟨x, v, rfl⟩
  · rw [h] at hl; simp at hl

/-- The video writes of an operation address distinct registers. -/
theorem vWrites_nodup {c : Config} (h : c.Wf) (i : Instr) : (writesVideo c i).Nodup := by
  have hs : ∀ (off : Nat) (sz : Size), (slotRegs c off sz).Nodup := by
    intro off sz
    cases sz
    · cases hx : c.vregAt (off / 2 * 2) <;> simp [slotRegs, hx]
    · cases hx : c.vregAt off <;> simp [slotRegs, hx]
    · rcases hx : c.vregAt off with _ | x <;> rcases hy : c.vregAt (off + 2) with _ | y <;> simp [slotRegs, hx, hy]
      rintro rfl
      have := (vregAt_eq_some h).mp hx
      have := (vregAt_eq_some h).mp hy
      omega
  have hb : ∀ (a : Word) (sz : Size), (busVideo c a sz).Nodup := by
    intro a sz; unfold busVideo; split
    · exact hs ..
    · simp
  have ha : ∀ (x : VReg) (acc : VAccess), (if vaccReads acc then [] else [x] : List VReg).Nodup := by
    intro x acc; split <;> simp
  cases i
  case vwrB a d => exact hs (portOffset vblkSize a .b) .b
  case vwrH a d => exact hs (portOffset vblkSize a .h) .h
  case vwrW a d => exact hs (portOffset vblkSize a .w) .w
  all_goals first | exact hb .. | exact ha .. | exact List.nodup_nil

/-! ## What register writes leave alone -/

theorem applyV_ind {c : Config} {α : Type} {f : VideoRegs → α} {l : List (VReg × Half × Half)} {r : VideoRegs}
    (h : ∀ e ∈ l, ∀ r, f (vwrite c e.2.1 e.2.2 r e.1) = f r) :
    f (applyV c l r) = f r := by
  induction l generalizing r with
  | nil => rfl
  | cons e t ih =>
    rw [applyV_cons, ih fun e he => h e (List.mem_cons_of_mem _ he)]
    exact h e List.mem_cons_self r

@[simp] theorem applyV_fcnt (c : Config) (l : List (VReg × Half × Half)) (r : VideoRegs) :
    (applyV c l r).fcnt = r.fcnt := applyV_ind (f := (·.fcnt)) fun _ _ _ => vwrite_fcnt ..

@[simp] theorem applyV_dpstts (c : Config) (l : List (VReg × Half × Half)) (r : VideoRegs) :
    (applyV c l r).dpstts = r.dpstts := applyV_ind (f := (·.dpstts)) fun _ _ _ => vwrite_dpstts ..

@[simp] theorem applyV_cta (c : Config) (l : List (VReg × Half × Half)) (r : VideoRegs) :
    (applyV c l r).cta = r.cta := applyV_ind (f := (·.cta)) fun _ _ _ => vwrite_cta ..

/-- A register that no write addresses reads as before, `INTPND` under `INTCLR` apart. -/
theorem vread_applyV {c : Config} {l : List (VReg × Half × Half)} {r : VideoRegs} {x : VReg}
    (h : x ∉ l.map (·.1)) (hi : x = .intpnd → VReg.intclr ∉ l.map (·.1)) :
    vread c (applyV c l r) x = vread c r x :=
  applyV_ind (f := (vread c · x)) fun _ he _ =>
    vread_vwrite_other (fun hx => h (hx ▸ List.mem_map_of_mem he))
      fun hp hc => hi hp (hc ▸ List.mem_map_of_mem he)

/-- Register writes never set a pending bit. -/
theorem applyV_intpnd_le {c : Config} {l : List (VReg × Half × Half)} {r : VideoRegs} {k : Nat}
    (h : (applyV c l r).intpnd.getLsbD k = true) : r.intpnd.getLsbD k = true := by
  induction l generalizing r with
  | nil => exact h
  | cons e t ih =>
    have := ih h
    rw [vwrite_intpnd] at this
    split at this
    · rw [BitVec.getLsbD_and] at this; exact ((Bool.and_eq_true _ _).mp this).1
    · exact this

/-- Register writes to distinct registers, repeated, are the writes. -/
theorem applyV_idem {c : Config} {l : List (VReg × Half × Half)} {r : VideoRegs} (h : (l.map (·.1)).Nodup) :
    applyV c l (applyV c l r) = applyV c l r := by
  have hcomm : ∀ (e : VReg × Half × Half) (t : List (VReg × Half × Half)) (r : VideoRegs), e.1 ∉ t.map (·.1) →
      vwrite c e.2.1 e.2.2 (applyV c t r) e.1 = applyV c t (vwrite c e.2.1 e.2.2 r e.1) := by
    intro e t
    induction t with
    | nil => intro r _; rfl
    | cons d u ih =>
      intro r hn
      rw [List.map_cons, List.mem_cons, not_or] at hn
      rw [applyV_cons, ih _ hn.2, vwrite_comm c _ _ _ _ _ hn.1, applyV_cons]
  induction l generalizing r with
  | nil => rfl
  | cons e t ih =>
    rw [List.map_cons, List.nodup_cons] at h
    rw [applyV_cons, applyV_cons, hcomm e t _ h.1, vwrite_idem]
    exact ih h.2

@[simp] theorem writeEffect_mem (c : Config) (i : Instr) (a : Arch) : (writeEffect c i a).mem = storeEffect c i a.mem := by
  rcases pWrites_le_one c i with h | ⟨x, v, h⟩ <;> simp [writeEffect, h]

@[simp] theorem writeEffect_vid (c : Config) (i : Instr) (a : Arch) :
    (writeEffect c i a).vid = applyV c (vWrites c i) a.vid := by
  rcases pWrites_le_one c i with h | ⟨x, v, h⟩ <;> simp [writeEffect, h]

@[simp] theorem writeEffect_tdrv (c : Config) (i : Instr) (a : Arch) : (writeEffect c i a).tdrv = a.tdrv := by
  rcases pWrites_le_one c i with h | ⟨x, v, h⟩ <;> simp [writeEffect, h]

@[simp] theorem writeEffect_rdrv (c : Config) (i : Instr) (a : Arch) : (writeEffect c i a).rdrv = a.rdrv := by
  rcases pWrites_le_one c i with h | ⟨x, v, h⟩ <;> simp [writeEffect, h]

/-- A write leaves every peripheral field that no write of another register than those it addresses could touch. -/
theorem writeEffect_per {α : Type} {f : Arch → α} {c : Config} {i : Instr} {a : Arch}
    (hf : ∀ (b : Arch) (v : VideoRegs) (m : Memory), f { b with vid := v, mem := m } = f b)
    (h : ∀ x ∈ writesPeriph c i, ∀ (v : Byte) (b : Arch), f (pwrite c v b x) = f b) : f (writeEffect c i a) = f a := by
  rw [← pWrites_regs] at h
  rcases hp : pWrites c i with _ | ⟨⟨x, v⟩, _ | ⟨y, t⟩⟩
  · simp only [writeEffect, hp, applyP_nil, hf]
  · rw [hp] at h
    simp only [writeEffect, hp, applyP_cons, applyP_nil]
    rw [h x (by simp), hf]
  · rcases pWrites_le_one c i with h | ⟨x, v, h⟩ <;> rw [hp] at h <;> simp at h

theorem stores_back {c : Config} {i : Instr} {r : Region} {off : Nat} {sz : Size} (h : stores c i = some (r, off, sz)) :
    (c.win r).writable = true := by
  have key : ∀ (a : Word) (z : Size), storeTarget c a z = some (r, off, sz) → (c.win r).writable = true := by
    intro a z h
    unfold storeTarget at h
    split at h
    · split at h
      · next hw => simp only [Option.some.injEq, Prod.mk.injEq] at h; exact h.1 ▸ hw
      · cases h
    · cases h
  cases i <;> first | exact key _ _ h | cases h

/-- A write keeps every array at its length. -/
theorem fits_storeEffect {c : Config} (hc : c.Wf) (i : Instr) {m : Memory} (h : m.Fits c) : (storeEffect c i m).Fits c := by
  unfold storeEffect
  split
  · next r _ _ _ => exact fits_regionWrite _ _ _ _ (Nat.lt_of_lt_of_le (by decide) (backSize_ge hc r)) h
  · exact h

/-- A write leaves every byte that it does not store. -/
theorem readCell_storeEffect {c : Config} (hc : c.Wf) {i : Instr} {m : Memory} (h : m.Fits c) {r : Region} {k : Nat}
    (hk : ¬ storesAt c i r k) : readCell ((storeEffect c i m).store r) k = readCell (m.store r) k := by
  unfold storeEffect
  rcases hs : stores c i with _ | ⟨r', off, sz⟩
  · rfl
  · refine (regionByte_regionWrite off sz _ (backSize_ge hc r') (fits_iff.mp h r').1).2 r k ?_
    by_cases hr : r = r'
    · exact .inr fun j hj he => hk ⟨off, sz, by rw [hs, hr], j, hj, by rw [he, hr]⟩
    · exact .inl hr

/-- A region write repeated is the write. -/
theorem regionWrite_idem {c : Config} (hc : c.Wf) {m : Memory} (h : m.Fits c) (r : Region) (off : Nat) (sz : Size) (v : Word) :
    regionWrite c (regionWrite c m r off sz v) r off sz v = regionWrite c m r off sz v := by
  have hb := backSize_ge hc r
  have h1 := fits_regionWrite r off sz v (by omega) h
  refine memory_ext_bytes (fits_regionWrite r off sz v (by omega) h1) h1 fun r' k => ?_
  by_cases hw : (c.win r).writable = true
  · by_cases hk : r' = r ∧ ∃ i < sz.bytes, k = backOffset c r off i
    · obtain ⟨rfl, i, hi, rfl⟩ := hk
      rw [(regionByte_regionWrite off sz v hb (fits_iff.mp h1 r').1).1 hw i hi,
        (regionByte_regionWrite off sz v hb (fits_iff.mp h r').1).1 hw i hi]
    · refine (regionByte_regionWrite off sz v hb (fits_iff.mp h1 r).1).2 r' k ?_
      by_cases hr : r' = r
      · exact .inr fun i hi he => hk ⟨hr, i, hi, he⟩
      · exact .inl hr
  · simp [regionWrite, hw]

end Sys2Proof.Laws
end

