-- ==== Sys2Proof/Laws/Bytes.lean ====
section
/-! SUPPORT. Little-endian assembly (20_memory.md R82, R83): bytes to a value and back, and aligned addresses. -/

namespace Sys2Proof.Laws

open Sys2Proof Sys2Proof.Machine

/-- The first byte is bits 7:0 and the others follow above it. -/
theorem getLsbD_ofBytes_cons (b : Byte) (bs : List Byte) {i : Nat} (hi : i < 32) :
    (ofBytes (b :: bs)).getLsbD i = if i < 8 then b.getLsbD i else (ofBytes bs).getLsbD (i - 8) := by
  rw [ofBytes, BitVec.getLsbD_or, BitVec.getLsbD_shiftLeft, BitVec.getLsbD_setWidth]
  by_cases h : i < 8
  · simp only [h, hi, decide_true, if_true]; simp
  · simp only [h, hi, decide_true, if_false, BitVec.getLsbD_of_ge b i (by omega)]; simp

theorem ofBytes_one (a : Byte) : (ofBytes [a]).setWidth 8 = a := by
  apply BitVec.eq_of_getLsbD_eq
  intro i hi
  rw [BitVec.getLsbD_setWidth, getLsbD_ofBytes_cons a _ (by omega)]
  simp [hi]

theorem ofBytes_two (a b : Byte) : (ofBytes [a, b]).setWidth 16 = (b ++ a : BitVec (8 + 8)) := by
  apply BitVec.eq_of_getLsbD_eq
  intro i hi
  rw [BitVec.getLsbD_setWidth, getLsbD_ofBytes_cons a _ (by omega), getLsbD_ofBytes_cons b _ (by omega),
    BitVec.getLsbD_append]
  simp only [hi, decide_true, Bool.true_and, show i - 8 < 8 by omega, if_true]

theorem ofBytes_four (a b c d : Byte) : ofBytes [a, b, c, d] = (d ++ c ++ b ++ a : BitVec (8 + 8 + 8 + 8)) := by
  apply BitVec.eq_of_getLsbD_eq
  intro i hi
  rw [getLsbD_ofBytes_cons a _ (by omega), getLsbD_ofBytes_cons b _ (by omega), getLsbD_ofBytes_cons c _ (by omega),
    getLsbD_ofBytes_cons d _ (by omega), BitVec.getLsbD_append, BitVec.getLsbD_append, BitVec.getLsbD_append]
  simp only [show i - 8 - 8 - 8 < 8 by omega, if_true]

@[simp] theorem byteAt_byte (b : Byte) : byteAt (b.setWidth 32) 0 = b := by
  unfold byteAt
  rw [BitVec.extractLsb'_setWidth_of_le (by decide)]
  exact BitVec.extractLsb'_eq_self

/-- A halfword is its two bytes. -/
theorem bytes_half (h : Half) : (byteAt (h.setWidth 32) 1 ++ byteAt (h.setWidth 32) 0 : BitVec (8 + 8)) = h := by
  show ((h.setWidth 32).extractLsb' 8 8 ++ (h.setWidth 32).extractLsb' 0 8 : BitVec (8 + 8)) = h
  rw [BitVec.extractLsb'_setWidth_of_le (by decide), BitVec.extractLsb'_setWidth_of_le (by decide),
    BitVec.extractLsb'_append_extractLsb'_eq_extractLsb' (rfl : 8 = 0 + 8)]
  exact BitVec.extractLsb'_eq_self

/-- A word is its four bytes. -/
theorem bytes_word (w : Word) :
    (byteAt w 3 ++ byteAt w 2 ++ byteAt w 1 ++ byteAt w 0 : BitVec (8 + 8 + 8 + 8)) = w := by
  show (w.extractLsb' 24 8 ++ w.extractLsb' 16 8 ++ w.extractLsb' 8 8 ++ w.extractLsb' 0 8 : BitVec (8 + 8 + 8 + 8)) = w
  rw [BitVec.extractLsb'_append_extractLsb'_eq_extractLsb' (rfl : 24 = 16 + 8),
    BitVec.extractLsb'_append_extractLsb'_eq_extractLsb' (rfl : 16 = 8 + 8),
    BitVec.extractLsb'_append_extractLsb'_eq_extractLsb' (rfl : 8 = 0 + 8)]
  exact BitVec.extractLsb'_eq_self

/-! ## Aligned addresses -/

@[simp] theorem align_byte (a : Word) : align .b a = a := by
  apply BitVec.eq_of_toNat_eq
  rw [align_toNat]
  simp [Size.bytes]

theorem align_idem (sz : Size) (a : Word) : align sz (align sz a) = align sz a := by
  apply BitVec.eq_of_toNat_eq
  rw [align_toNat, align_toNat, Nat.mul_div_cancel _ (bytes_pos sz)]

/-- Masking an aligned masked address changes nothing (20_memory.md R71, R75). -/
theorem mask_align (c : Config) (addr : Word) (sz : Size) :
    maskAddr c (align sz (maskAddr c addr)) = align sz (maskAddr c addr) := by
  unfold maskAddr align
  rw [BitVec.and_assoc, BitVec.and_comm (~~~_), ← BitVec.and_assoc, BitVec.and_assoc addr, BitVec.and_self]

/-- The bytes of an aligned access, as numbers. -/
theorem align_add_toNat (sz : Size) (a : Word) {j : Nat} (hj : j < sz.bytes) :
    (align sz a + BitVec.ofNat 32 j).toNat = (align sz a).toNat + j := by
  have h1 := align_bounds sz a
  have h2 := (align sz a).isLt
  have hlt : (align sz a).toNat + j < 2 ^ 32 := by cases sz <;> simp only [Size.bytes] at h1 hj <;> omega
  rw [BitVec.toNat_add, BitVec.toNat_ofNat]
  omega

/-- Every byte of an aligned access aligns to its address. -/
theorem align_add (sz : Size) (a : Word) {j : Nat} (hj : j < sz.bytes) :
    align sz (align sz a + BitVec.ofNat 32 j) = align sz a := by
  apply BitVec.eq_of_toNat_eq
  have h1 := align_bounds sz a
  rw [align_toNat, align_add_toNat sz a hj]
  cases sz <;> simp only [Size.bytes] at h1 hj ⊢ <;> omega

end Sys2Proof.Laws
end

