-- ==== Sys2Proof/Laws/Encoding.lean ====
section
/-! SUPPORT. The fields of an encoded word are the ones it was made of. -/

namespace Sys2Proof.Laws

open Sys2Proof Sys2Proof.Machine
open BitVec (extractLsb' extractLsb'_append_eq_of_le extractLsb'_append_eq_of_add_le extractLsb'_eq_self
  extractLsb'_setWidth_of_le extractLsb'_toNat toNat_ofNat getLsbD_append getLsbD_ofNat)

/-! ## The operation word -/

@[simp] theorem opField_append (op : BitVec 8) (a d : Word) : opField (op ++ a ++ d : BitVec (8 + 32 + 32)) = op := by
  show extractLsb' 64 8 (op ++ a ++ d : BitVec (8 + 32 + 32)) = op
  rw [extractLsb'_append_eq_of_le (by decide), extractLsb'_append_eq_of_le (by decide)]
  exact extractLsb'_eq_self

@[simp] theorem addrField_append (op : BitVec 8) (a d : Word) : addrField (op ++ a ++ d : BitVec (8 + 32 + 32)) = a := by
  show extractLsb' 32 32 (op ++ a ++ d : BitVec (8 + 32 + 32)) = a
  rw [extractLsb'_append_eq_of_le (by decide), extractLsb'_append_eq_of_add_le (by decide)]
  exact extractLsb'_eq_self

@[simp] theorem dataField_append (op : BitVec 8) (a d : Word) : dataField (op ++ a ++ d : BitVec (8 + 32 + 32)) = d := by
  show extractLsb' 0 32 (op ++ a ++ d : BitVec (8 + 32 + 32)) = d
  rw [extractLsb'_append_eq_of_add_le (by decide)]
  exact extractLsb'_eq_self

/-- Decoding an operation word made of its fields decodes the fields (30_encoding.md R110, R111). -/
theorem decode_opWord (c : Config) (op : BitVec 8) (a d : Word) : decode c (opWord op a d) =
    if opClass op = 0b11#2 then decodeEvent c (opEvent op) a d
    else if opZero op ≠ 0#3 then .error .reservedWord
    else if opClass op = 0b00#2 then decodeBus (opWe op) (opSize op) a d
    else if opClass op = 0b01#2 then decodeVport (opWe op) (opSize op) a d
    else decodePport (opWe op) (opSize op) a d := by
  have h1 := opField_append op a d
  have h2 := addrField_append op a d
  have h3 := dataField_append op a d
  unfold opWord decode decodeOpw
  simp only [h1, h2, h3]

@[simp] theorem data8_setWidth (d : Byte) : data8 (d.setWidth 32) = d := by
  unfold data8; rw [extractLsb'_setWidth_of_le (by decide), extractLsb'_eq_self]

@[simp] theorem data16_setWidth (d : Half) : data16 (d.setWidth 32) = d := by
  unfold data16; rw [extractLsb'_setWidth_of_le (by decide), extractLsb'_eq_self]

/-! ## The level-2 words -/

/-- The fields of a `VSLOT` word. -/
theorem vslot_fields (off : BitVec 7) (size : BitVec 2) (we : BitVec 1) (d : Half) :
    let w : BitVec (16 + 5 + 1 + 2 + 1 + 7) := d ++ 0#5 ++ we ++ size ++ 0#1 ++ off
    extractLsb' 7 1 w = 0#1 ∧ extractLsb' 11 5 w = 0#5 ∧ extractLsb' 10 1 w = we ∧ extractLsb' 8 2 w = size ∧
    extractLsb' 16 16 w = d ∧ extractLsb' 16 8 w = extractLsb' 0 8 d ∧ extractLsb' 1 6 w = extractLsb' 1 6 off ∧
    w.getLsbD 0 = off.getLsbD 0 ∧ extractLsb' 0 7 w = off := by
  intro w
  refine ⟨?_, ?_, ?_, ?_, ?_, ?_, ?_, ?_, ?_⟩
  · rw [extractLsb'_append_eq_of_le (by decide), extractLsb'_append_eq_of_add_le (by decide)]
    exact extractLsb'_eq_self
  · rw [extractLsb'_append_eq_of_le (by decide), extractLsb'_append_eq_of_le (by decide),
      extractLsb'_append_eq_of_le (by decide), extractLsb'_append_eq_of_le (by decide),
      extractLsb'_append_eq_of_add_le (by decide)]
    exact extractLsb'_eq_self
  · rw [extractLsb'_append_eq_of_le (by decide), extractLsb'_append_eq_of_le (by decide),
      extractLsb'_append_eq_of_le (by decide), extractLsb'_append_eq_of_add_le (by decide)]
    exact extractLsb'_eq_self
  · rw [extractLsb'_append_eq_of_le (by decide), extractLsb'_append_eq_of_le (by decide),
      extractLsb'_append_eq_of_add_le (by decide)]
    exact extractLsb'_eq_self
  · rw [extractLsb'_append_eq_of_le (by decide), extractLsb'_append_eq_of_le (by decide),
      extractLsb'_append_eq_of_le (by decide), extractLsb'_append_eq_of_le (by decide),
      extractLsb'_append_eq_of_le (by decide)]
    exact extractLsb'_eq_self
  · rw [extractLsb'_append_eq_of_le (by decide), extractLsb'_append_eq_of_le (by decide),
      extractLsb'_append_eq_of_le (by decide), extractLsb'_append_eq_of_le (by decide),
      extractLsb'_append_eq_of_le (by decide)]
  · rw [extractLsb'_append_eq_of_add_le (by decide)]
  · rw [getLsbD_append]; rfl
  · rw [extractLsb'_append_eq_of_add_le (by decide)]
    exact extractLsb'_eq_self

/-- The fields of a `PSLOT` word. -/
theorem pslot_fields (off : BitVec 6) (we : BitVec 1) (d : Byte) :
    let w : BitVec (8 + 8 + 5 + 1 + 4 + 6) := 0#8 ++ d ++ 0#5 ++ we ++ 0#4 ++ off
    extractLsb' 6 4 w = 0#4 ∧ extractLsb' 11 5 w = 0#5 ∧ extractLsb' 10 1 w = we ∧ extractLsb' 16 8 w = d ∧
    extractLsb' 0 6 w = off := by
  intro w
  refine ⟨?_, ?_, ?_, ?_, ?_⟩
  · rw [extractLsb'_append_eq_of_le (by decide), extractLsb'_append_eq_of_add_le (by decide)]
    exact extractLsb'_eq_self
  · rw [extractLsb'_append_eq_of_le (by decide), extractLsb'_append_eq_of_le (by decide),
      extractLsb'_append_eq_of_le (by decide), extractLsb'_append_eq_of_add_le (by decide)]
    exact extractLsb'_eq_self
  · rw [extractLsb'_append_eq_of_le (by decide), extractLsb'_append_eq_of_le (by decide),
      extractLsb'_append_eq_of_add_le (by decide)]
    exact extractLsb'_eq_self
  · rw [extractLsb'_append_eq_of_le (by decide), extractLsb'_append_eq_of_le (by decide),
      extractLsb'_append_eq_of_le (by decide), extractLsb'_append_eq_of_le (by decide),
      extractLsb'_append_eq_of_add_le (by decide)]
    exact extractLsb'_eq_self
  · rw [extractLsb'_append_eq_of_add_le (by decide)]
    exact extractLsb'_eq_self

/-- Twice bits 6:1 of a lane offset is the register's offset. -/
theorem laneOffset_slot {c : Config} (h : c.Wf) (x : VReg) (hi : Bool) :
    2 * (extractLsb' 1 6 (laneOffset c x hi)).toNat = c.voff x := by
  have h1 := voff_lt h x
  have h2 := voff_even h x
  simp only [laneOffset, extractLsb'_toNat, toNat_ofNat, Nat.shiftRight_eq_div_pow]
  cases hi <;> simp <;> omega

/-- Bit 0 of a lane offset is the lane. -/
theorem laneOffset_lane {c : Config} (h : c.Wf) (x : VReg) (hi : Bool) : (laneOffset c x hi).getLsbD 0 = hi := by
  have h2 := voff_even h x
  rw [laneOffset, getLsbD_ofNat, Nat.testBit_zero]
  cases hi <;> simp <;> omega

/-- Decoding the word of a level-2 video access. -/
theorem decode_vslotWord (c : Config) (off : BitVec 7) (size : BitVec 2) (we : BitVec 1) (d : Half) :
    decode c (vslotWord off size we d) =
      match (match we, size with
        | 0b0#1, 0b00#2 => .ok (.readByte (off.getLsbD 0))
        | 0b0#1, 0b01#2 => .ok .readHalf
        | 0b1#1, 0b00#2 => .ok (.writeByte (off.getLsbD 0) (extractLsb' 0 8 d))
        | 0b1#1, 0b01#2 => .ok (.writeHalf d)
        | _, _ => .error .reservedWord : Except Reject VAccess) with
      | .error e => .error e
      | .ok acc =>
        match c.vregAt (2 * (extractLsb' 1 6 off).toNat) with
        | some x => .ok (Instr.ofVReg acc x)
        | none => .ok (Instr.atVHole (off.setWidth 32) acc) := by
  obtain ⟨h1, h2, h3, h4, h5, h6, h7, h8, h9⟩ := vslot_fields off size we d
  unfold vslotWord decode decodeVslot decodeVAccess
  simp only [h1, h2, h3, h4, h5, h6, h7, h8, h9, ne_eq, not_true_eq_false, or_self, if_false] <;> rfl

/-- Decoding the word of a level-2 peripheral access. -/
theorem decode_pslotWord (c : Config) (off : BitVec 6) (we : BitVec 1) (d : Byte) :
    decode c (pslotWord off we d) =
      match c.pregAt off.toNat with
      | some x => .ok (Instr.ofPReg (if we = 0#1 then .read else .write d) x)
      | none => .ok (Instr.atPHole (off.setWidth 32) (if we = 0#1 then .read else .write d)) := by
  obtain ⟨h1, h2, h3, h4, h5⟩ := pslot_fields off we d
  unfold pslotWord decode decodePslot decodePAccess
  simp only [h1, h2, h3, h4, h5, ne_eq, not_true_eq_false, or_self, if_false]
  by_cases hw : we = 0#1 <;> simp only [hw, if_true, if_false] <;> rfl

end Sys2Proof.Laws
end

