-- ==== Sys2Proof/Laws/Exec.lean ====
section
/-! SUPPORT. What one operation and one step can do, said once. -/

namespace Sys2Proof.Laws

open Sys2Proof Sys2Proof.Machine

/-- A read-type operation completes and changes nothing but the result (20_memory.md R85). -/
theorem exec_read {i : Instr} (h : isRead i = true) (s : State) : ∃ r, exec i s = .next (s.put s.arch r) := by
  have hv : ∀ (x : VReg) (acc : VAccess), vaccReads acc = true → ∃ r, vregAccess x acc s = .next (s.put s.arch r) := by
    intro x acc ha; cases acc <;> first | exact ⟨_, rfl⟩ | cases ha
  have hp : ∀ (x : PReg) (acc : PAccess), paccReads acc = true → ∃ r, pregAccess x acc s = .next (s.put s.arch r) := by
    intro x acc ha; cases acc <;> first | exact ⟨_, rfl⟩ | cases ha
  cases i <;> first | exact ⟨_, rfl⟩ | exact hv _ _ h | exact hp _ _ h | cases h

/-- An operation is not both a read and a write. -/
theorem isWrite_of_isRead {i : Instr} (h : isRead i = true) : isWrite i = false := by
  cases i <;> first | rfl | cases h | exact congrArg Bool.not h

/-- `RESTORE` completes only with a well-formed snapshot (44_events.md R308). -/
theorem exec_restore {s t : State} (h : exec .restore s = .next t) :
    ∃ x, s.snapIn = some x ∧ x.mem.Fits s.cfg ∧ t = s.put x .none := by
  replace h : execRestore s = .next t := h
  rcases hx : s.snapIn with _ | x
  · simp only [execRestore, hx] at h
    cases h
  · by_cases hf : x.mem.Fits s.cfg
    · simp only [execRestore, hx, if_pos hf] at h
      exact ⟨x, rfl, hf, (answer_eq_next.mp h).symm⟩
    · simp only [execRestore, hx, if_neg hf] at h
      cases h

/-- The tuple after a read or write access. -/
def accessArch (i : Instr) (s : State) : Arch := if isWrite i then writeEffect s.cfg i s.arch else s.arch

theorem accessArch_write {i : Instr} {s : State} (h : isWrite i = true) : accessArch i s = writeEffect s.cfg i s.arch :=
  if_pos h

theorem accessArch_read {i : Instr} {s : State} (h : isWrite i = false) : accessArch i s = s.arch :=
  if_neg (Bool.eq_false_iff.mp h)

/-- The tuple after an operation that completes: the events one by one, then the write accesses; a read leaves it. -/
def nextArch (i : Instr) (s : State) : Arch :=
  match i with
  | .reset => Arch.atReset s.cfg
  | .ttick => { s.arch with per := timerTick s.arch.per }
  | .rtick =>
    { s.arch with vid := { raisePending (frameBits s.cfg s.arch.vid) s.arch.vid with fcnt := nextFrame s.arch.vid } }
  | .vraise m => { s.arch with vid := raisePending m s.arch.vid }
  | .vstat v => { s.arch with vid := { s.arch.vid with dpstts := v } }
  | .vcta v => { s.arch with vid := { s.arch.vid with cta := v } }
  | .serrx v => { s.arch with per := { s.arch.per with shb := v.extractLsb' 8 8, slb := v.extractLsb' 0 8 } }
  | .comrx v => { s.arch with per := { s.arch.per with cdrr := v } }
  | .pstat x v => { s.arch with per := (pstatus s.cfg v s.arch.per x).getD s.arch.per }
  | .restore => s.snapIn.getD s.arch
  | .tdrvOn _ => { s.arch with tdrv := true }
  | .tdrvOff => { s.arch with tdrv := false }
  | .rdrvOn => { s.arch with rdrv := true }
  | .rdrvOff => { s.arch with rdrv := false }
  | i => accessArch i s

theorem nextArch_pstat (x : PReg) (v : Byte) (s : State) : nextArch (.pstat x v) s =
    { s.arch with per := (pstatus s.cfg v s.arch.per x).getD s.arch.per } := rfl

theorem nextArch_restore (s : State) : nextArch .restore s = s.snapIn.getD s.arch := rfl

theorem nextArch_write {i : Instr} (h : isWrite i = true) (s : State) : nextArch i s = writeEffect s.cfg i s.arch := by
  cases i <;> first | (cases h; done) | exact accessArch_write h

theorem nextArch_read {i : Instr} (h : isRead i = true) (s : State) : nextArch i s = s.arch := by
  have hw := isWrite_of_isRead h
  cases i <;> first | (cases h; done) | exact accessArch_read hw

/-- The operations that are neither reads nor writes: the events. -/
def isEvent : Instr → Bool
  | .reset | .ttick | .rtick | .vraise _ | .vstat _ | .vcta _ | .serrx _ | .comrx _ | .pstat _ _ | .restore
  | .tdrvOn _ | .tdrvOff | .rdrvOn | .rdrvOff => true
  | _ => false

theorem isEvent_of {i : Instr} (hr : isRead i = false) (hw : isWrite i = false) : isEvent i = true := by
  cases i <;> first | rfl | (cases hr; done) | (cases hw; done) | (rename_i acc; cases acc <;> first | (cases hr; done) | cases hw)

/-- Everything an operation can do: if it completes, the tuple is `nextArch` and, the result apart, nothing else of the
state changes. -/
theorem exec_next {i : Instr} {s t : State} (h : exec i s = .next t) : ∃ r, t = s.put (nextArch i s) r := by
  rcases hr : isRead i with _ | _
  · rcases hw : isWrite i with _ | _
    · have he := isEvent_of hr hw
      clear hr hw
      cases i
      case pstat x v =>
        replace h : execPstat x v s = .next t := h
        rcases hp : pstatus s.cfg v s.arch.per x with _ | p
        · simp only [execPstat, hp] at h
          cases h
        · simp only [execPstat, hp] at h
          refine ⟨.none, ?_⟩
          rw [nextArch_pstat, hp]
          exact (answer_eq_next.mp h).symm
      case restore =>
        obtain ⟨x, hx, -, ht⟩ := exec_restore h
        exact ⟨.none, by rw [ht, nextArch_restore, hx]; rfl⟩
      all_goals first
        | (cases he; done)
        | exact ⟨.none, (answer_eq_next.mp h).symm⟩
    · rw [exec_write hw] at h
      injection h with h
      exact ⟨.none, by rw [← h, nextArch_write hw]⟩
  · obtain ⟨r, hr'⟩ := exec_read hr s
    rw [hr'] at h
    injection h with h
    exact ⟨r, by rw [← h, nextArch_read hr]⟩

theorem exec_arch {i : Instr} {s t : State} (h : exec i s = .next t) : t.arch = nextArch i s := by
  obtain ⟨r, rfl⟩ := exec_next h; rfl

theorem exec_cfg {i : Instr} {s t : State} (h : exec i s = .next t) : t.cfg = s.cfg := by
  obtain ⟨r, rfl⟩ := exec_next h; rfl

theorem exec_inbox {i : Instr} {s t : State} (h : exec i s = .next t) : t.inbox = s.inbox := by
  obtain ⟨r, rfl⟩ := exec_next h; rfl

theorem exec_snapIn {i : Instr} {s t : State} (h : exec i s = .next t) : t.snapIn = s.snapIn := by
  obtain ⟨r, rfl⟩ := exec_next h; rfl

/-- A property of the tuple after an operation, by cases: a read, a write access, an event. -/
theorem nextArch_cases {i : Instr} {s : State} {P : Arch → Prop} (hr : P s.arch)
    (hw : isWrite i = true → P (writeEffect s.cfg i s.arch)) (he : isEvent i = true → P (nextArch i s)) :
    P (nextArch i s) := by
  rcases h1 : isRead i with _ | _
  · rcases h2 : isWrite i with _ | _
    · exact he (isEvent_of h1 h2)
    · rw [nextArch_write h2]; exact hw h2
  · rw [nextArch_read h1]; exact hr

/-- A sequence of operations after another (20_memory.md R91). -/
theorem execAll_append {l l' : List Instr} {s t : State} (h : execAll l s = .next t) :
    execAll (l ++ l') s = execAll l' t := by
  induction l generalizing s with
  | nil => injection h with h; rw [h]; rfl
  | cons i u ih =>
    simp only [List.cons_append, execAll] at h ⊢
    rcases he : exec i s with x | x | x <;> rw [he] at h <;> first | exact ih h | cases h

/-- The arrays keep their lengths (10_state.md R24 to R27). -/
theorem exec_fits {i : Instr} {s t : State} (hs : s.Inv) (h : exec i s = .next t) : t.arch.mem.Fits s.cfg := by
  by_cases hre : i = .restore
  · subst hre
    obtain ⟨x, _, hf, rfl⟩ := exec_restore h
    exact hf
  · rw [exec_arch h]
    rcases hr : isRead i with _ | _
    · rcases hw : isWrite i with _ | _
      · have he := isEvent_of hr hw
        clear hr hw h
        cases i
        case reset => exact hs.1.2.2.2.2.2.1
        all_goals first | (cases he; done) | exact hs.2 | exact absurd rfl hre
      · rw [nextArch_write hw, writeEffect_mem]
        exact fits_storeEffect hs.1 _ hs.2
    · rw [nextArch_read hr]
      exact hs.2

/-- Everything a step can do: stay idle, or perform the next operation. -/
theorem step_next {s t : State} (h : step s = .next t) : s.cfg.Wf ∧
    ((s.inbox = [] ∧ t = s) ∨ ∃ q rest i, s.inbox = q :: rest ∧ decode s.cfg q.raw = .ok i ∧
      exec i (s.accept q rest) = .next t) := by
  unfold step at h
  split at h
  · next hwf =>
    refine ⟨hwf, ?_⟩
    split at h
    · next hi => injection h with h; exact .inl ⟨hi, h.symm⟩
    · next q rest hi =>
      split at h
      · next i hd => exact .inr ⟨q, rest, i, hi, hd, h⟩
      · cases h
  · cases h

end Sys2Proof.Laws
end

