-- ==== Sys2Proof/Laws/PerInstr.lean ====
section
/-! SUPPORT. Statements made of every operation: no canonical word is reserved (30_encoding.md R118). -/

namespace Sys2Proof.Laws

open Sys2Proof Sys2Proof.Machine

/-- The word is not reserved: a legal `op` byte, or a level-2 word with its zero bits zero and size byte or halfword. -/
def NotReservedWord : Raw → Prop
  | .opw w => opField w ∈ legalOps
  | .vslot w => w.extractLsb' 7 1 = 0#1 ∧ w.extractLsb' 11 5 = 0#5 ∧ (w.extractLsb' 8 2).toNat ≤ 1
  | .pslot w => w.extractLsb' 6 4 = 0#4 ∧ w.extractLsb' 11 5 = 0#5

/-- The canonical word of the operation is not reserved, under every configuration. -/
def NotReserved.Statement (i : Instr) : Prop := ∀ c : Config, NotReservedWord (encode c i)

theorem notReserved_opWord (op : BitVec 8) (a d : Word) (h : op ∈ legalOps) : NotReservedWord (opWord op a d) := by
  show opField (op ++ a ++ d : BitVec (8 + 32 + 32)) ∈ legalOps
  rw [opField_append]
  exact h

theorem notReserved_encodeV (c : Config) (x : VReg) (acc : VAccess) : NotReservedWord (encodeV c x acc) := by
  have key : ∀ off size we d, (size : BitVec 2).toNat ≤ 1 → NotReservedWord (vslotWord off size we d) := by
    intro off size we d hs
    obtain ⟨h1, h2, -, h4, -⟩ := vslot_fields off size we d
    exact ⟨h1, h2, by rw [h4]; exact hs⟩
  cases acc <;> exact key _ _ _ _ (by decide)

theorem notReserved_encodeP (c : Config) (x : PReg) (acc : PAccess) : NotReservedWord (encodeP c x acc) := by
  have key : ∀ off we d, NotReservedWord (pslotWord off we d) := by
    intro off we d
    obtain ⟨h1, h2, -⟩ := pslot_fields off we d
    exact ⟨h1, h2⟩
  cases acc <;> exact key _ _ _

theorem NotReserved.rdB (addr : Word) : NotReserved.Statement (.rdB addr) := fun _ => notReserved_opWord _ _ _ (by decide)
theorem NotReserved.rdH (addr : Word) : NotReserved.Statement (.rdH addr) := fun _ => notReserved_opWord _ _ _ (by decide)
theorem NotReserved.rdW (addr : Word) : NotReserved.Statement (.rdW addr) := fun _ => notReserved_opWord _ _ _ (by decide)
theorem NotReserved.wrB (addr : Word) (d : Byte) : NotReserved.Statement (.wrB addr d) := fun _ => notReserved_opWord _ _ _ (by decide)
theorem NotReserved.wrH (addr : Word) (d : Half) : NotReserved.Statement (.wrH addr d) := fun _ => notReserved_opWord _ _ _ (by decide)
theorem NotReserved.wrW (addr : Word) (d : Word) : NotReserved.Statement (.wrW addr d) := fun _ => notReserved_opWord _ _ _ (by decide)
theorem NotReserved.vrdB (addr : Word) : NotReserved.Statement (.vrdB addr) := fun _ => notReserved_opWord _ _ _ (by decide)
theorem NotReserved.vrdH (addr : Word) : NotReserved.Statement (.vrdH addr) := fun _ => notReserved_opWord _ _ _ (by decide)
theorem NotReserved.vrdW (addr : Word) : NotReserved.Statement (.vrdW addr) := fun _ => notReserved_opWord _ _ _ (by decide)
theorem NotReserved.vwrB (addr : Word) (d : Byte) : NotReserved.Statement (.vwrB addr d) := fun _ => notReserved_opWord _ _ _ (by decide)
theorem NotReserved.vwrH (addr : Word) (d : Half) : NotReserved.Statement (.vwrH addr d) := fun _ => notReserved_opWord _ _ _ (by decide)
theorem NotReserved.vwrW (addr : Word) (d : Word) : NotReserved.Statement (.vwrW addr d) := fun _ => notReserved_opWord _ _ _ (by decide)
theorem NotReserved.prdB (addr : Word) : NotReserved.Statement (.prdB addr) := fun _ => notReserved_opWord _ _ _ (by decide)
theorem NotReserved.prdH (addr : Word) : NotReserved.Statement (.prdH addr) := fun _ => notReserved_opWord _ _ _ (by decide)
theorem NotReserved.prdW (addr : Word) : NotReserved.Statement (.prdW addr) := fun _ => notReserved_opWord _ _ _ (by decide)
theorem NotReserved.pwrB (addr : Word) (d : Byte) : NotReserved.Statement (.pwrB addr d) := fun _ => notReserved_opWord _ _ _ (by decide)
theorem NotReserved.pwrH (addr : Word) (d : Half) : NotReserved.Statement (.pwrH addr d) := fun _ => notReserved_opWord _ _ _ (by decide)
theorem NotReserved.pwrW (addr : Word) (d : Word) : NotReserved.Statement (.pwrW addr d) := fun _ => notReserved_opWord _ _ _ (by decide)
theorem NotReserved.reset : NotReserved.Statement .reset := fun _ => notReserved_opWord _ _ _ (by decide)
theorem NotReserved.ttick : NotReserved.Statement .ttick := fun _ => notReserved_opWord _ _ _ (by decide)
theorem NotReserved.rtick : NotReserved.Statement .rtick := fun _ => notReserved_opWord _ _ _ (by decide)
theorem NotReserved.vraise (mask : Half) : NotReserved.Statement (.vraise mask) := fun _ => notReserved_opWord _ _ _ (by decide)
theorem NotReserved.vstat (v : Half) : NotReserved.Statement (.vstat v) := fun _ => notReserved_opWord _ _ _ (by decide)
theorem NotReserved.vcta (v : Half) : NotReserved.Statement (.vcta v) := fun _ => notReserved_opWord _ _ _ (by decide)
theorem NotReserved.serrx (v : Half) : NotReserved.Statement (.serrx v) := fun _ => notReserved_opWord _ _ _ (by decide)
theorem NotReserved.comrx (v : Byte) : NotReserved.Statement (.comrx v) := fun _ => notReserved_opWord _ _ _ (by decide)
theorem NotReserved.pstat (x : PReg) (v : Byte) : NotReserved.Statement (.pstat x v) := fun _ => notReserved_opWord _ _ _ (by decide)
theorem NotReserved.irqq : NotReserved.Statement .irqq := fun _ => notReserved_opWord _ _ _ (by decide)
theorem NotReserved.snap : NotReserved.Statement .snap := fun _ => notReserved_opWord _ _ _ (by decide)
theorem NotReserved.restore : NotReserved.Statement .restore := fun _ => notReserved_opWord _ _ _ (by decide)
theorem NotReserved.tdrvOn (interval : Word) : NotReserved.Statement (.tdrvOn interval) := fun _ => notReserved_opWord _ _ _ (by decide)
theorem NotReserved.tdrvOff : NotReserved.Statement .tdrvOff := fun _ => notReserved_opWord _ _ _ (by decide)
theorem NotReserved.rdrvOn : NotReserved.Statement .rdrvOn := fun _ => notReserved_opWord _ _ _ (by decide)
theorem NotReserved.rdrvOff : NotReserved.Statement .rdrvOff := fun _ => notReserved_opWord _ _ _ (by decide)
theorem NotReserved.intpnd (acc : VAccess) : NotReserved.Statement (.intpnd acc) := fun _ => notReserved_encodeV _ _ _
theorem NotReserved.intenb (acc : VAccess) : NotReserved.Statement (.intenb acc) := fun _ => notReserved_encodeV _ _ _
theorem NotReserved.intclr (acc : VAccess) : NotReserved.Statement (.intclr acc) := fun _ => notReserved_encodeV _ _ _
theorem NotReserved.dpstts (acc : VAccess) : NotReserved.Statement (.dpstts acc) := fun _ => notReserved_encodeV _ _ _
theorem NotReserved.dpctrl (acc : VAccess) : NotReserved.Statement (.dpctrl acc) := fun _ => notReserved_encodeV _ _ _
theorem NotReserved.brta (acc : VAccess) : NotReserved.Statement (.brta acc) := fun _ => notReserved_encodeV _ _ _
theorem NotReserved.brtb (acc : VAccess) : NotReserved.Statement (.brtb acc) := fun _ => notReserved_encodeV _ _ _
theorem NotReserved.brtc (acc : VAccess) : NotReserved.Statement (.brtc acc) := fun _ => notReserved_encodeV _ _ _
theorem NotReserved.rest (acc : VAccess) : NotReserved.Statement (.rest acc) := fun _ => notReserved_encodeV _ _ _
theorem NotReserved.frmcyc (acc : VAccess) : NotReserved.Statement (.frmcyc acc) := fun _ => notReserved_encodeV _ _ _
theorem NotReserved.cta (acc : VAccess) : NotReserved.Statement (.cta acc) := fun _ => notReserved_encodeV _ _ _
theorem NotReserved.ver (acc : VAccess) : NotReserved.Statement (.ver acc) := fun _ => notReserved_encodeV _ _ _
theorem NotReserved.splt0 (acc : VAccess) : NotReserved.Statement (.splt0 acc) := fun _ => notReserved_encodeV _ _ _
theorem NotReserved.splt1 (acc : VAccess) : NotReserved.Statement (.splt1 acc) := fun _ => notReserved_encodeV _ _ _
theorem NotReserved.splt2 (acc : VAccess) : NotReserved.Statement (.splt2 acc) := fun _ => notReserved_encodeV _ _ _
theorem NotReserved.splt3 (acc : VAccess) : NotReserved.Statement (.splt3 acc) := fun _ => notReserved_encodeV _ _ _
theorem NotReserved.oplt0 (acc : VAccess) : NotReserved.Statement (.oplt0 acc) := fun _ => notReserved_encodeV _ _ _
theorem NotReserved.oplt1 (acc : VAccess) : NotReserved.Statement (.oplt1 acc) := fun _ => notReserved_encodeV _ _ _
theorem NotReserved.oplt2 (acc : VAccess) : NotReserved.Statement (.oplt2 acc) := fun _ => notReserved_encodeV _ _ _
theorem NotReserved.oplt3 (acc : VAccess) : NotReserved.Statement (.oplt3 acc) := fun _ => notReserved_encodeV _ _ _
theorem NotReserved.bkcol (acc : VAccess) : NotReserved.Statement (.bkcol acc) := fun _ => notReserved_encodeV _ _ _
theorem NotReserved.ccr (acc : PAccess) : NotReserved.Statement (.ccr acc) := fun _ => notReserved_encodeP _ _ _
theorem NotReserved.ccsr (acc : PAccess) : NotReserved.Statement (.ccsr acc) := fun _ => notReserved_encodeP _ _ _
theorem NotReserved.cdtr (acc : PAccess) : NotReserved.Statement (.cdtr acc) := fun _ => notReserved_encodeP _ _ _
theorem NotReserved.cdrr (acc : PAccess) : NotReserved.Statement (.cdrr acc) := fun _ => notReserved_encodeP _ _ _
theorem NotReserved.slb (acc : PAccess) : NotReserved.Statement (.slb acc) := fun _ => notReserved_encodeP _ _ _
theorem NotReserved.shb (acc : PAccess) : NotReserved.Statement (.shb acc) := fun _ => notReserved_encodeP _ _ _
theorem NotReserved.tlb (acc : PAccess) : NotReserved.Statement (.tlb acc) := fun _ => notReserved_encodeP _ _ _
theorem NotReserved.thb (acc : PAccess) : NotReserved.Statement (.thb acc) := fun _ => notReserved_encodeP _ _ _
theorem NotReserved.tcr (acc : PAccess) : NotReserved.Statement (.tcr acc) := fun _ => notReserved_encodeP _ _ _
theorem NotReserved.wcr (acc : PAccess) : NotReserved.Statement (.wcr acc) := fun _ => notReserved_encodeP _ _ _
theorem NotReserved.scr (acc : PAccess) : NotReserved.Statement (.scr acc) := fun _ => notReserved_encodeP _ _ _

end Sys2Proof.Laws
end

