-- ==== Sys2Proof/Laws/Ports.lean ====
section
/-! SUPPORT. What each direct-port operation answers, by its offset in the block (40_bus_ops.md R149 to R169). -/

namespace Sys2Proof.Laws

open Sys2Proof Sys2Proof.Machine

theorem portOffset_vblk (addr : Word) (sz : Size) :
    portOffset vblkSize addr sz = addr.toNat % 0x80 / sz.bytes * sz.bytes := by
  unfold portOffset vblkSize
  rw [align_toNat, BitVec.toNat_umod, BitVec.toNat_ofNat]

theorem portOffset_pblk (addr : Word) (sz : Size) :
    portOffset pblkSize addr sz = addr.toNat % 0x40 / sz.bytes * sz.bytes := by
  unfold portOffset pblkSize
  rw [align_toNat, BitVec.toNat_umod, BitVec.toNat_ofNat]

/-! ## Video block -/

theorem exec_vrdB (s : State) (addr : Word) : exec (.vrdB addr) s =
    .next (s.put s.arch (.byte (laneOf (oddLane (addr.toNat % 0x80))
      (vregRead s.cfg s.arch.vid (addr.toNat % 0x80 / 2 * 2))))) := by
  show Host.Outcome.next _ = _
  unfold vportRead
  rw [portOffset_vblk]
  simp only [Size.bytes, Nat.div_one, Nat.mul_one, vblkRead]
  rw [BitVec.setWidth_setWidth_of_le _ (by decide), BitVec.setWidth_eq]

theorem exec_vrdH (s : State) (addr : Word) : exec (.vrdH addr) s =
    .next (s.put s.arch (.half (vregRead s.cfg s.arch.vid (addr.toNat % 0x80 / 2 * 2)))) := by
  show Host.Outcome.next _ = _
  unfold vportRead
  rw [portOffset_vblk]
  simp only [Size.bytes, vblkRead]
  rw [BitVec.setWidth_setWidth_of_le _ (by decide), BitVec.setWidth_eq]

theorem exec_vrdW (s : State) (addr : Word) : exec (.vrdW addr) s =
    .next (s.put s.arch (.word (vregRead s.cfg s.arch.vid (addr.toNat % 0x80 / 4 * 4 + 2) ++
      vregRead s.cfg s.arch.vid (addr.toNat % 0x80 / 4 * 4)))) := by
  show Host.Outcome.next _ = _
  unfold vportRead
  rw [portOffset_vblk]
  rfl

theorem exec_vwrB (s : State) (addr : Word) (d : Byte) : exec (.vwrB addr d) s =
    .next (s.put { s.arch with vid := (vregWrite s.cfg (placeLane (oddLane (addr.toNat % 0x80)) d)
      (laneMask (oddLane (addr.toNat % 0x80))) s.arch.vid (addr.toNat % 0x80 / 2 * 2)) } .none) := by
  show Host.Outcome.next _ = _
  unfold vportWrite
  rw [portOffset_vblk]
  simp only [Size.bytes, Nat.div_one, Nat.mul_one, vblkWrite, byteAt_byte]

theorem exec_vwrH (s : State) (addr : Word) (d : Half) : exec (.vwrH addr d) s =
    .next (s.put { s.arch with vid := vregWrite s.cfg d 0xFFFF s.arch.vid (addr.toNat % 0x80 / 2 * 2) } .none) := by
  show Host.Outcome.next _ = _
  unfold vportWrite
  rw [portOffset_vblk]
  simp only [Size.bytes, vblkWrite]
  rw [BitVec.extractLsb'_setWidth_of_le (by decide), BitVec.extractLsb'_eq_self]

theorem exec_vwrW (s : State) (addr d : Word) : exec (.vwrW addr d) s =
    .next (s.put { s.arch with vid := (vregWrite s.cfg (d.extractLsb' 16 16) 0xFFFF
      (vregWrite s.cfg (d.extractLsb' 0 16) 0xFFFF s.arch.vid (addr.toNat % 0x80 / 4 * 4))
      (addr.toNat % 0x80 / 4 * 4 + 2)) } .none) := by
  show Host.Outcome.next _ = _
  unfold vportWrite
  rw [portOffset_vblk]
  rfl

/-! ## Peripheral block -/

theorem exec_prdB (s : State) (addr : Word) : exec (.prdB addr) s =
    .next (s.put s.arch (.byte (pblkByte s.cfg s.arch.per (addr.toNat % 0x40)))) := by
  show Host.Outcome.next _ = _
  unfold pportRead
  rw [portOffset_pblk]
  show Host.Outcome.next (s.put s.arch (.byte ((ofBytes [_]).setWidth 8))) = _
  rw [ofBytes_one]
  simp only [Size.bytes, Nat.div_one, Nat.mul_one, Nat.add_zero]

theorem exec_prdH (s : State) (addr : Word) : exec (.prdH addr) s =
    .next (s.put s.arch (.half (pblkByte s.cfg s.arch.per (addr.toNat % 0x40 / 2 * 2 + 1) ++
      pblkByte s.cfg s.arch.per (addr.toNat % 0x40 / 2 * 2)))) := by
  show Host.Outcome.next _ = _
  unfold pportRead
  rw [portOffset_pblk]
  show Host.Outcome.next (s.put s.arch (.half ((ofBytes [_, _]).setWidth 16))) = _
  rw [ofBytes_two]
  rfl

theorem exec_prdW (s : State) (addr : Word) : exec (.prdW addr) s =
    .next (s.put s.arch (.word (pblkByte s.cfg s.arch.per (addr.toNat % 0x40 / 4 * 4 + 3) ++
      pblkByte s.cfg s.arch.per (addr.toNat % 0x40 / 4 * 4 + 2) ++
      pblkByte s.cfg s.arch.per (addr.toNat % 0x40 / 4 * 4 + 1) ++
      pblkByte s.cfg s.arch.per (addr.toNat % 0x40 / 4 * 4)))) := by
  show Host.Outcome.next _ = _
  unfold pportRead
  rw [portOffset_pblk]
  show Host.Outcome.next (s.put s.arch (.word (ofBytes [_, _, _, _]))) = _
  rw [ofBytes_four]
  rfl

/-- A write of the peripheral port reaches the register at the aligned offset, once (40_bus_ops.md R157). -/
theorem pportWrite_eq (s : State) (addr : Word) (sz : Size) (v : Word) :
    pportWrite s addr sz v = pblkWrite s.cfg s.arch (addr.toNat % 0x40 / sz.bytes * sz.bytes) v := by
  unfold pportWrite
  rw [portOffset_pblk]

/-- A byte of the block that is not at a multiple of four is a hole (30_encoding.md R122, R124). -/
theorem pblkByte_hole {c : Config} {p : PeriphRegs} {o : Nat} (h : o % 4 ≠ 0) : pblkByte c p o = c.fillByte := if_neg h

end Sys2Proof.Laws
end

