-- ==== Sys2Proof/Tests/Slice0.lean ====
section
/-! SUPPORT. Tests: the well-formedness checks, the decoding of words written out from the spec's encodings, single
operations with results taken from 95_test_vectors.md, and a witness for the hypotheses of every statement. -/

namespace Sys2Proof.Tests

open Sys2Proof Sys2Proof.Machine

/-! ## Helpers -/

/-- A state under CFG_REF with a given tuple. -/
def holding (a : Arch) : State := { State.reset with arch := a }

/-- The reset tuple with given video registers. -/
def withVid (v : VideoRegs) : State := holding { State.reset.arch with vid := v }

/-- The reset tuple with given peripheral registers. -/
def withPer (p : PeriphRegs) : State := holding { State.reset.arch with per := p }

/-- The reset tuple with given stores. -/
def withMem (m : Memory) : State := holding { State.reset.arch with mem := m }

/-- An operation word, decoded and performed. -/
def perform (w : BitVec 72) (s : State) : Host.Outcome State Fault Refusal :=
  match decode s.cfg (.opw w) with
  | .ok i => exec i s
  | .error e => .refused (refusalOf e)

/-- What an outcome returned. -/
def resultOf : Host.Outcome State Fault Refusal → Option Result
  | .next t => some t.result
  | _ => none

/-- The tuple of an outcome. -/
def archOf : Host.Outcome State Fault Refusal → Option Arch
  | .next t => some t.arch
  | _ => none

/-- The video registers of an outcome. -/
def vidOf (o : Host.Outcome State Fault Refusal) : Option VideoRegs := (archOf o).map (·.vid)

/-- The peripheral registers of an outcome. -/
def perOf (o : Host.Outcome State Fault Refusal) : Option PeriphRegs := (archOf o).map (·.per)

/-- The stores of an outcome. -/
def memOf (o : Host.Outcome State Fault Refusal) : Option Memory := (archOf o).map (·.mem)

/-- Working RAM after vector V1: DD CC BB AA. -/
def memV1 : Memory := { Memory.empty with wram := [(0, 0xDD), (1, 0xCC), (2, 0xBB), (3, 0xAA)] }

/-- The premise of 95_test_vectors.md: ROM_IMAGE[0..3] is 11 22 33 44. -/
def memRom : Memory := { Memory.empty with rom := [(0, 0x11), (1, 0x22), (2, 0x33), (3, 0x44)] }

/-! ## Well-formedness: a term that each check refuses -/

theorem test_wf_reset_config : Config.ref.Wf := by decide
theorem test_wf_pstat_refuses_tcr : Instr.wf (.pstat .tcr 0xFF) = false := by decide
theorem test_wf_pstat_admits_scr : Instr.wf (.pstat .scr 0xFF) = true := by decide
theorem test_wf_refuses_falling_offsets : ¬ ByteStore.Canon [(2, 0x01), (1, 0x02)] := by decide
theorem test_wf_refuses_repeated_offset : ¬ ByteStore.Canon [(1, 0x01), (1, 0x02)] := by decide
theorem test_wf_refuses_listed_zero : ¬ ByteStore.Canon [(1, 0x00)] := by decide
theorem test_wf_refuses_offset_past_end : ¬ ByteStore.HasLength [(4, 0x01)] 4 := by decide
theorem test_wf_admits_last_offset : ByteStore.HasLength [(3, 0x01)] 4 := by decide
theorem test_wf_memory_refuses_listed_zero : ¬ Memory.wf { Memory.empty with aram := [(0, 0x00)] } := by decide

/-- (a) working RAM moved onto ROM. -/
theorem test_wf_a_refuses_overlap :
    ¬ Config.WfDisjoint { Config.ref with wramWin := { Config.ref.wramWin with base := 0x07000000 } } := by decide
/-- (b) ROM moved above ADDR_MASK. -/
theorem test_wf_b_refuses_window_outside_mask :
    ¬ Config.WfInside { Config.ref with romWin := { Config.ref.romWin with base := 0x08000000 } } := by decide
/-- (b) the last byte of the window is ADDR_MASK, and one past it. -/
theorem test_wf_b_boundary : Config.WfInside Config.ref ∧
    ¬ Config.WfInside { Config.ref with romWin := { Config.ref.romWin with base := 0x07000004 } } := by decide
/-- (c) a base that is not a multiple of 4. -/
theorem test_wf_c_refuses_unaligned_base : ¬ Config.WfAligned { Config.ref with vblkBase := 0x0005F802 } := by decide
/-- (c) a backing size that is not a multiple of 4. -/
theorem test_wf_c_refuses_unaligned_backing :
    ¬ Config.WfAligned { Config.ref with aramWin := { Config.ref.aramWin with backSize := 0x7FE } } := by decide
/-- (d) backing larger than the window; backing below 4. -/
theorem test_wf_d_refuses_sizes :
    ¬ Config.WfSizes { Config.ref with vramWin := { Config.ref.vramWin with backSize := 0x40004 } } ∧
    ¬ Config.WfSizes { Config.ref with vramWin := { Config.ref.vramWin with backSize := 0 } } := by decide
/-- (e) a writable ROM; a read-only RAM. -/
theorem test_wf_e_refuses_rights :
    ¬ Config.WfWritable { Config.ref with romWin := { Config.ref.romWin with writable := true } } ∧
    ¬ Config.WfWritable { Config.ref with aramWin := { Config.ref.aramWin with writable := false } } := by decide
/-- (f) an image longer than the backing store. -/
theorem test_wf_f_refuses_long_image :
    ¬ Config.WfImages { Config.ref with image := { Memory.empty with aram := [(0x800, 0x01)] } } := by decide
/-- (g) two registers at one offset; an odd video offset; an offset past the block. -/
theorem test_wf_g_refuses_offsets :
    ¬ Config.WfOffsets { Config.ref with vOff := { VOffsets.ref with brta := 0x22 } } ∧
    ¬ Config.WfOffsets { Config.ref with vOff := { VOffsets.ref with brta := 0x25 } } ∧
    ¬ Config.WfOffsets { Config.ref with pOff := { POffsets.ref with scr := 0x24 } } ∧
    ¬ Config.WfOffsets { Config.ref with pOff := { POffsets.ref with scr := 0x40 } } := by decide
/-- An ill-formed configuration is refused by the step. -/
theorem test_step_refuses_ill_formed_config :
    step { State.reset with cfg := { Config.ref with vblkBase := 0 } } = .refused .illFormedConfig := by
  exact if_neg (by decide)

/-! ## Decoding: words written out from 30_encoding.md R110 to R116, one for each operation -/

theorem test_decode_bus :
    decode Config.ref (.opw 0x000500000300000000) = .ok (.rdB 0x05000003) ∧
    decode Config.ref (.opw 0x010500000300000000) = .ok (.rdH 0x05000003) ∧
    decode Config.ref (.opw 0x020D00000000000000) = .ok (.rdW 0x0D000000) ∧
    decode Config.ref (.opw 0x0401000801FFFFFF7E) = .ok (.wrB 0x01000801 0x7E) ∧
    decode Config.ref (.opw 0x0505000002FFFF1234) = .ok (.wrH 0x05000002 0x1234) ∧
    decode Config.ref (.opw 0x060500000701020304) = .ok (.wrW 0x05000007 0x01020304) := by decide

theorem test_decode_vport :
    decode Config.ref (.opw 0x400000007F00000000) = .ok (.vrdB 0x7F) ∧
    decode Config.ref (.opw 0x410000008400000000) = .ok (.vrdH 0x84) ∧
    decode Config.ref (.opw 0x420000004400000000) = .ok (.vrdW 0x44) ∧
    decode Config.ref (.opw 0x440000000312345678) = .ok (.vwrB 0x03 0x78) ∧
    decode Config.ref (.opw 0x450005F802000000FF) = .ok (.vwrH 0x0005F802 0x00FF) ∧
    decode Config.ref (.opw 0x460000004C00110022) = .ok (.vwrW 0x4C 0x00110022) := by decide

theorem test_decode_pport :
    decode Config.ref (.opw 0x800000005800000000) = .ok (.prdB 0x58) ∧
    decode Config.ref (.opw 0x810000002000000000) = .ok (.prdH 0x20) ∧
    decode Config.ref (.opw 0x820000002000000000) = .ok (.prdW 0x20) ∧
    decode Config.ref (.opw 0x840000001800000134) = .ok (.pwrB 0x18 0x34) ∧
    decode Config.ref (.opw 0x850000001C0000AB12) = .ok (.pwrH 0x1C 0xAB12) ∧
    decode Config.ref (.opw 0x8600000024FFFFFF81) = .ok (.pwrW 0x24 0xFFFFFF81) := by decide

theorem test_decode_events :
    decode Config.ref (.opw 0xC00000000000000000) = .ok .reset ∧
    decode Config.ref (.opw 0xC10000000000000000) = .ok .ttick ∧
    decode Config.ref (.opw 0xC20000000000000000) = .ok .rtick ∧
    decode Config.ref (.opw 0xC30000000000004010) = .ok (.vraise 0x4010) ∧
    decode Config.ref (.opw 0xC40000000000000040) = .ok (.vstat 0x0040) ∧
    decode Config.ref (.opw 0xC50000000000000123) = .ok (.vcta 0x0123) ∧
    decode Config.ref (.opw 0xC6000000001234BEEF) = .ok (.serrx 0xBEEF) ∧
    decode Config.ref (.opw 0xC7000000000000017E) = .ok (.comrx 0x7E) := by decide

theorem test_decode_host_events :
    decode Config.ref (.opw 0xC80000002800000102) = .ok (.pstat .scr 0x02) ∧
    decode Config.ref (.opw 0xC90000000000000000) = .ok .irqq ∧
    decode Config.ref (.opw 0xCA0000000000000000) = .ok .snap ∧
    decode Config.ref (.opw 0xCB0000000000000000) = .ok .restore ∧
    decode Config.ref (.opw 0xCC0000000000004E20) = .ok (.tdrvOn 20000) ∧
    decode Config.ref (.opw 0xCD0000000000000000) = .ok .tdrvOff ∧
    decode Config.ref (.opw 0xCE0000000000000000) = .ok .rdrvOn ∧
    decode Config.ref (.opw 0xCF0000000000000000) = .ok .rdrvOff := by decide

/-- V101: a `PSTAT` naming `TCR`; one naming a hole. -/
theorem test_decode_refuses_pstat :
    decode Config.ref (.opw 0xC800000020000000FF) = .error .pstatRegister ∧
    decode Config.ref (.opw 0xC80000002C000000FF) = .error .pstatRegister := by decide

/-- V123: the reserved words. -/
theorem test_decode_refuses_reserved :
    ∀ op ∈ [0x03#8, 0x07#8, 0x08#8, 0x10#8, 0x43#8, 0x47#8, 0x83#8, 0x87#8, 0xD0#8, 0xFF#8],
      decode Config.ref (.opw (op ++ 0#32 ++ 0#32)) = .error .reservedWord := by decide

/-- V124: ignored fields are not tested. -/
theorem test_decode_ignores_unused_fields :
    decode Config.ref (.opw 0x0005000000DEADBEEF) = decode Config.ref (.opw 0x000500000000000000) := by decide

/-- R111: bits 5:3 set outside EVENT. -/
theorem test_decode_refuses_zero_field : decode Config.ref (.opw 0x200000000000000000) = .error .reservedWord := by decide

/-! ## Decoding of the level-2 words: the offset of 30_encoding.md R121 or R123 in the low bits (log 7) -/

theorem test_decode_video_status :
    decode Config.ref (.vslot 0x00000000) = .ok (.intpnd (.readByte false)) ∧
    decode Config.ref (.vslot 0x00000003) = .ok (.intenb (.readByte true)) ∧
    decode Config.ref (.vslot 0xABCD0504) = .ok (.intclr (.writeHalf 0xABCD)) ∧
    decode Config.ref (.vslot 0x005A0421) = .ok (.dpstts (.writeByte true 0x5A)) ∧
    decode Config.ref (.vslot 0xABCD0522) = .ok (.dpctrl (.writeHalf 0xABCD)) ∧
    decode Config.ref (.vslot 0x00000025) = .ok (.brta (.readByte true)) ∧
    decode Config.ref (.vslot 0x00000126) = .ok (.brtb (.readHalf)) ∧
    decode Config.ref (.vslot 0x005A0429) = .ok (.brtc (.writeByte true 0x5A)) ∧
    decode Config.ref (.vslot 0x0000002A) = .ok (.rest (.readByte false)) := by decide

theorem test_decode_video_frame :
    decode Config.ref (.vslot 0x0000002E) = .ok (.frmcyc (.readByte false)) ∧
    decode Config.ref (.vslot 0x00000031) = .ok (.cta (.readByte true)) ∧
    decode Config.ref (.vslot 0xABCD0544) = .ok (.ver (.writeHalf 0xABCD)) := by decide

theorem test_decode_video_palette :
    decode Config.ref (.vslot 0x00000048) = .ok (.splt0 (.readByte false)) ∧
    decode Config.ref (.vslot 0x0000004B) = .ok (.splt1 (.readByte true)) ∧
    decode Config.ref (.vslot 0x0000014C) = .ok (.splt2 (.readHalf)) ∧
    decode Config.ref (.vslot 0x005A044F) = .ok (.splt3 (.writeByte true 0x5A)) ∧
    decode Config.ref (.vslot 0x00000068) = .ok (.oplt0 (.readByte false)) ∧
    decode Config.ref (.vslot 0x0000006B) = .ok (.oplt1 (.readByte true)) ∧
    decode Config.ref (.vslot 0x0000016C) = .ok (.oplt2 (.readHalf)) ∧
    decode Config.ref (.vslot 0x005A046F) = .ok (.oplt3 (.writeByte true 0x5A)) ∧
    decode Config.ref (.vslot 0xABCD0570) = .ok (.bkcol (.writeHalf 0xABCD)) := by decide

theorem test_decode_periph :
    decode Config.ref (.pslot 0x00000000) = .ok (.ccr .read) ∧
    decode Config.ref (.pslot 0x00810404) = .ok (.ccsr (.write 0x81)) ∧
    decode Config.ref (.pslot 0x00000008) = .ok (.cdtr .read) ∧
    decode Config.ref (.pslot 0x0081040C) = .ok (.cdrr (.write 0x81)) ∧
    decode Config.ref (.pslot 0x00000010) = .ok (.slb .read) ∧
    decode Config.ref (.pslot 0x00810414) = .ok (.shb (.write 0x81)) ∧
    decode Config.ref (.pslot 0x00000018) = .ok (.tlb .read) ∧
    decode Config.ref (.pslot 0x0081041C) = .ok (.thb (.write 0x81)) ∧
    decode Config.ref (.pslot 0x00000020) = .ok (.tcr .read) ∧
    decode Config.ref (.pslot 0x00810424) = .ok (.wcr (.write 0x81)) ∧
    decode Config.ref (.pslot 0x00000028) = .ok (.scr .read) := by decide

/-- Offsets without a register (the holes of 30_encoding.md R121 and R123). -/
theorem test_decode_hole :
    decode Config.ref (.vslot 0x07) = .ok (.vrdB 0x07) ∧ decode Config.ref (.vslot 0xABCD0540) = .ok (.vwrH 0x40 0xABCD) ∧
    decode Config.ref (.pslot 0x2C) = .ok (.prdB 0x2C) ∧ decode Config.ref (.pslot 0x00810421) = .ok (.pwrB 0x21 0x81) := by
  decide

/-- A level-2 word with the word size. -/
theorem test_decode_refuses_level_two_word_size : decode Config.ref (.vslot 0x222) = .error .reservedWord := by decide

/-- The examples of 41_video_regs.md R190 and 42_periph_regs.md R244, as level-2 words. -/
theorem test_hole_reads_fill :
    resultOf (step { State.reset with inbox := [⟨.busMaster, .vslot 0x140, none⟩] }) = some (.half 0xFFFF) ∧
    resultOf (step { State.reset with inbox := [⟨.busMaster, .pslot 0x2C, none⟩] }) = some (.byte 0xFF) := by decide

/-- Table words (log 8): an `OPW` row, a `VSLOT` row of 8 bits, a `PSLOT` row of 8 bits, a reserved one. -/
theorem test_table_words :
    decodeTableWord 72 0xC20000000000000000 = some .rtick ∧
    decodeTableWord 8 0x22 = some (.dpctrl (.readByte false)) ∧
    decodeTableWord 8 0x28 = some (.scr .read) ∧
    decodeTableWord 72 0xFF0000000000000000 = none := by decide

/-- The word placed by `withFetchWord` is the next operation performed. -/
theorem test_fetch_word_runs :
    vidOf (step (State.reset.withFetchWord 72 0xC30000000000004010)) =
      some { VideoRegs.zero with intpnd := 0x4010 } := by decide

/-- A reserved word has no step. -/
theorem test_step_refuses_reserved_word :
    step (State.reset.withFetchWord 72 0x030000000000000000) = .refused .reservedWord := by
  exact if_pos (by decide)

/-! ## Decoder, regions, open bus -/

/-- V1 -/
theorem test_wrW_V1 : memOf (perform 0x0605000000AABBCCDD State.reset) = some memV1 := by decide
/-- V2 -/
theorem test_rdB_V2 : resultOf (perform 0x000500000300000000 (withMem memV1)) = some (.byte 0xAA) := by decide
/-- V3 -/
theorem test_rdH_V3 : resultOf (perform 0x010500000200000000 (withMem memV1)) = some (.half 0xAABB) := by decide
/-- V4 -/
theorem test_wrH_V4 : memOf (perform 0x0505000002FFFF1234 (withMem memV1)) =
    some { memV1 with wram := [(0, 0xDD), (1, 0xCC), (2, 0x34), (3, 0x12)] } := by decide
/-- V5 -/
theorem test_rdH_misaligned_V5 : resultOf (perform 0x010500000300000000 (withMem memV1)) = some (.half 0xAABB) := by decide
/-- V5, V8 -/
theorem test_rdW_misaligned_mirror_V8 :
    resultOf (perform 0x020500000100000000 (withMem memV1)) = some (.word 0xAABBCCDD) ∧
    resultOf (perform 0x02FD00000200000000 (withMem memV1)) = some (.word 0xAABBCCDD) := by decide
/-- V6 -/
theorem test_wrW_misaligned_V6 : memOf (perform 0x060500000701020304 State.reset) =
    some { Memory.empty with wram := [(4, 0x04), (5, 0x03), (6, 0x02), (7, 0x01)] } := by decide
/-- V7 -/
theorem test_rdW_backing_repeats_V7 : resultOf (perform 0x0205FF000000000000 (withMem memV1)) = some (.word 0xAABBCCDD) := by decide
/-- V9 -/
theorem test_rom_discards_writes_V9 :
    memOf (perform 0x060700000000000000 (withMem memRom)) = some memRom ∧
    resultOf (perform 0x020700000000000000 (withMem memRom)) = some (.word 0x44332211) := by decide
/-- V11 -/
theorem test_unmapped_reads_V11 :
    resultOf (perform 0x000600000000000000 State.reset) = some (.byte 0xFF) ∧
    resultOf (perform 0x010600000000000000 State.reset) = some (.half 0xFFFF) ∧
    resultOf (perform 0x020600000000000000 State.reset) = some (.word 0xFFFFFFFF) := by decide
/-- V12 -/
theorem test_unmapped_writes_V12 :
    archOf (perform 0x060600000012345678 State.reset) = some State.reset.arch ∧
    archOf (perform 0x05020000400000FFFF State.reset) = some State.reset.arch := by decide
/-- V14 -/
theorem test_lookup_before_align_V14 : resultOf (perform 0x020005F7FE00000000 State.reset) = some (.word 0xFFFFFFFF) := by decide
/-- V15 -/
theorem test_wrB_aram_V15 : memOf (perform 0x04010008010000007E State.reset) =
    some { Memory.empty with aram := [(1, 0x7E)] } := by decide
/-- V16: the last word of video RAM. -/
theorem test_wrW_vram_end_V16 : memOf (perform 0x060003FFFCCAFEF00D State.reset) =
    some { Memory.empty with vram := [(0x3FFFC, 0x0D), (0x3FFFD, 0xF0), (0x3FFFE, 0xFE), (0x3FFFF, 0xCA)] } := by decide
/-- V17 -/
theorem test_wrB_wram_end_V17 : memOf (perform 0x040500FFFF00000099 State.reset) =
    some { Memory.empty with wram := [(0xFFFF, 0x99)] } := by decide
/-- A write of the unlisted byte removes the entry, so that equal memories are equal lists. -/
theorem test_wrB_zero_removes_entry : memOf (perform 0x040500000100000000 (withMem memV1)) =
    some { memV1 with wram := [(0, 0xDD), (2, 0xBB), (3, 0xAA)] } := by decide

/-! ## Video block -/

/-- V21 -/
theorem test_ver_V21 :
    resultOf (perform 0x010005F84400000000 State.reset) = some (.half 0x0002) ∧
    resultOf (perform 0x020005F84400000000 State.reset) = some (.word 0xFFFF0002) := by decide
/-- V22 -/
theorem test_ver_write_discarded_V22 : archOf (exec (.ver (.writeHalf 0xFFFF)) State.reset) = some State.reset.arch := by decide
/-- V23 -/
theorem test_intenb_byte_lane_V23 :
    vidOf (perform 0x040005F803000000AB (withVid { VideoRegs.zero with intenb := 0x1234 })) =
      some { VideoRegs.zero with intenb := 0xAB34 } := by decide
/-- V24 -/
theorem test_intenb_low_lane_V24 :
    vidOf (exec (.intenb (.writeByte false 0xCD)) (withVid { VideoRegs.zero with intenb := 0xAB34 })) =
      some { VideoRegs.zero with intenb := 0xABCD } := by decide
/-- V25 -/
theorem test_word_write_two_registers_V25 :
    vidOf (perform 0x060005F80000FF1234 State.reset) = some { VideoRegs.zero with intenb := 0x00FF } := by decide
/-- V27 -/
theorem test_brta_brtb_word_V27 : vidOf (perform 0x060005F82400400020 State.reset) =
    some { VideoRegs.zero with brta := 0x0020, brtb := 0x0040 } := by decide
/-- V28 -/
theorem test_frmcyc_with_hole_V28 :
    vidOf (perform 0x060005F82C0003ABCD State.reset) = some { VideoRegs.zero with frmcyc := 0x0003 } ∧
    resultOf (perform 0x020005F82C00000000 (withVid { VideoRegs.zero with frmcyc := 0x0003 })) =
      some (.word 0x0003FFFF) := by decide
/-- V29 -/
theorem test_video_holes_V29 :
    resultOf (perform 0x010005F80600000000 State.reset) = some (.half 0xFFFF) ∧
    resultOf (perform 0x000005F84600000000 State.reset) = some (.byte 0xFF) ∧
    resultOf (perform 0x020005F87800000000 State.reset) = some (.word 0xFFFFFFFF) := by decide
/-- V31 -/
theorem test_intpnd_read_V31 :
    resultOf (exec (.intpnd (.readByte true)) (withVid { VideoRegs.zero with intpnd := 0x4000 })) = some (.byte 0x40) := by decide
/-- V32 -/
theorem test_intpnd_write_discarded_V32 :
    vidOf (exec (.intpnd (.writeHalf 0xFFFF)) (withVid { VideoRegs.zero with intpnd := 0x0010 })) =
      some { VideoRegs.zero with intpnd := 0x0010 } := by decide
/-- V33 -/
theorem test_intclr_V33 : vidOf (perform 0x050005F80400000010 (withVid { VideoRegs.zero with intpnd := 0x4018 })) =
    some { VideoRegs.zero with intpnd := 0x4008 } := by decide
/-- V36 -/
theorem test_intclr_lane_V36 : vidOf (perform 0x040005F80500000040 (withVid { VideoRegs.zero with intpnd := 0x4018 })) =
    some { VideoRegs.zero with intpnd := 0x0018 } := by decide
/-- V37 -/
theorem test_intclr_read_V37 :
    resultOf (exec (.intclr .readHalf) (withVid { VideoRegs.zero with intpnd := 0xFFFF })) = some (.half 0x0000) := by decide
/-- V38 -/
theorem test_dpstts_write_discarded_V38 :
    vidOf (exec (.dpstts (.writeByte true 0x55)) (withVid { VideoRegs.zero with dpstts := 0x0040 })) =
      some { VideoRegs.zero with dpstts := 0x0040 } := by decide
/-- V39 -/
theorem test_cta_write_discarded_V39 :
    vidOf (exec (.cta (.writeHalf 0x0000)) (withVid { VideoRegs.zero with cta := 0x0123 })) =
      some { VideoRegs.zero with cta := 0x0123 } := by decide
/-- V40 under CFG_REF and under `WMASK_DPCTRL = 0x0703`. -/
theorem test_dpctrl_V40 :
    vidOf (exec (.dpctrl (.writeHalf 0xFFFF)) State.reset) = some { VideoRegs.zero with dpctrl := 0xFFFF } ∧
    vidOf (exec (.dpctrl (.writeHalf 0xFFFF))
      { State.reset with cfg := { Config.ref with vMask := { VMasks.ref with dpctrl := 0x0703 } } }) =
        some { VideoRegs.zero with dpctrl := 0x0703 } := by decide
/-- V41: the high lane is outside the mask. -/
theorem test_bkcol_masked_lane_V41 :
    vidOf (exec (.bkcol (.writeByte true 0xFF))
      { withVid { VideoRegs.zero with bkcol := 0x0003 } with
        cfg := { Config.ref with vMask := { VMasks.ref with bkcol := 0x0003 } } }) =
      some { VideoRegs.zero with bkcol := 0x0003 } := by decide
/-- V42 -/
theorem test_splt_word_V42 : vidOf (perform 0x060005F84C00110022 State.reset) =
    some { VideoRegs.zero with splt2 := 0x0022, splt3 := 0x0011 } := by decide
/-- V42 -/
theorem test_splt01_read_V42 :
    resultOf (perform 0x020005F84800000000 (withVid { VideoRegs.zero with splt0 := 0x00E4, splt1 := 0x00D0 })) =
      some (.word 0x00D000E4) := by decide
/-- V43 -/
theorem test_oplt_V43 :
    vidOf (perform 0x050005F86E00000004 State.reset) = some { VideoRegs.zero with oplt3 := 0x0004 } ∧
    vidOf (perform 0x060005F86800E400D0 State.reset) = some { VideoRegs.zero with oplt0 := 0x00D0, oplt1 := 0x00E4 } ∧
    vidOf (exec (.oplt2 (.writeHalf 0x00E4)) State.reset) = some { VideoRegs.zero with oplt2 := 0x00E4 } := by decide
/-- V44 -/
theorem test_bkcol_read_V44 : resultOf (perform 0x020005F87000000000 (withVid { VideoRegs.zero with bkcol := 0x0003 })) =
    some (.word 0xFFFF0003) := by decide
/-- R182, R183: the two remaining storage registers. -/
theorem test_brtc_rest : vidOf (perform 0x060005F828000A0040 State.reset) =
    some { VideoRegs.zero with brtc := 0x0040, rest := 0x000A } := by decide
/-- V45 -/
theorem test_vrdH_vwrH_V45 :
    resultOf (perform 0x410000008400000000 (withVid { VideoRegs.zero with intpnd := 0xFFFF })) = some (.half 0x0000) ∧
    vidOf (perform 0x450005F802000000FF State.reset) = some { VideoRegs.zero with intenb := 0x00FF } := by decide
/-- V46 -/
theorem test_vwrH_side_effect_V46 : vidOf (perform 0x450000000400000008 (withVid { VideoRegs.zero with intpnd := 0x0018 })) =
    some { VideoRegs.zero with intpnd := 0x0010 } := by decide
/-- R158, R160, R161, R163: the other widths of the direct port. -/
theorem test_vport_widths :
    resultOf (perform 0x400000004500000000 State.reset) = some (.byte 0x00) ∧
    resultOf (perform 0x420000004600000000 State.reset) = some (.word 0xFFFF0002) ∧
    vidOf (perform 0x4400000003000000AB State.reset) = some { VideoRegs.zero with intenb := 0xAB00 } ∧
    vidOf (perform 0x460000002600400020 State.reset) = some { VideoRegs.zero with brta := 0x0020, brtb := 0x0040 } := by decide

/-! ## Peripheral block -/

/-- V50 -/
theorem test_tcr_wide_reads_V50 :
    resultOf (perform 0x010200002000000000 State.reset) = some (.half 0xFF00) ∧
    resultOf (perform 0x020200002000000000 State.reset) = some (.word 0xFFFFFF00) ∧
    resultOf (perform 0x010200002200000000 State.reset) = some (.half 0xFFFF) := by decide
/-- V51 -/
theorem test_periph_holes_V51 :
    resultOf (perform 0x000200002C00000000 State.reset) = some (.byte 0xFF) ∧
    archOf (perform 0x060200003012345678 State.reset) = some State.reset.arch := by decide
/-- V52 -/
theorem test_ccr_write_V52 : perOf (perform 0x0402000000000000FF State.reset) = some { PeriphRegs.zero with ccr := 0xFD } := by decide
/-- V52 -/
theorem test_ccr_keeps_read_only_bit_V52 :
    perOf (exec (.ccr (.write 0x00)) (withPer { PeriphRegs.zero with ccr := 0xFF })) =
      some { PeriphRegs.zero with ccr := 0x02 } := by decide
/-- V53 -/
theorem test_pstat_V53 : perOf (perform 0xC800000000000000FF (withPer { PeriphRegs.zero with ccr := 0x94 })) =
    some { PeriphRegs.zero with ccr := 0x96 } := by decide
/-- V61 -/
theorem test_pstat_scr_V61 : perOf (perform 0xC800000028000000FF (withPer { PeriphRegs.zero with scr := 0x84 })) =
    some { PeriphRegs.zero with scr := 0x86 } := by decide
/-- V54 -/
theorem test_ccsr_V54 :
    perOf (exec (.ccsr (.write 0x83)) State.reset) = some { PeriphRegs.zero with ccsr := 0x81 } ∧
    perOf (exec (.pstat .ccsr 0x02) (withPer { PeriphRegs.zero with ccsr := 0x81 })) =
      some { PeriphRegs.zero with ccsr := 0x83 } := by decide
/-- V55 -/
theorem test_cdtr_word_write_V55 :
    (archOf (perform 0x060200000811223342 (holding { State.reset.arch with txq := [0x41] }))).map (·.txq) =
      some [0x41, 0x42] := by decide
/-- V55 -/
theorem test_cdtr_read_V55 :
    resultOf (exec (.cdtr .read) (withPer { PeriphRegs.zero with cdtr := 0x42 })) = some (.byte 0x00) := by decide
/-- V57 -/
theorem test_cdtr_hole_V57 : archOf (perform 0x050200000A00000041 State.reset) = some State.reset.arch := by decide
/-- V58 -/
theorem test_comrx_V58 : perOf (perform 0xC7000000000000017E State.reset) = some { PeriphRegs.zero with cdrr := 0x7E } := by decide
/-- V58 -/
theorem test_cdrr_V58 :
    resultOf (perform 0x010200000C00000000 (withPer { PeriphRegs.zero with cdrr := 0x7E })) = some (.half 0xFF7E) ∧
    perOf (exec (.cdrr (.write 0x00)) (withPer { PeriphRegs.zero with cdrr := 0x7E })) =
      some { PeriphRegs.zero with cdrr := 0x7E } := by decide
/-- V59 -/
theorem test_serrx_V59 : perOf (perform 0xC6000000000000BEEF State.reset) =
    some { PeriphRegs.zero with shb := 0xBE, slb := 0xEF } := by decide
/-- V59 -/
theorem test_slb_shb_V59 :
    resultOf (exec (.slb .read) (withPer { PeriphRegs.zero with shb := 0xBE, slb := 0xEF })) = some (.byte 0xEF) ∧
    resultOf (exec (.shb .read) (withPer { PeriphRegs.zero with shb := 0xBE, slb := 0xEF })) = some (.byte 0xBE) ∧
    archOf (exec (.shb (.write 0x11)) State.reset) = some State.reset.arch ∧
    archOf (exec (.slb (.write 0x11)) State.reset) = some State.reset.arch := by decide
/-- V60 -/
theorem test_wcr_pwrW_V60 : perOf (perform 0x8600000024FFFFFF81 (withPer { PeriphRegs.zero with wcr := 0x03 })) =
    some { PeriphRegs.zero with wcr := 0x81 } := by decide
/-- V60 -/
theorem test_wcr_read_V60 : resultOf (perform 0x800000002400000000 (withPer { PeriphRegs.zero with wcr := 0x81 })) =
    some (.byte 0x81) := by decide
/-- V61 -/
theorem test_scr_V61 : perOf (exec (.scr (.write 0x86)) State.reset) = some { PeriphRegs.zero with scr := 0x84 } := by decide
/-- V62 -/
theorem test_thb_write_V62 : perOf (perform 0x040200001C00000012 (withPer { PeriphRegs.zero with tStage := 0x0034 })) =
    some { PeriphRegs.zero with tStage := 0x1234 } := by decide
/-- V63 -/
theorem test_tlb_write_V63 : perOf (exec (.tlb (.write 0x35)) (withPer { PeriphRegs.zero with tStage := 0x1234 })) =
    some { PeriphRegs.zero with tStage := 0x1235 } := by decide
/-- V64 -/
theorem test_pwrH_hole_V64 : perOf (perform 0x850000001C0000AB12 State.reset) =
    some { PeriphRegs.zero with tStage := 0x1200 } := by decide
/-- V66 -/
theorem test_tcr_load_V66 : perOf (perform 0x040200002000000069 (withPer { PeriphRegs.zero with tStage := 0x1234 })) =
    some { PeriphRegs.zero with tStage := 0x1234, tCount := 0x1234, tEnb := true, tAuto := true, zInt := true, tReset := true } := by
  decide
/-- V67, V68 -/
theorem test_tcr_ack_V67 :
    perOf (exec (.tcr (.write 0xFF)) (withPer { PeriphRegs.zero with tStage := 0xBEEF, zStat := true })) =
      some { PeriphRegs.zero with tStage := 0xBEEF, tCount := 0xBEEF, tEnb := true, tAuto := true, zInt := true, tReset := true } ∧
    perOf (exec (.tcr (.write 0x02)) (withPer { PeriphRegs.zero with zStat := true, tEnb := true })) =
      some { PeriphRegs.zero with zStat := true } := by decide
/-- V66: reads of the live counter and of TCR. -/
theorem test_timer_reads_V66 :
    resultOf (exec (.tlb .read) (withPer { PeriphRegs.zero with tCount := 0x1234, tStage := 0xFFFF })) = some (.byte 0x34) ∧
    resultOf (exec (.thb .read) (withPer { PeriphRegs.zero with tCount := 0x1234, tStage := 0xFFFF })) = some (.byte 0x12) ∧
    resultOf (exec (.tcr .read) (withPer { PeriphRegs.zero with tEnb := true, tAuto := true, zInt := true })) =
      some (.byte 0x29) := by decide
/-- V72: a misaligned word write reaches TCR. -/
theorem test_tcr_misaligned_word_V72 : perOf (perform 0x060200002300000041 (withPer { PeriphRegs.zero with tStage := 0x0007 })) =
    some { PeriphRegs.zero with tStage := 0x0007, tCount := 0x0007, tEnb := true, tReset := true } := by decide
/-- V73, and R165, R166, R167: the other widths of the direct port. -/
theorem test_pport_widths_V73 :
    resultOf (perform 0x800000005800000000 (withPer { PeriphRegs.zero with tCount := 0x0034 })) = some (.byte 0x34) ∧
    resultOf (perform 0x810000002000000000 State.reset) = some (.half 0xFF00) ∧
    resultOf (perform 0x820000002300000000 State.reset) = some (.word 0xFFFFFF00) ∧
    perOf (perform 0x840000001800000034 State.reset) = some { PeriphRegs.zero with tStage := 0x0034 } := by decide
/-- R237: with the `Z_CLR` and `Z_STAT` bit numbers moved, the moved bits act (log 19). -/
theorem test_tcr_bit_numbers_are_parameters :
    resultOf (exec (.tcr .read) { withPer { PeriphRegs.zero with zStat := true } with
      cfg := { Config.ref with tcr := { Config.ref.tcr with zstat := 7 } } }) = some (.byte 0x80) := by decide

/-! ## Timer engine -/

/-- V74 -/
theorem test_ttick_stopped_V74 : archOf (exec .ttick State.reset) = some State.reset.arch := by decide
/-- V76: one-shot expiry. -/
theorem test_ttick_one_shot_V76 :
    perOf (exec .ttick (withPer { PeriphRegs.zero with tStage := 1, tCount := 1, tEnb := true, tReset := true })) =
      some { PeriphRegs.zero with tStage := 1, zStat := true } := by decide
/-- V77: a count of zero does not wrap. -/
theorem test_ttick_zero_V77 : perOf (exec .ttick (withPer { PeriphRegs.zero with tEnb := true })) =
    some { PeriphRegs.zero with zStat := true } := by decide
/-- V81 -/
theorem test_ttick_counts_V81 :
    perOf (exec .ttick (withPer { PeriphRegs.zero with tStage := 3, tCount := 3, tEnb := true, tReset := true })) =
      some { PeriphRegs.zero with tStage := 3, tCount := 2, tEnb := true } := by decide
/-- V85 -/
theorem test_ttick_auto_V85 :
    perOf (exec .ttick (withPer { PeriphRegs.zero with tStage := 3, tCount := 1, tEnb := true, tAuto := true })) =
      some { PeriphRegs.zero with tStage := 3, tCount := 3, tEnb := true, tAuto := true, zStat := true } := by decide

/-! ## Events -/

/-- V91 -/
theorem test_rtick_V91 : vidOf (exec .rtick State.reset) = some { VideoRegs.zero with intpnd := 0x0018 } := by decide
/-- V93 -/
theorem test_rtick_wraps_V93 : vidOf (exec .rtick (withVid { VideoRegs.zero with frmcyc := 2, fcnt := 4 })) =
    some { VideoRegs.zero with frmcyc := 2, intpnd := 0x0010 } := by decide
/-- V94 -/
theorem test_rtick_counts_V94 : vidOf (exec .rtick (withVid { VideoRegs.zero with frmcyc := 0xFFFF, fcnt := 0xFFFE })) =
    some { VideoRegs.zero with frmcyc := 0xFFFF, fcnt := 0xFFFF, intpnd := 0x0010 } := by decide
/-- V95 -/
theorem test_vraise_V95 : vidOf (perform 0xC30000000000004010 (withVid { VideoRegs.zero with intpnd := 0x0010 })) =
    some { VideoRegs.zero with intpnd := 0x4010 } := by decide
/-- V96 -/
theorem test_vraise_truncates_V96 : vidOf (perform 0xC300000000FFFFFFFF State.reset) =
    some { VideoRegs.zero with intpnd := 0xFFFF } := by decide
/-- V97 -/
theorem test_vstat_V97 : vidOf (perform 0xC40000000000000040 State.reset) = some { VideoRegs.zero with dpstts := 0x0040 } := by decide
/-- V98 -/
theorem test_vcta_V98 : vidOf (perform 0xC50000000000000123 State.reset) = some { VideoRegs.zero with cta := 0x0123 } := by decide
/-- V109, V110, V111: the video term and the timer term of `IRQ`. -/
theorem test_irqq_V109 :
    resultOf (perform 0xC90000000000000000 (withVid { VideoRegs.zero with intpnd := 0x0010, intenb := 0xFFEF })) =
      some (.bit false) ∧
    resultOf (exec .irqq (withVid { VideoRegs.zero with intpnd := 0x8001, intenb := 0x8000 })) = some (.bit true) ∧
    resultOf (exec .irqq (withPer { PeriphRegs.zero with zStat := true, zInt := true })) = some (.bit true) := by decide
/-- V107, V106: an enable without a request, a request without an enable. -/
theorem test_irqq_V107 :
    resultOf (exec .irqq (withPer { PeriphRegs.zero with zStat := true })) = some (.bit false) ∧
    resultOf (exec .irqq (withPer { PeriphRegs.zero with zInt := true })) = some (.bit false) := by decide

/-! ## Host operations -/

/-- V118 -/
theorem test_reset_V118 : archOf (perform 0xC00000000000000000
    (holding { State.reset.arch with per := { PeriphRegs.zero with tCount := 5 }, txq := [1], tdrv := true, rdrv := true })) =
      some State.reset.arch := by decide
/-- V119 -/
theorem test_drivers_on_V119 :
    archOf (perform 0xCC0000000000004E20 State.reset) = some { State.reset.arch with tdrv := true } ∧
    archOf (perform 0xCE0000000000000000 State.reset) = some { State.reset.arch with rdrv := true } := by decide
/-- V119 -/
theorem test_drivers_off_V119 :
    archOf (perform 0xCD0000000000000000 (holding { State.reset.arch with tdrv := true, rdrv := true })) =
      some { State.reset.arch with rdrv := true } ∧
    archOf (perform 0xCF0000000000000000 (holding { State.reset.arch with tdrv := true, rdrv := true })) =
      some { State.reset.arch with tdrv := true } := by decide
/-- V120 -/
theorem test_snap_V120 : resultOf (exec .snap (withMem memV1)) = some (.snap (withMem memV1).arch) := by decide
/-- V120 -/
theorem test_restore_V120 : archOf (exec .restore { State.reset with snapIn := some (withMem memV1).arch }) =
    some (withMem memV1).arch := by decide
/-- R308: a byte past the end of audio RAM; no snapshot. -/
theorem test_restore_refuses_malformed :
    exec .restore { State.reset with snapIn := some { State.reset.arch with mem := { Memory.empty with aram := [(0x800, 1)] } } } =
      .refused .malformedSnapshot ∧
    exec .restore State.reset = .refused .malformedSnapshot :=
  ⟨rfl, rfl⟩

/-! ## Witnesses: concrete values that meet the hypotheses of each statement, one for each clause -/

/-- One request with an operation word and no snapshot. -/
def asks (agent : Agent) (w : BitVec 72) : Request := ⟨agent, .opw w, none⟩

/-- The reset state with requests waiting. -/
def waiting (l : List Request) : State := { State.reset with inbox := l }

theorem witness_StepPerformsDecodedOperation :
    Config.ref.Wf ∧ (waiting [asks .refreshDriver 0xC20000000000000000]).inbox = asks .refreshDriver 0xC20000000000000000 :: [] ∧
    decode Config.ref (asks .refreshDriver 0xC20000000000000000).raw = .ok .rtick := by decide

theorem witness_IdleMachineStaysStill : State.reset.cfg.Wf ∧ State.reset.inbox = [] := by decide

theorem witness_IllFormedConfigurationIsRefused :
    ¬ Config.Wf { Config.ref with vblkBase := 0 } ∧ ∃ t, exec .rtick State.reset = .next t := ⟨by decide, _, rfl⟩

/-- The byte after the last legal one, and one between legal ones. -/
theorem witness_ReservedWordsAreRefused :
    State.reset.cfg.Wf ∧ (0xD00000000000000000#72).extractLsb' 64 8 ∉ legalOps ∧
    (0x030000000000000000#72).extractLsb' 64 8 ∉ legalOps ∧
    (waiting [asks .host 0x030000000000000000]).inbox = [⟨.host, .opw 0x030000000000000000, none⟩] := by decide

theorem witness_WellFormedOperationsComplete :
    Instr.wf (.pstat .scr 0xFF) = true ∧ Instr.wf .restore = true ∧
    ({ State.reset with snapIn := some (withMem memV1).arch } : State).snapIn = some (withMem memV1).arch ∧
    Memory.Fits Config.ref memV1 := by decide

theorem witness_DecodeInvertsEncode :
    Config.ref.Wf ∧ Instr.wf (.wrW 0xFFFFFFFF 0xFFFFFFFF) = true ∧ Instr.wf (.bkcol (.writeHalf 0xFFFF)) = true ∧
    Instr.wf (.scr (.write 0xFF)) = true ∧ Instr.wf (.pstat .ccsr 0x00) = true := by decide

theorem witness_StepKeepsInvariant :
    (waiting [asks .busMaster 0x0605000000AABBCCDD]).Inv ∧
    archOf (step (waiting [asks .busMaster 0x0605000000AABBCCDD])) = some (withMem memV1).arch :=
  ⟨by decide, by decide⟩

/-- The first and last address of the window of working RAM, and a mirror of the first. -/
theorem witness_RegionReadReturnsStoredBytes :
    lookup Config.ref (0x05000000 &&& Config.ref.addrMask) = .region .wram ∧
    lookup Config.ref (0x05FFFFFF &&& Config.ref.addrMask) = .region .wram ∧
    lookup Config.ref (0xFD000000 &&& Config.ref.addrMask) = .region .wram := by decide

/-- A writable region at both ends of its window, and the region that is not writable. -/
theorem witness_RegionWriteStoresBytes :
    State.reset.Inv ∧ lookup Config.ref (0x00000000 &&& Config.ref.addrMask) = .region .vram ∧
    lookup Config.ref (0x0003FFFF &&& Config.ref.addrMask) = .region .vram ∧ (Config.ref.win .vram).writable = true ∧
    lookup Config.ref (0x07FFFFFF &&& Config.ref.addrMask) = .region .rom ∧ (Config.ref.win .rom).writable = false :=
  ⟨by decide, by decide⟩

/-- The bytes just outside VRAM, the video block and working RAM. -/
theorem witness_UnmappedAccessDegrades :
    ∀ addr ∈ [0x00040000#32, 0x0005F7FF, 0x0005F880, 0x02000040, 0x04FFFFFF, 0x06000000], ∀ e ∈ Config.ref.extents,
      ¬ (e.1 ≤ (addr &&& Config.ref.addrMask).toNat ∧ (addr &&& Config.ref.addrMask).toNat < e.1 + e.2) := by
  simp [Config.ref, Config.extents, vblkSize, pblkSize]

theorem witness_AccessActsAtMaskedAlignedAddress : State.reset.cfg.Wf := by decide

/-- The four outcomes of the lookup. -/
theorem witness_LookupFindsTheContainingWindow :
    Config.ref.Wf ∧ lookup Config.ref 0x01FFFFFF = .region .aram ∧ lookup Config.ref 0x0005F87F = .vblk ∧
    lookup Config.ref 0x0200003F = .pblk ∧ lookup Config.ref 0x02000040 = .unmapped := by decide

/-- The first and last byte of each size. -/
theorem witness_AlignedAccessNeverSpans :
    Config.ref.Wf ∧ 0 < Size.b.bytes ∧ 1 < Size.h.bytes ∧ 3 < Size.w.bytes := by decide

theorem witness_ReadReturnsLastWrite :
    State.reset.Inv ∧ lookup Config.ref (0x05FFFFFF &&& Config.ref.addrMask) = .region .wram ∧
    (Config.ref.win .wram).writable = true :=
  ⟨by decide, by decide⟩

/-- The last word of working RAM and one of the peripheral block. -/
theorem witness_MixedWidthsAgree :
    State.reset.cfg.Wf ∧ 0x05FFFFFC#32 &&& 3#32 = 0#32 ∧ 0x02000020#32 &&& 3#32 = 0#32 ∧
    Config.ref.addrMask &&& 3#32 = 3#32 := by decide

/-- Both ends of each block, and a port offset past the block. -/
theorem witness_DirectPortsActAsBusAccesses :
    State.reset.cfg.Wf ∧
    (0x0005F800#32 &&& Config.ref.addrMask).toNat = Config.ref.vblkBase + (0x80#32).toNat % 0x80 ∧
    (0x0805F87F#32 &&& Config.ref.addrMask).toNat = Config.ref.vblkBase + (0x7F#32).toNat % 0x80 ∧
    (0x02000000#32 &&& Config.ref.addrMask).toNat = Config.ref.pblkBase + (0x40#32).toNat % 0x40 ∧
    (0x0200003F#32 &&& Config.ref.addrMask).toNat = Config.ref.pblkBase + (0x3F#32).toNat % 0x40 := by decide

theorem witness_RegisterRowsActAsPortAccesses : State.reset.cfg.Wf := by decide

/-- The lowest and highest misaligned addresses of each clause. -/
theorem witness_PeripheralWideAccess :
    0x01#32 &&& 3#32 ≠ 0#32 ∧ 0x3F#32 &&& 3#32 ≠ 0#32 ∧ 0x02#32 &&& 2#32 = 2#32 ∧ 0x3F#32 &&& 2#32 = 2#32 := by decide

/-- The first and last hole of the video block; a misaligned and an aligned hole of the peripheral block. -/
theorem witness_HolesReadFillAndIgnoreWrites :
    (0x06 < 0x80 ∧ 0x06 % 2 = 0 ∧ ∀ x ∈ VReg.all, Config.ref.voff x ≠ 0x06) ∧
    (0x7E < 0x80 ∧ 0x7E % 2 = 0 ∧ ∀ x ∈ VReg.all, Config.ref.voff x ≠ 0x7E) ∧
    (0x3F < 0x40 ∧ 0x3F % 4 ≠ 0) ∧ (0x2C < 0x40 ∧ ∀ x ∈ PReg.all, Config.ref.poff x ≠ 0x2C) := by decide

/-- The first and last hole of each block, by the whole offset. -/
theorem witness_LevelTwoWordsOfHolesDegrade :
    (∀ off ∈ [0x07#7, 0x7F#7], ∀ x ∈ VReg.all, Config.ref.voff x ≠ off.toNat / 2 * 2) ∧
    ∀ off ∈ [0x01#6, 0x2C#6, 0x3F#6], ∀ x ∈ PReg.all, Config.ref.poff x ≠ off.toNat := by decide

/-- Every video register is in the list that the holes are checked against. -/
theorem witness_every_video_register_is_listed (x : VReg) : x ∈ VReg.all := by cases x <;> decide

/-- Every peripheral register is in the list that the holes are checked against. -/
theorem witness_every_peripheral_register_is_listed (x : PReg) : x ∈ PReg.all := by cases x <;> decide

theorem witness_PlainRegistersAreMaskedStorage :
    plainMask Config.ref .bkcol = some 0xFFFF ∧
    vread Config.ref State.reset.arch.vid .bkcol &&& ~~~0xFFFF#16 = 0x0000 := by decide

theorem witness_PlainRegistersByName : State.reset.cfg.vMask = Config.ref.vMask := by decide

theorem witness_IntpndReadsLiveAndIgnoresWrites : vaccReads (.writeByte true 0xFF) = false := by decide

theorem witness_DisplayRegistersDiscardWrites :
    vaccReads (.writeHalf 0x0000) = false ∧
    ∃ t, exec .rtick State.reset = .next t ∧ Instr.rtick ≠ .reset ∧ Instr.rtick ≠ .restore ∧
      (∀ v, Instr.rtick ≠ .vstat v) ∧ ∀ v, Instr.rtick ≠ .vcta v :=
  ⟨by decide, _, rfl, by decide, by decide, fun _ => Instr.noConfusion, fun _ => Instr.noConfusion⟩

theorem witness_CdtrQueuesTheByte : State.reset.cfg.Wf := by decide

theorem witness_ReceiveRegistersDiscardWrites :
    ∃ t, exec (.slb (.write 0x11)) State.reset = .next t ∧ Instr.slb (.write 0x11) ≠ .reset ∧
      Instr.slb (.write 0x11) ≠ .restore ∧ (∀ v, Instr.slb (.write 0x11) ≠ .comrx v) ∧
      ∀ v, Instr.slb (.write 0x11) ≠ .serrx v :=
  ⟨_, rfl, by decide, by decide, fun _ => Instr.noConfusion, fun _ => Instr.noConfusion⟩

theorem witness_TcrReadsAssembledFields :
    State.reset.cfg.tcr = { enb := 0, zstat := 1, zclr := 2, zint := 3, auto := 5, load := 6 } := by decide

theorem witness_TcrWriteActsInThreeSteps :
    State.reset.cfg.tcr = { enb := 0, zstat := 1, zclr := 2, zint := 3, auto := 5, load := 6 } := by decide

/-- A timer with a count, the flag and the mode. -/
def timer (n stage : Half) (enb auto : Bool) : State :=
  withPer { PeriphRegs.zero with tCount := n, tStage := stage, tEnb := enb, tAuto := auto }

/-- The four clauses, the counts 2, 1 and 0 at their limits. -/
theorem witness_TimerTick :
    (timer 5 5 false false).arch.per.tEnb = false ∧
    ((timer 2 5 true false).arch.per.tEnb = true ∧ 1 < (timer 2 5 true false).arch.per.tCount.toNat) ∧
    ((timer 1 5 true true).arch.per.tEnb = true ∧ (timer 1 5 true true).arch.per.tCount.toNat ≤ 1 ∧
      (timer 1 5 true true).arch.per.tAuto = true) ∧
    ((timer 0 5 true false).arch.per.tEnb = true ∧ (timer 0 5 true false).arch.per.tCount.toNat ≤ 1 ∧
      (timer 0 5 true false).arch.per.tAuto = false) := by decide

/-- The counts 0 and `0xFFFF`. -/
theorem witness_FirstExpiryAtTickMaxN1 :
    (timer 0 5 true false).arch.per.tEnb = true ∧ 0 < max (timer 0 5 true false).arch.per.tCount.toNat 1 ∧
    (timer 0xFFFF 5 true false).arch.per.tEnb = true ∧
    65534 < max (timer 0xFFFF 5 true false).arch.per.tCount.toNat 1 := by decide

theorem witness_AutoReloadIsPeriodicAndStoppedIsQuiet :
    ((timer 3 3 true true).arch.per.tEnb = true ∧ (timer 3 3 true true).arch.per.tAuto = true ∧
      (timer 3 3 true true).arch.per.tCount = (timer 3 3 true true).arch.per.tStage) ∧
    (timer 3 3 false true).arch.per.tEnb = false := by decide

theorem witness_FrameCounterCyclesThroughFrmcyc :
    (withVid { VideoRegs.zero with frmcyc := 2 }).arch.vid.fcnt = 0 ∧ ∃ t, exec .rtick State.reset = .next t :=
  ⟨by decide, _, rfl⟩

/-- A word for `SCR` with address bits above the block, and one for a register that `PSTAT` refuses. -/
theorem witness_PstatSetsReadOnlyBits :
    State.reset.cfg.Wf ∧ (0xFFFFFFE8#32).toNat % 64 = Config.ref.poff .scr ∧
    ∀ x ∈ [PReg.ccr, PReg.ccsr, PReg.scr], (0x20#32).toNat % 64 ≠ Config.ref.poff x := by decide

/-- A pending bit that is enabled, a latched timer request that is enabled, and none. -/
theorem witness_IrqIsTheOrOfEnabledPendingBits :
    ((withVid { VideoRegs.zero with intpnd := 0x8000, intenb := 0x8000 }).arch.vid.intpnd &&&
      (withVid { VideoRegs.zero with intpnd := 0x8000, intenb := 0x8000 }).arch.vid.intenb) ≠ 0x0000 ∧
    (withPer { PeriphRegs.zero with zStat := true, zInt := true }).arch.per.zStat = true ∧
    (withPer { PeriphRegs.zero with zStat := true, zInt := true }).arch.per.zInt = true ∧
    ¬ ((State.reset.arch.vid.intpnd &&& State.reset.arch.vid.intenb) ≠ 0x0000 ∨
      (State.reset.arch.per.zStat = true ∧ State.reset.arch.per.zInt = true)) := by decide

theorem witness_ResetReplacesTheTuple :
    State.reset.cfg.resetVid = Config.ref.resetVid ∧ State.reset.cfg.resetPer = Config.ref.resetPer := by decide

/-- A snapshot that fits and one with a byte past the end of audio RAM. -/
theorem witness_SnapRestoreRoundTrip :
    Memory.Fits Config.ref memV1 ∧ State.reset.arch.mem.Fits State.reset.cfg ∧
    ¬ Memory.Fits Config.ref { Memory.empty with aram := [(0x800, 1)] } := by decide

/-- `TDRV.ON`, and then a tick of the timer driver. -/
def registered : State := waiting [asks .host 0xCC0000000000004E20, asks .timerDriver 0xC10000000000000000]

theorem witness_DriverDisciplineIsKept :
    registered.DriversHeed ∧
    archOf (step registered) = some { State.reset.arch with tdrv := true } := by decide

/-- A tick of each driver behind its registration. -/
theorem witness_NoDriverTickBeforeRegistration :
    registered.DriversHeed ∧
    registered.inbox = [asks .host 0xCC0000000000004E20] ++ asks .timerDriver 0xC10000000000000000 :: [] ∧
    registered.arch.tdrv = false ∧ (asks .timerDriver 0xC10000000000000000).agent = .timerDriver ∧
    decode Config.ref (asks .timerDriver 0xC10000000000000000).raw = .ok .ttick ∧
    (waiting [asks .host 0xCE0000000000000000, asks .refreshDriver 0xC20000000000000000]).DriversHeed ∧
    (waiting []).arch.rdrv = false ∧ (asks .refreshDriver 0xC20000000000000000).agent = .refreshDriver ∧
    decode Config.ref (asks .refreshDriver 0xC20000000000000000).raw = .ok .rtick := by decide

theorem witness_ReadsChangeNoState :
    isRead (.rdW 0xFFFFFFFF) = true ∧ isRead .irqq = true ∧ isRead .snap = true ∧ isRead (.bkcol .readHalf) = true ∧
    isRead (.scr .read) = true := by decide

/-- The clauses of the frame: a write of `DPCTRL` reaches no other register, a write of `WCR` no other register, and a
word write of audio RAM no byte after its four. -/
theorem witness_WriteFrame :
    State.reset.Inv ∧ isWrite (.wrW 0x01000000 0xFFFFFFFF) = true ∧ isWrite (.pwrB 0x24 0x81) = true ∧
    isWrite (.dpctrl (.writeHalf 0xFFFF)) = true ∧
    (VReg.intpnd ∉ writesVideo Config.ref (.dpctrl (.writeHalf 0xFFFF)) ∧
      VReg.intclr ∉ writesVideo Config.ref (.dpctrl (.writeHalf 0xFFFF))) ∧
    (∀ x ∈ [PReg.ccr, .ccsr, .scr, .cdtr, .tlb, .thb, .tcr], x ∉ writesPeriph Config.ref (.pwrB 0x24 0x81)) ∧
    PReg.wcr ∉ writesPeriph Config.ref (.pwrB 0x26 0x81) :=
  ⟨by decide, by decide⟩

/-- The byte after the last one stored is not stored. -/
theorem witness_WriteFrame_memory : ¬ storesAt Config.ref (.wrW 0x01000000 0xFFFFFFFF) .aram 4 := by
  intro ⟨off, sz, h, j, hj, hk⟩
  have h' : stores Config.ref (.wrW 0x01000000 0xFFFFFFFF) = some (.aram, 0, .w) := by decide
  obtain ⟨-, rfl, rfl⟩ : Region.aram = .aram ∧ 0 = off ∧ Size.w = sz := by simpa using h'.symm.trans h
  have : j < 4 := hj
  simp [backOffset, Config.ref, Config.win] at hk
  omega

theorem witness_IrqChangesOnlyByListedOperations :
    ∃ t, exec (.wrW 0x05000000 1) State.reset = .next t ∧
      VReg.intenb ∉ writesVideo Config.ref (.wrW 0x05000000 1) ∧ VReg.intclr ∉ writesVideo Config.ref (.wrW 0x05000000 1) ∧
      PReg.tcr ∉ writesPeriph Config.ref (.wrW 0x05000000 1) ∧ Instr.wrW 0x05000000 1 ≠ .ttick ∧
      Instr.wrW 0x05000000 1 ≠ .rtick ∧ (∀ m, Instr.wrW 0x05000000 1 ≠ .vraise m) ∧
      Instr.wrW 0x05000000 1 ≠ .reset ∧ Instr.wrW 0x05000000 1 ≠ .restore :=
  ⟨_, rfl, by decide, by decide, by decide, by decide, by decide, fun _ => Instr.noConfusion, by decide, by decide⟩

/-- Both pending flags set, and a tick, which addresses no acknowledge register. -/
def pendingBoth : State :=
  holding { State.reset.arch with
    vid := { VideoRegs.zero with intpnd := 0x8001 }, per := { PeriphRegs.zero with zStat := true } }

theorem witness_PendingBitsAreSticky :
    ∃ t, exec .ttick pendingBoth = .next t ∧ Instr.ttick ≠ .reset ∧ Instr.ttick ≠ .restore ∧
      VReg.intclr ∉ writesVideo Config.ref .ttick ∧ PReg.tcr ∉ writesPeriph Config.ref .ttick ∧
      pendingBoth.arch.vid.intpnd.getLsbD 15 = true ∧ pendingBoth.arch.vid.intpnd.getLsbD 0 = true ∧
      pendingBoth.arch.per.zStat = true :=
  ⟨_, rfl, by decide, by decide, by decide, by decide, by decide, by decide, by decide⟩

theorem witness_PendingFlagsAreSetOnlyByTheirSources :
    ∃ t, exec (.wrB 0x0005F803 0xFF) pendingBoth = .next t ∧ Instr.wrB 0x0005F803 0xFF ≠ .reset ∧
      Instr.wrB 0x0005F803 0xFF ≠ .restore ∧ Instr.wrB 0x0005F803 0xFF ≠ .rtick ∧
      (∀ m, Instr.wrB 0x0005F803 0xFF ≠ .vraise m) ∧ Instr.wrB 0x0005F803 0xFF ≠ .ttick ∧
      t.arch.vid.intpnd.getLsbD 15 = true ∧ t.arch.per.zStat = true :=
  ⟨_, rfl, by decide, by decide, by decide, fun _ => Instr.noConfusion, by decide, by decide, by decide⟩

theorem witness_TimerChangesOnlyByItsOperations :
    ∃ t, exec (.thb (.write 0x12)) State.reset = .next t ∧ PReg.tcr ∉ writesPeriph Config.ref (.thb (.write 0x12)) ∧
      Instr.thb (.write 0x12) ≠ .ttick ∧ Instr.thb (.write 0x12) ≠ .reset ∧ Instr.thb (.write 0x12) ≠ .restore :=
  ⟨_, rfl, by decide, by decide, by decide, by decide⟩

/-- An operation that writes `CDTR` and one that does not. -/
theorem witness_TransmitQueueOnlyGrows :
    (∃ t, exec (.pwrW 0x0B 0x42) State.reset = .next t ∧ Instr.pwrW 0x0B 0x42 ≠ .reset ∧ Instr.pwrW 0x0B 0x42 ≠ .restore ∧
      PReg.cdtr ∈ writesPeriph Config.ref (.pwrW 0x0B 0x42)) ∧
    ∃ t, exec (.pwrH 0x0A 0x42) State.reset = .next t ∧ Instr.pwrH 0x0A 0x42 ≠ .reset ∧ Instr.pwrH 0x0A 0x42 ≠ .restore ∧
      PReg.cdtr ∉ writesPeriph Config.ref (.pwrH 0x0A 0x42) :=
  ⟨⟨_, rfl, by decide, by decide, by decide⟩, _, rfl, by decide, by decide, by decide⟩

/-- A port write, and a bus write of ROM. -/
theorem witness_OnlyBusWritesChangeMemory :
    State.reset.cfg.Wf ∧ (∃ t, exec (.wrB 0x07FFFFFF 1) State.reset = .next t) ∧
    ∃ t, exec (.vwrB 0x7F 1) State.reset = .next t ∧ Instr.vwrB 0x7F 1 ≠ .reset ∧ Instr.vwrB 0x7F 1 ≠ .restore ∧
      (∀ a d, Instr.vwrB 0x7F 1 ≠ .wrB a d) ∧ (∀ a d, Instr.vwrB 0x7F 1 ≠ .wrH a d) ∧ ∀ a d, Instr.vwrB 0x7F 1 ≠ .wrW a d :=
  ⟨by decide, ⟨_, rfl⟩, _, rfl, by decide, by decide, fun _ _ => Instr.noConfusion, fun _ _ => Instr.noConfusion,
    fun _ _ => Instr.noConfusion⟩

theorem witness_RepeatedWritesAreIdempotent :
    State.reset.Inv ∧ isWrite (.intenb (.writeHalf 0xFFFF)) = true ∧
    ∃ t, exec (.intenb (.writeHalf 0xFFFF)) State.reset = .next t ∧ t.arch.txq = State.reset.arch.txq :=
  ⟨by decide, by decide, _, rfl, rfl⟩

theorem witness_InertFieldsGateNothing : Instr.ttick ≠ .snap ∧ ∃ t, exec .ttick (timer 2 5 true false) = .next t :=
  ⟨by decide, _, rfl⟩

theorem witness_HiddenFieldsCannotBeRead :
    isRead (.cdtr .read) = true ∧ Instr.cdtr .read ≠ .snap ∧ ∃ t, exec (.cdtr .read) State.reset = .next t :=
  ⟨by decide, by decide, _, rfl⟩

theorem witness_AgentsHaveEqualRights :
    (waiting [asks .commSubsystem 0xC7000000000000017E]).inbox = asks .commSubsystem 0xC7000000000000017E :: [] := by decide

end Sys2Proof.Tests
end

namespace Sys2Proof.Proofs

/-! The family `20_memory.md`: the bus accesses by the owner of the address (R70, R72), and the statements about regions,
unmapped addresses and the lookup that follow from them. -/

open Sys2Proof Sys2Proof.Machine Sys2Proof.Laws

/-! ## The six bus operations through the two primitives (40_bus_ops.md R142 to R147) -/

theorem exec_rdB (s : State) (addr : Word) : exec (.rdB addr) s =
    .next (s.put s.arch (.byte ((memRead s.cfg s.arch addr .b).setWidth 8))) := rfl

theorem exec_rdH (s : State) (addr : Word) : exec (.rdH addr) s =
    .next (s.put s.arch (.half ((memRead s.cfg s.arch addr .h).setWidth 16))) := rfl

theorem exec_rdW (s : State) (addr : Word) : exec (.rdW addr) s =
    .next (s.put s.arch (.word (memRead s.cfg s.arch addr .w))) := rfl

theorem exec_wrB (s : State) (addr : Word) (d : Byte) : exec (.wrB addr d) s =
    .next (s.put (memWrite s.cfg s.arch addr .b (d.setWidth 32)) .none) := rfl

theorem exec_wrH (s : State) (addr : Word) (d : Half) : exec (.wrH addr d) s =
    .next (s.put (memWrite s.cfg s.arch addr .h (d.setWidth 32)) .none) := rfl

theorem exec_wrW (s : State) (addr d : Word) : exec (.wrW addr d) s =
    .next (s.put (memWrite s.cfg s.arch addr .w d) .none) := rfl

/-! ## The primitives by the owner of the address (40_bus_ops.md R140, R141) -/

theorem memRead_region {c : Config} {addr : Word} {r : Region} (h : ownerOf c addr = .region r) (a : Arch) (sz : Size) :
    memRead c a addr sz = regionRead c a.mem r (busAddr c addr sz - (c.win r).base) sz := by
  simp only [memRead, h]

theorem memWrite_region {c : Config} {addr : Word} {r : Region} (h : ownerOf c addr = .region r) (a : Arch) (sz : Size)
    (v : Word) : memWrite c a addr sz v =
      { a with mem := regionWrite c a.mem r (busAddr c addr sz - (c.win r).base) sz v } := by
  simp only [memWrite, h]

theorem memRead_unmapped {c : Config} {addr : Word} (h : ownerOf c addr = .unmapped) (a : Arch) (sz : Size) :
    memRead c a addr sz = fill c sz := by
  simp only [memRead, h]

theorem memWrite_unmapped {c : Config} {addr : Word} (h : ownerOf c addr = .unmapped) (a : Arch) (sz : Size) (v : Word) :
    memWrite c a addr sz v = a := by
  simp only [memWrite, h]

/-- A region that is not writable discards a write (20_memory.md R81). -/
theorem memWrite_readOnly {c : Config} {addr : Word} {r : Region} (h : ownerOf c addr = .region r)
    (hw : (c.win r).writable = false) (a : Arch) (sz : Size) (v : Word) : memWrite c a addr sz v = a := by
  simp [memWrite_region h, regionWrite, hw]

/-! ## The aligned address, and the values read, by width -/

theorem busAddr_byte (c : Config) (addr : Word) : busAddr c addr .b = (addr &&& c.addrMask).toNat :=
  congrArg BitVec.toNat (align_byte _)

theorem busAddr_half (c : Config) (addr : Word) : busAddr c addr .h = (addr &&& c.addrMask &&& ~~~1#32).toNat := rfl

theorem busAddr_word (c : Config) (addr : Word) : busAddr c addr .w = (addr &&& c.addrMask &&& ~~~3#32).toNat := rfl

section
variable (c : Config) (m : Memory) (r : Region) (off : Nat)

theorem regionRead_byte : (regionRead c m r off .b).setWidth 8 = regionByte m r (backOffset c r off 0) := ofBytes_one _

theorem regionRead_half : (regionRead c m r off .h).setWidth 16 =
    regionByte m r (backOffset c r off 1) ++ regionByte m r (backOffset c r off 0) := ofBytes_two _ _

theorem regionRead_word : regionRead c m r off .w =
    regionByte m r (backOffset c r off 3) ++ regionByte m r (backOffset c r off 2) ++
      regionByte m r (backOffset c r off 1) ++ regionByte m r (backOffset c r off 0) := ofBytes_four _ _ _ _

theorem fill_byte : (fill c .b).setWidth 8 = c.fillByte := ofBytes_one _

theorem fill_half : (fill c .h).setWidth 16 = c.fillByte ++ c.fillByte := ofBytes_two _ _

theorem fill_word : fill c .w = c.fillByte ++ c.fillByte ++ c.fillByte ++ c.fillByte := ofBytes_four _ _ _ _

end

/-! ## The bytes a write stores, and the window test -/

/-- An operation that does a bus write, of any width, to a writable region stores exactly the bytes of the aligned access
(20_memory.md R81). -/
theorem storesBytes_of_memWrite {i : Instr} {s : State} {addr v : Word} {sz : Size} {r : Region} (hs : s.Inv)
    (ho : ownerOf s.cfg addr = .region r) (hw : (s.cfg.win r).writable = true)
    (hi : exec i s = .next (s.put (memWrite s.cfg s.arch addr sz v) .none)) :
    StoresBytes i s r (busAddr s.cfg addr sz - (s.cfg.win r).base) sz.bytes v := by
  obtain ⟨hwf, hfits⟩ := hs
  obtain ⟨hstored, hframe⟩ := regionByte_regionWrite (busAddr s.cfg addr sz - (s.cfg.win r).base) sz v
    (backSize_ge hwf r) (fits_iff.mp hfits r).1
  exact ⟨_, by rw [hi, memWrite_region ho]; rfl, hstored hw, hframe⟩

/-- The window test of 20_memory.md R72, for the owner of a window. -/
theorem lookup_eq_iff_window {c : Config} (hc : c.Wf) {a : Word} {o : Owner} {base size : Nat}
    (ho : ownerExtent c o = some (base, size)) : lookup c a = o ↔ base ≤ a.toNat ∧ a.toNat - base < size := by
  rw [lookup_eq_iff hc ho]
  omega

/-! ## The statements -/

/-- Settles O10: a read in a region's window assembles the region's bytes, at each width. -/
theorem regionReadReturnsStoredBytes : Obligations.RegionReadReturnsStoredBytes := by
  intro s addr r hr
  have ho : ownerOf s.cfg addr = .region r := hr
  refine ⟨?byte, ?half, ?word⟩
  case byte => rw [exec_rdB, memRead_region ho, regionRead_byte, busAddr_byte]; rfl
  case half => rw [exec_rdH, memRead_region ho, regionRead_half, busAddr_half]; rfl
  case word => rw [exec_rdW, memRead_region ho, regionRead_word, busAddr_word]; rfl

/-- Settles O11: the three writes are the same bus write at three widths. -/
theorem regionWriteStoresBytes : Obligations.RegionWriteStoresBytes := by
  intro s addr r b h w hs hr
  have ho : ownerOf s.cfg addr = .region r := hr
  refine ⟨fun hw => ⟨?byte, ?half, ?word⟩, fun hro => ?readOnly⟩
  case byte => simpa only [busAddr_byte, Size.bytes] using storesBytes_of_memWrite hs ho hw (exec_wrB s addr b)
  case half => simpa only [busAddr_half, Size.bytes] using storesBytes_of_memWrite hs ho hw (exec_wrH s addr h)
  case word => simpa only [busAddr_word, Size.bytes] using storesBytes_of_memWrite hs ho hw (exec_wrW s addr w)
  case readOnly =>
    simp only [exec_wrB, exec_wrH, exec_wrW, memWrite_readOnly ho hro]
    exact ⟨rfl, rfl, rfl⟩

/-- Settles O12: an address in no window is unmapped, where reads answer the fill and writes leave the tuple. -/
theorem unmappedAccessDegrades : Obligations.UnmappedAccessDegrades := by
  intro s addr b h w hout
  have ho : ownerOf s.cfg addr = .unmapped := lookup_unmapped.mpr hout
  simp only [exec_rdB, exec_rdH, exec_rdW, exec_wrB, exec_wrH, exec_wrW, memRead_unmapped ho, memWrite_unmapped ho,
    fill_byte, fill_half, fill_word]
  exact ⟨rfl, rfl, rfl, rfl, rfl, rfl⟩

/-- Settles O14: each owner by its window, and no owner by the absence of one. -/
theorem lookupFindsTheContainingWindow : Obligations.LookupFindsTheContainingWindow :=
  fun _ _ hc => ⟨fun _ => lookup_eq_iff_window hc rfl, lookup_eq_iff_window hc rfl, lookup_eq_iff_window hc rfl,
    lookup_unmapped⟩

end Sys2Proof.Proofs

namespace Sys2Proof.Proofs

/-! The family `41_video_regs.md`: what a level-2 access to each video register answers and does (R170, R173 to R177,
R191), and what else changes `DPSTTS` and `CTA`. -/

open Sys2Proof Sys2Proof.Machine Sys2Proof.Laws

/-! ## The level-2 operations through the shared access (40_bus_ops.md R150 to R153) -/

theorem exec_ofVReg (x : VReg) (acc : VAccess) (s : State) : exec (Instr.ofVReg acc x) s = vregAccess x acc s := by
  cases x <;> rfl

theorem exec_vregReadHalf (x : VReg) (s : State) :
    exec (Instr.ofVReg .readHalf x) s = .next (s.put s.arch (.half (vread s.cfg s.arch.vid x))) :=
  exec_ofVReg x .readHalf s

theorem exec_vregReadByte (x : VReg) (hi : Bool) (s : State) :
    exec (Instr.ofVReg (.readByte hi) x) s = .next (s.put s.arch (.byte (laneOf hi (vread s.cfg s.arch.vid x)))) :=
  exec_ofVReg x (.readByte hi) s

theorem exec_vregWriteHalf (x : VReg) (d : Half) (s : State) : exec (Instr.ofVReg (.writeHalf d) x) s =
    .next (s.put { s.arch with vid := vwrite s.cfg d 0xFFFF s.arch.vid x } .none) :=
  exec_ofVReg x (.writeHalf d) s

theorem exec_vregWriteByte (x : VReg) (hi : Bool) (d : Byte) (s : State) : exec (Instr.ofVReg (.writeByte hi d) x) s =
    .next (s.put { s.arch with vid := vwrite s.cfg (placeLane hi d) (laneMask hi) s.arch.vid x } .none) :=
  exec_ofVReg x (.writeByte hi d) s

/-- A register whose writes leave the video registers alone discards every write access (R174, R178, R185, R191). -/
theorem exec_vregWrite_discarded {x : VReg} {acc : VAccess} (hacc : vaccReads acc = false) (s : State)
    (hx : ∀ v m, vwrite s.cfg v m s.arch.vid x = s.arch.vid) :
    exec (Instr.ofVReg acc x) s = .next (s.put s.arch .none) := by
  cases acc with
  | readByte | readHalf => cases hacc
  | writeByte hi d => rw [exec_vregWriteByte, hx]
  | writeHalf d => rw [exec_vregWriteHalf, hx]

/-! ## Lanes -/

/-- A byte placed in its lane lies inside the lane's mask. -/
theorem placeLane_and_laneMask (hi : Bool) (d : Byte) : placeLane hi d &&& laneMask hi = placeLane hi d := by
  cases hi with
  | false =>
    rw [placeLane_low, show laneMask false = (0#8 ++ BitVec.allOnes 8 : BitVec (8 + 8)) by decide]
    exact BitVec.and_append.trans (by rw [BitVec.and_self, BitVec.and_allOnes])
  | true =>
    rw [placeLane_high, show laneMask true = (BitVec.allOnes 8 ++ 0#8 : BitVec (8 + 8)) by decide]
    exact BitVec.and_append.trans (by rw [BitVec.and_self, BitVec.and_allOnes])

theorem laneOf_zero (hi : Bool) : laneOf hi 0x0000 = 0x00 := by
  cases hi <;> decide

theorem and_fullMask (v : Half) : v &&& 0xFFFF = v := BitVec.and_allOnes

/-- A register that holds no bit outside the mask is replaced by what the mask lets through. -/
theorem merge16_of_masked {x k : Half} (h : x &&& ~~~k = 0x0000) (v : Half) : merge16 x v k = v &&& k := by
  rw [merge16, h]
  exact BitVec.zero_or

/-! ## A write of a plain register -/

/-- A write of `v` under lane mask `m` that reaches plain register `x` with write mask `w`: the register takes the bits
inside both masks, every other reading and the frame count stay (R170). -/
theorem vwrite_plain {c : Config} {x : VReg} {w : Half} (hx : plainMask c x = some w) (v m : Half) (r : VideoRegs) :
    vread c (vwrite c v m r x) x = merge16 (vread c r x) v (m &&& w) ∧
      (∀ y, y ≠ x → vread c (vwrite c v m r x) y = vread c r y) ∧ (vwrite c v m r x).fcnt = r.fcnt := by
  have hclr : x ≠ .intclr := by rintro rfl; cases hx
  exact ⟨vread_vwrite_plain hx, fun y hy => vread_vwrite_other hy fun _ => hclr, vwrite_fcnt ..⟩

/-! ## The operations that change the display inputs -/

/-- `DPSTTS` and `CTA` change only by `VSTAT`, `VCTA`, `RESET` and `RESTORE` (section 3). -/
theorem nextArch_displayInputs {i : Instr} {s : State} (hreset : i ≠ .reset) (hrestore : i ≠ .restore) :
    ((∀ v, i ≠ .vstat v) → (nextArch i s).vid.dpstts = s.arch.vid.dpstts) ∧
      ((∀ v, i ≠ .vcta v) → (nextArch i s).vid.cta = s.arch.vid.cta) := by
  refine nextArch_cases (P := fun a => ((∀ v, i ≠ .vstat v) → a.vid.dpstts = s.arch.vid.dpstts) ∧
    ((∀ v, i ≠ .vcta v) → a.vid.cta = s.arch.vid.cta)) ?read (fun _ => ?write) fun he => ?event
  case read => exact ⟨fun _ => rfl, fun _ => rfl⟩
  case write => exact ⟨fun _ => by rw [writeEffect_vid, applyV_dpstts], fun _ => by rw [writeEffect_vid, applyV_cta]⟩
  case event =>
    cases i
    case reset => exact absurd rfl hreset
    case restore => exact absurd rfl hrestore
    case vstat v => exact ⟨fun h => absurd rfl (h v), fun _ => rfl⟩
    case vcta v => exact ⟨fun _ => rfl, fun h => absurd rfl (h v)⟩
    case ttick | rtick | vraise | serrx | comrx | pstat | tdrvOn | tdrvOff | rdrvOn | rdrvOff =>
      exact ⟨fun _ => rfl, fun _ => rfl⟩
    all_goals cases he

/-! ## The statements -/

/-- Settles O23: each access of a plain register is one `vwrite` under its lanes. -/
theorem plainRegistersAreMaskedStorage : Obligations.PlainRegistersAreMaskedStorage := by
  intro s x w hx X writes
  have hplain := fun v m => vwrite_plain hx v m s.arch.vid
  refine ⟨exec_vregReadHalf x s, exec_vregReadByte x false s, exec_vregReadByte x true s, fun d => ?half, fun d => ?low,
    fun d => ?high, fun hX d => ⟨_, exec_vregWriteHalf x d s, ?readBack⟩⟩
  case half => exact ⟨_, exec_vregWriteHalf x d s, hplain d 0xFFFF⟩
  case low => exact ⟨_, exec_vregWriteByte x false d s, placeLane_low d ▸ hplain _ (laneMask false)⟩
  case high => exact ⟨_, exec_vregWriteByte x true d s, placeLane_high d ▸ hplain _ (laneMask true)⟩
  case readBack =>
    obtain ⟨hread, -, -⟩ := hplain d 0xFFFF
    rw [BitVec.and_comm, and_fullMask, merge16_of_masked hX] at hread
    rw [← hread]
    exact exec_vregReadHalf x _

/-- Settles O25: a write merges its lanes into the old value, and all sixteen are the value written. -/
theorem intenbTakesWhatIsWritten : Obligations.IntenbTakesWhatIsWritten := by
  intro s d b old put
  exact ⟨exec_vregReadHalf .intenb s, exec_vregReadByte .intenb false s, exec_vregReadByte .intenb true s,
    (exec_vregWriteHalf .intenb d s).trans (congrArg put (merge16_full old d)),
    (exec_vregWriteByte .intenb false b s).trans (congrArg put (merge16_low old b)),
    (exec_vregWriteByte .intenb true b s).trans (congrArg put (merge16_high old b))⟩

/-- Settles O26: the reads are those of every register, and a write leaves the video registers. -/
theorem intpndReadsLiveAndIgnoresWrites : Obligations.IntpndReadsLiveAndIgnoresWrites := fun s _ =>
  ⟨exec_vregReadHalf .intpnd s, exec_vregReadByte .intpnd false s, exec_vregReadByte .intpnd true s,
    fun hacc => exec_vregWrite_discarded (x := .intpnd) hacc s fun _ _ => rfl⟩

/-- Settles O27: the bits cleared are those of the value written that lie in the lanes written. -/
theorem intclrClearsNamedBits : Obligations.IntclrClearsNamedBits := by
  intro s d b p pend
  have half (v : Half) : exec (.intclr (.writeHalf v)) s = pend (p &&& ~~~v) :=
    (exec_vregWriteHalf .intclr v s).trans (congrArg (fun m => pend (p &&& ~~~m)) (and_fullMask v))
  have byte (hi : Bool) : exec (.intclr (.writeByte hi b)) s = pend (p &&& ~~~(placeLane hi b)) :=
    (exec_vregWriteByte .intclr hi b s).trans (congrArg (fun m => pend (p &&& ~~~m)) (placeLane_and_laneMask hi b))
  have zero (hi : Bool) : exec (.intclr (.readByte hi)) s = .next { s with result := .byte 0x00 } := by
    rw [← laneOf_zero hi]
    exact exec_vregReadByte .intclr hi s
  exact ⟨half d, placeLane_low b ▸ byte false, placeLane_high b ▸ byte true,
    (half p).trans (congrArg pend (BitVec.and_not_self p)), exec_vregReadHalf .intclr s, zero false, zero true⟩

/-- Settles O28: the accesses are those of every register, a write leaves the video registers, and of the operations
only the events named reach `DPSTTS` or `CTA`. -/
theorem displayRegistersDiscardWrites : Obligations.DisplayRegistersDiscardWrites := by
  refine ⟨fun s acc => ⟨exec_vregReadHalf .ver s, exec_vregReadHalf .dpstts s, exec_vregReadHalf .cta s,
    exec_vregReadByte .ver false s, exec_vregReadByte .ver true s, exec_vregReadByte .dpstts false s,
    exec_vregReadByte .dpstts true s, exec_vregReadByte .cta false s, exec_vregReadByte .cta true s,
    fun hacc => ⟨?ver, ?dpstts, ?cta⟩⟩, fun i s t hexec hreset hrestore => ?onlyEvents⟩
  case ver => exact exec_vregWrite_discarded (x := .ver) hacc s fun _ _ => rfl
  case dpstts => exact exec_vregWrite_discarded (x := .dpstts) hacc s fun _ _ => rfl
  case cta => exact exec_vregWrite_discarded (x := .cta) hacc s fun _ _ => rfl
  case onlyEvents =>
    rw [exec_arch hexec]
    exact nextArch_displayInputs hreset hrestore

end Sys2Proof.Proofs

namespace Sys2Proof.Proofs

/-! The family `42_periph_regs.md`: what a level-2 access to each peripheral register answers and does, for the masked
registers (R221 to R225, R241 to R243) and the timer bytes (R231 to R234). -/

open Sys2Proof Sys2Proof.Machine Sys2Proof.Laws

/-! ## The level-2 operations through the shared access (40_bus_ops.md R156, R157) -/

theorem exec_ofPReg (x : PReg) (acc : PAccess) (s : State) : exec (Instr.ofPReg acc x) s = pregAccess x acc s := by
  cases x <;> rfl

theorem exec_pregRead (x : PReg) (s : State) :
    exec (Instr.ofPReg .read x) s = .next (s.put s.arch (.byte (pread s.cfg s.arch.per x))) :=
  exec_ofPReg x .read s

theorem exec_pregWrite (x : PReg) (d : Byte) (s : State) :
    exec (Instr.ofPReg (.write d) x) s = .next (s.put (pwrite s.cfg d s.arch x) .none) :=
  exec_ofPReg x (.write d) s

/-! ## The statements -/

/-- Settles O29: the reads are those of every register, and the `pwrite` of these four is the masked store of R221
(`merge8`) in their own field. -/
theorem maskedPeripheralRegisters : Obligations.MaskedPeripheralRegisters := by
  intro s v p m put
  refine ⟨exec_pregRead .ccr s, exec_pregRead .ccsr s, exec_pregRead .scr s, exec_pregRead .wcr s,
    ?ccr, ?ccsr, ?scr, ?wcr⟩
  case ccr => exact (exec_pregWrite .ccr v s : _ = put { p with ccr := merge8 p.ccr v m.ccr })
  case ccsr => exact (exec_pregWrite .ccsr v s : _ = put { p with ccsr := merge8 p.ccsr v m.ccsr })
  case scr => exact (exec_pregWrite .scr v s : _ = put { p with scr := merge8 p.scr v m.scr })
  case wcr => exact (exec_pregWrite .wcr v s : _ = put { p with wcr := merge8 p.wcr v m.wcr })

/-- Settles O32: `pread` of `TLB` and `THB` takes a byte of the counter, `pwrite` replaces a byte of the staged value and
leaves the counter. -/
theorem timerBytesReadLiveAndWriteStaged : Obligations.TimerBytesReadLiveAndWriteStaged := fun s v =>
  ⟨exec_pregRead .tlb s, exec_pregRead .thb s, exec_pregWrite .tlb v s, exec_pregWrite .thb v s⟩

end Sys2Proof.Proofs

namespace Sys2Proof.Proofs

/-! The family `43_timer_engine.md`: one `TTICK` by the state of the timer (R271 to R276, R280). -/

open Sys2Proof Sys2Proof.Machine Sys2Proof.Laws

/-! ## The timer step in each of its four cases (R276) -/

theorem exec_ttick (s : State) :
    exec .ttick s = .next (s.put { s.arch with per := timerTick s.arch.per } .none) := rfl

section
variable {p : PeriphRegs}

/-- A Stopped timer ignores the tick (R271). -/
theorem timerTick_of_stopped (he : p.tEnb = false) : timerTick p = p := by
  obtain ⟨-, ht⟩ | ⟨he', -⟩ | ⟨he', -⟩ | ⟨he', -⟩ := timerTick_cases p
  · exact ht
  all_goals cases he.symm.trans he'

/-- A count above 1 is decremented without expiry (R272). -/
theorem timerTick_of_counting (he : p.tEnb = true) (hc : 1 < p.tCount.toNat) :
    timerTick p = { p with tReset := false, tCount := p.tCount - 1 } := by
  obtain ⟨he', -⟩ | ⟨-, -, ht⟩ | ⟨-, hc', -⟩ | ⟨-, hc', -⟩ := timerTick_cases p
  · cases he.symm.trans he'
  · exact ht
  all_goals exact absurd hc (Nat.not_lt.mpr hc')

/-- A count of 0 or 1 expires; with auto-reload the staged value is the next count (R273, R274). -/
theorem timerTick_of_reload (he : p.tEnb = true) (hc : p.tCount.toNat ≤ 1) (ha : p.tAuto = true) :
    timerTick p = { p with tReset := false, zStat := true, tCount := p.tStage } := by
  obtain ⟨he', -⟩ | ⟨-, hc', -⟩ | ⟨-, -, -, ht⟩ | ⟨-, -, ha', -⟩ := timerTick_cases p
  · cases he.symm.trans he'
  · exact absurd hc' (Nat.not_lt.mpr hc)
  · exact ht
  · cases ha.symm.trans ha'

/-- A count of 0 or 1 expires; without auto-reload the timer stops at zero (R273, R275). -/
theorem timerTick_of_oneShot (he : p.tEnb = true) (hc : p.tCount.toNat ≤ 1) (ha : p.tAuto = false) :
    timerTick p = { p with tReset := false, zStat := true, tCount := 0, tEnb := false } := by
  obtain ⟨he', -⟩ | ⟨-, hc', -⟩ | ⟨-, -, ha', -⟩ | ⟨-, -, -, ht⟩ := timerTick_cases p
  · cases he.symm.trans he'
  · exact absurd hc' (Nat.not_lt.mpr hc)
  · cases ha.symm.trans ha'
  · exact ht

end

/-! ## The statement -/

/-- Settles O35: `TTICK` puts `timerTick` of the peripheral registers, which is known in each of the four cases. -/
theorem timerTickCaseByCase : Obligations.TimerTick := by
  intro s p put
  have tick {q : PeriphRegs} (hq : timerTick p = q) : exec .ttick s = put q :=
    (exec_ttick s).trans (congrArg put hq)
  exact ⟨fun he => tick (timerTick_of_stopped he), fun he hc => tick (timerTick_of_counting he hc),
    fun he hc ha => tick (timerTick_of_reload he hc ha), fun he hc ha => tick (timerTick_of_oneShot he hc ha)⟩

end Sys2Proof.Proofs

namespace Sys2Proof.Proofs

/-! The family `44_events.md`: `RESET` (R300, R360) and what the zero reset tuple of CFG_REF answers (R361, R362). -/

open Sys2Proof Sys2Proof.Machine Sys2Proof.Laws

/-! ## The operation -/

theorem exec_reset (s : State) : exec .reset s = .next (s.put (Arch.atReset s.cfg) .none) := rfl

theorem exec_irqq (s : State) : exec .irqq s = .next (s.put s.arch (.bit s.arch.irq)) := rfl

/-! ## Registers that hold zero -/

theorem vread_zero (c : Config) {x : VReg} (hx : x ≠ .ver) : vread c VideoRegs.zero x = 0x0000 := by
  cases x
  case ver => exact absurd rfl hx
  all_goals rfl

/-- No position of `TCR` shows a bit when the four stored fields are clear (R235). -/
theorem tcrRead_zero (t : TcrBits) : tcrRead t PeriphRegs.zero = 0x00 := by
  simp [tcrRead, tcrBit, PeriphRegs.zero]

theorem pread_zero (c : Config) (x : PReg) : pread c PeriphRegs.zero x = 0x00 := by
  cases x
  case tcr => exact tcrRead_zero c.tcr
  all_goals rfl

theorem irq_zero {a : Arch} (hv : a.vid = VideoRegs.zero) (hp : a.per = PeriphRegs.zero) : a.irq = false := by
  rw [Arch.irq, hv, hp]
  rfl

/-! ## The statement -/

/-- Settles O43: `RESET` puts `Arch.atReset`; where its registers are those of CFG_REF they are `VideoRegs.zero` and
`PeriphRegs.zero`, and every read of a zero register file is zero. -/
theorem resetReplacesTheTuple : Obligations.ResetReplacesTheTuple := by
  refine ⟨exec_reset State.reset, fun s => ⟨exec_reset s, fun hv hp => ⟨_, exec_reset s, ?_⟩⟩⟩
  generalize ht : s.put (Arch.atReset s.cfg) .none = t
  have hcfg : t.cfg = s.cfg := by rw [← ht]; rfl
  have hvid : t.arch.vid = VideoRegs.zero := by rw [← ht]; exact hv
  have hper : t.arch.per = PeriphRegs.zero := by rw [← ht]; exact hp
  have hread {x : VReg} (hx : x ≠ .ver) : vread t.cfg t.arch.vid x = 0x0000 := by rw [hvid, vread_zero _ hx]
  refine ⟨fun _ => hread, ?fcnt, hper, ?periph, ?video, ?ver, ?irq⟩
  case fcnt => rw [hvid]; rfl
  case periph => exact fun x => by rw [exec_pregRead, hper, pread_zero]; rfl
  case video => exact fun x hx => by rw [exec_vregReadHalf, hread hx]; rfl
  case ver => rw [← hcfg]; exact exec_vregReadHalf .ver t
  case irq => rw [exec_irqq, irq_zero hvid hper]; rfl

end Sys2Proof.Proofs

namespace Sys2Proof.Proofs

/-! The family `60_exceptions.md`: refusal before the first operation (R334), the interrupt output (R320) and the agents'
equal rights (R336). -/

open Sys2Proof Sys2Proof.Machine Sys2Proof.Laws

/-! ## One step, by what it answers -/

section
variable {s : State}

theorem step_of_not_wf (hc : ¬ s.cfg.Wf) : step s = .refused .illFormedConfig := if_neg hc

theorem step_of_decoded {q : Request} {rest : List Request} {i : Instr} (hc : s.cfg.Wf) (hq : s.inbox = q :: rest)
    (hd : decode s.cfg q.raw = .ok i) : step s = exec i (s.accept q rest) := by
  simp only [step, if_pos hc, hq, hd]

theorem step_of_rejected {q : Request} {rest : List Request} {e : Reject} (hc : s.cfg.Wf) (hq : s.inbox = q :: rest)
    (hd : decode s.cfg q.raw = .error e) : step s = .refused (refusalOf e) := by
  simp only [step, if_pos hc, hq, hd]

end

/-! ## The interrupt output -/

theorem irq_eq_true_iff {a : Arch} :
    a.irq = true ↔ (a.vid.intpnd &&& a.vid.intenb) ≠ 0x0000 ∨ (a.per.zStat = true ∧ a.per.zInt = true) := by
  simp only [Arch.irq, Bool.or_eq_true, bne_iff_ne, Bool.and_eq_true]

theorem exec_irqq_of_irq {s : State} {b : Bool} (hb : s.arch.irq = b) : exec .irqq s = .next { s with result := .bit b } := by
  rw [exec_irqq, hb]
  rfl

/-! ## The statements -/

/-- Settles O3: the step tests the configuration first, and no operation changes it. -/
theorem illFormedConfigurationIsRefused : Obligations.IllFormedConfigurationIsRefused :=
  ⟨fun _ => step_of_not_wf, fun _ _ _ => exec_cfg⟩

/-- Settles O42: `IRQQ` answers `Arch.irq` and puts the tuple back unchanged. -/
theorem irqIsTheOrOfEnabledPendingBits : Obligations.IrqIsTheOrOfEnabledPendingBits := fun _ =>
  ⟨fun h => exec_irqq_of_irq (irq_eq_true_iff.mpr h),
   fun h => exec_irqq_of_irq (Bool.eq_false_iff.mpr (mt irq_eq_true_iff.mp h))⟩

/-- Settles O59: a step is refused for the configuration, refused for the word, or performs the decoded operation in the
accepting state; none of the three has the issuer in it. -/
theorem agentsHaveEqualRights : Obligations.AgentsHaveEqualRights := by
  intro s q agent rest hq
  by_cases hc : s.cfg.Wf
  · rcases hd : decode s.cfg q.raw with e | i
    · rw [step_of_rejected hc hq hd]
      exact step_of_rejected hc rfl hd
    · rw [step_of_decoded hc hq hd]
      exact step_of_decoded (q := { q with agent := agent }) hc rfl hd
  · rw [step_of_not_wf hc]
    exact step_of_not_wf hc

end Sys2Proof.Proofs

namespace Sys2Proof.Proofs

/-! The family `30_encoding.md`: decoding the canonical word of an operation (R110 to R123, R129), and the words that are
reserved (R118). -/

open Sys2Proof Sys2Proof.Machine Sys2Proof.Laws

/-! ## The data operand (30_encoding.md R116) -/

/-- A word whose operation takes `data[7:0]` decodes to the byte it was made of. -/
theorem decode_opWord_byte {c : Config} {op : BitVec 8} {a : Word} {d : Byte} {f : Byte → Instr}
    (h : decode c (opWord op a (d.setWidth 32)) = .ok (f (data8 (d.setWidth 32)))) :
    decode c (opWord op a (d.setWidth 32)) = .ok (f d) := by
  rw [h, data8_setWidth]

/-- A word whose operation takes `data[15:0]` decodes to the halfword it was made of. -/
theorem decode_opWord_half {c : Config} {op : BitVec 8} {a : Word} {d : Half} {f : Half → Instr}
    (h : decode c (opWord op a (d.setWidth 32)) = .ok (f (data16 (d.setWidth 32)))) :
    decode c (opWord op a (d.setWidth 32)) = .ok (f d) := by
  rw [h, data16_setWidth]

/-! ## `PSTAT` (44_events.md R298) -/

theorem hasStatusBits_iff {x : PReg} : x.hasStatusBits = true ↔ x ∈ [PReg.ccr, PReg.ccsr, PReg.scr] := by
  cases x <;> decide

theorem exec_pstat {s : State} {x : PReg} {v : Byte} {p : PeriphRegs} (h : pstatus s.cfg v s.arch.per x = some p) :
    exec (.pstat x v) s = .next (s.put { s.arch with per := p } .none) := by
  show execPstat x v s = _
  rw [execPstat, h]
  rfl

theorem decode_pstatWord (c : Config) (a d : Word) : decode c (opWord 0xC8 a d) = decodePstat c a d :=
  decode_opWord c 0xC8 a d

/-- The register offset that an address names by its bits 5:0. -/
theorem toNat_addrLow (a : Word) : (a.extractLsb' 0 6).toNat = a.toNat % 64 := by
  simp [BitVec.extractLsb'_toNat]

/-- An address at the offset of a register with status bits names that register. -/
theorem decodePstat_of_offset {c : Config} (hc : c.Wf) {a d : Word} {x : PReg} (hx : x.hasStatusBits = true)
    (ha : a.toNat % 64 = c.poff x) : decodePstat c a d = .ok (.pstat x (data8 d)) := by
  simp only [decodePstat, toNat_addrLow, ha, pregAt_poff hc, hx, if_true]

/-- An address at no such offset is refused. -/
theorem decodePstat_of_no_offset {c : Config} (hc : c.Wf) {a d : Word}
    (ha : ∀ x : PReg, x.hasStatusBits = true → a.toNat % 64 ≠ c.poff x) :
    decodePstat c a d = .error .pstatRegister := by
  unfold decodePstat
  rw [toNat_addrLow]
  split
  · next x hx => exact if_neg fun hs => ha x hs ((pregAt_eq_some hc).mp hx).symm
  · rfl

theorem decodePstat_ne_reserved (c : Config) (a d : Word) : decodePstat c a d ≠ .error .reservedWord := by
  unfold decodePstat
  split
  · split <;> nofun
  · nofun

/-- The canonical word of a well-formed `PSTAT`. -/
theorem decode_encode_pstat {c : Config} (hc : c.Wf) {x : PReg} (hx : x.hasStatusBits = true) (v : Byte) :
    decode c (encode c (.pstat x v)) = .ok (.pstat x v) := by
  have hlt := poff_lt hc x
  refine decode_opWord_byte ((decode_pstatWord c _ _).trans (decodePstat_of_offset hc hx ?_))
  rw [BitVec.toNat_ofNat]
  omega

/-! ## The level-2 words (30_encoding.md R119 to R123) -/

theorem decode_encodeV {c : Config} (hc : c.Wf) (x : VReg) (acc : VAccess) :
    decode c (encodeV c x acc) = .ok (Instr.ofVReg acc x) := by
  cases acc with
  | readByte hi => simp only [encodeV, decode_vslotWord, laneOffset_slot hc, vregAt_voff hc, laneOffset_lane hc]
  | readHalf => simp only [encodeV, decode_vslotWord, laneOffset_slot hc, vregAt_voff hc]
  | writeByte hi d =>
    have hd : (d.setWidth 16).extractLsb' 0 8 = d := by
      rw [BitVec.extractLsb'_setWidth_of_le (by decide), BitVec.extractLsb'_eq_self]
    simp only [encodeV, decode_vslotWord, laneOffset_slot hc, vregAt_voff hc, laneOffset_lane hc, hd]
  | writeHalf d => simp only [encodeV, decode_vslotWord, laneOffset_slot hc, vregAt_voff hc]

theorem decode_encodeP {c : Config} (hc : c.Wf) (x : PReg) (acc : PAccess) :
    decode c (encodeP c x acc) = .ok (Instr.ofPReg acc x) := by
  have hoff : (BitVec.ofNat 6 (c.poff x)).toNat = c.poff x :=
    Nat.mod_eq_of_lt (poff_lt hc x)
  cases acc with
  | read => rw [encodeP, decode_pslotWord, hoff, pregAt_poff hc]; rfl
  | write d => rw [encodeP, decode_pslotWord, hoff, pregAt_poff hc]; rfl

/-! ## Reserved operation words (30_encoding.md R118) -/

section
variable (we : BitVec 1) (size : BitVec 2) (a d : Word)

/-- In the three access classes size 3 is reserved, and nothing else. -/
theorem decodeSized_reserved_iff :
    (decodeBus we size a d = .error .reservedWord ↔ size = 3#2) ∧
    (decodeVport we size a d = .error .reservedWord ↔ size = 3#2) ∧
    (decodePport we size a d = .error .reservedWord ↔ size = 3#2) := by
  obtain rfl | rfl : we = 0#1 ∨ we = 1#1 := by revert we; decide
  all_goals
    obtain rfl | rfl | rfl | rfl : size = 0#2 ∨ size = 1#2 ∨ size = 2#2 ∨ size = 3#2 := by revert size; decide
    all_goals simp [decodeBus, decodeVport, decodePport]

end

/-- The event codes from 16 on are reserved (30_encoding.md R115). -/
theorem decodeEvent_reserved_iff (c : Config) (ev : BitVec 6) (a d : Word) :
    decodeEvent c ev a d = .error .reservedWord ↔ 16 ≤ ev.toNat := by
  unfold decodeEvent
  split
  case h_9 => simpa using decodePstat_ne_reserved c a d
  case h_17 =>
    refine iff_of_true rfl ?_
    simp only [imp_false, ← BitVec.toNat_inj, BitVec.toNat_ofNat] at *
    omega
  all_goals simp

/-- The legal `op` bytes by their fields: an event code below 16, or zero bits 5:3 and a size of 1, 2 or 4 bytes
(30_encoding.md R111 to R115). -/
theorem mem_legalOps_iff (op : BitVec 8) : op ∈ legalOps ↔
    if opClass op = 3#2 then ¬ 16 ≤ (opEvent op).toNat else opZero op = 0#3 ∧ opSize op ≠ 3#2 := by
  revert op
  decide

theorem decodeOpw_reserved_iff (c : Config) (w : BitVec 72) :
    decodeOpw c w = .error .reservedWord ↔ opField w ∉ legalOps := by
  rw [mem_legalOps_iff]
  unfold decodeOpw
  by_cases hev : opClass (opField w) = 3#2
  · simp only [hev, if_true, decodeEvent_reserved_iff, not_not]
  · simp only [hev, if_false]
    obtain ⟨hbus, hvport, hpport⟩ :=
      decodeSized_reserved_iff (opWe (opField w)) (opSize (opField w)) (addrField w) (dataField w)
    by_cases hz : opZero (opField w) = 0#3
    · simp only [hz, ne_eq, not_true, if_false, true_and, not_not]
      split
      · exact hbus
      · split
        · exact hvport
        · exact hpport
    · simp [hz]

/-! ## The statements -/

/-- Settles O6: by the form of the word. An operation word is decoded field by field, `PSTAT` by its offset, and a
level-2 word by the register at its offset. -/
theorem decodeInvertsEncode : Obligations.DecodeInvertsEncode := by
  intro c i hc hi
  cases i
  case pstat x v => exact decode_encode_pstat hc hi v
  case wrB | vwrB | pwrB | comrx => exact decode_opWord_byte (decode_opWord c _ _ _)
  case wrH | vwrH | pwrH | vraise | vstat | vcta | serrx => exact decode_opWord_half (decode_opWord c _ _ _)
  case ccr | ccsr | cdtr | cdrr | slb | shb | tlb | thb | tcr | wcr | scr => exact decode_encodeP hc _ _
  case rdB | rdH | rdW | wrW | vrdB | vrdH | vrdW | vwrW | prdB | prdH | prdW | pwrW | reset | ttick | rtick | irqq
      | snap | restore | tdrvOn | tdrvOff | rdrvOn | rdrvOff => exact decode_opWord c _ _ _
  all_goals exact decode_encodeV hc _ _

/-- Settles O4: the reserved words are those whose fields no class gives a meaning, and a step refuses what the decoder
rejects. -/
theorem reservedWordsAreRefused : Obligations.ReservedWordsAreRefused := fun s w =>
  ⟨decodeOpw_reserved_iff s.cfg w, fun _ _ _ hc hw hq =>
    step_of_rejected hc hq ((decodeOpw_reserved_iff s.cfg w).mpr hw)⟩

/-- Settles O7: each word is decoded. -/
theorem specWordsDecode : Obligations.SpecWordsDecode :=
  ⟨rfl, rfl, rfl, rfl, rfl, rfl, rfl, rfl, rfl, rfl⟩

/-- Settles O41: the meaning of `PSTAT` is the masked store of R298, and its decoder goes by the offset in `addr[5:0]`. -/
theorem pstatSetsReadOnlyBits : Obligations.PstatSetsReadOnlyBits := by
  intro s v addr data hc p m put word
  have hput {x : PReg} {p' : PeriphRegs} (hx : pstatus s.cfg v p x = some p') : exec (.pstat x v) s = put p' :=
    exec_pstat hx
  have hset (old k : Byte) : merge8 v old k = (old &&& k) ||| (v &&& ~~~k) := BitVec.or_comm ..
  refine ⟨hput (by rw [← hset]; rfl), hput (by rw [← hset]; rfl), hput (by rw [← hset]; rfl),
    fun x hx ha => ?named, fun ha => ?other⟩
  case named =>
    exact (decode_pstatWord s.cfg addr data).trans (decodePstat_of_offset hc (hasStatusBits_iff.mpr hx) ha)
  case other =>
    exact (decode_pstatWord s.cfg addr data).trans
      (decodePstat_of_no_offset hc fun x hx => ha x (hasStatusBits_iff.mp hx))

end Sys2Proof.Proofs

namespace Sys2Proof.Proofs

/-! The step and the invariant (00_scope.md sections 4 and 5, 60_exceptions.md section 5): what a step performs, that every
well-formed operation completes, and that the invariant holds at reset and is kept. -/

open Sys2Proof Sys2Proof.Machine Sys2Proof.Laws

/-! ## One step -/

theorem step_of_idle {s : State} (hc : s.cfg.Wf) (hq : s.inbox = []) : step s = .next s := by
  simp only [step, if_pos hc, hq]

/-! ## Completion -/

theorem pstatus_of_hasStatusBits (c : Config) (v : Byte) (p : PeriphRegs) {x : PReg} (hx : x.hasStatusBits = true) :
    ∃ p', pstatus c v p x = some p' := by
  cases x
  case ccr | ccsr | scr => exact ⟨_, rfl⟩
  all_goals cases hx

/-- `RESTORE` of a well-formed snapshot makes it the tuple (44_events.md R308). -/
theorem exec_restore_of_fits {s : State} {x : Arch} (hx : s.snapIn = some x) (hf : x.mem.Fits s.cfg) :
    exec .restore s = .next (s.put x .none) := by
  show execRestore s = _
  rw [execRestore, hx]
  exact if_pos hf

/-- An event completes: `PSTAT` on the registers it may name, `RESTORE` with a well-formed snapshot, the others always. -/
theorem exec_event_completes {i : Instr} {s : State} (he : isEvent i = true) (hi : i.wf = true)
    (hsnap : i = .restore → ∃ x : Arch, s.snapIn = some x ∧ x.mem.Fits s.cfg) : ∃ t, exec i s = .next t := by
  cases i
  case pstat x v =>
    obtain ⟨p, hp⟩ := pstatus_of_hasStatusBits s.cfg v s.arch.per hi
    exact ⟨_, exec_pstat hp⟩
  case restore =>
    obtain ⟨x, hx, hf⟩ := hsnap rfl
    exact ⟨_, exec_restore_of_fits hx hf⟩
  case reset | ttick | rtick | vraise | vstat | vcta | serrx | comrx | tdrvOn | tdrvOff | rdrvOn | rdrvOff =>
    exact ⟨_, rfl⟩
  all_goals cases he

/-! ## The statements -/

/-- Settles O1: the accepting state is the state without the request at the head. -/
theorem stepPerformsDecodedOperation : Obligations.StepPerformsDecodedOperation :=
  fun _ _ _ _ => step_of_decoded

/-- Settles O2: the step of an empty list of requests is the state. -/
theorem idleMachineStaysStill : Obligations.IdleMachineStaysStill :=
  fun _ => step_of_idle

/-- Settles O5: a read or write access completes in every state, and so does a well-formed event. -/
theorem wellFormedOperationsComplete : Obligations.WellFormedOperationsComplete := by
  intro i s hi hsnap
  rcases hr : isRead i with _ | _
  · rcases hw : isWrite i with _ | _
    · exact exec_event_completes (isEvent_of hr hw) hi hsnap
    · exact ⟨_, exec_write hw s⟩
  · obtain ⟨r, hexec⟩ := exec_read hr s
    exact ⟨_, hexec⟩

/-- Settles O8: CFG_REF is well-formed and its images list nothing. -/
theorem invariantHoldsAtReset : Obligations.InvariantHoldsAtReset :=
  ⟨by decide, by decide⟩

/-- Settles O9: an idle step keeps the state, and an operation keeps the configuration and the lengths of the arrays. -/
theorem stepKeepsInvariant : Obligations.StepKeepsInvariant := by
  intro s t hs hstep
  obtain ⟨-, ⟨-, rfl⟩ | ⟨q, rest, i, -, -, hexec⟩⟩ := step_next hstep
  · exact hs
  · have hcfg : t.cfg = s.cfg := (exec_cfg hexec).trans (accept_cfg s q rest)
    have hfits : t.arch.mem.Fits s.cfg := exec_fits (s := s.accept q rest) hs hexec
    obtain ⟨hc, -⟩ := hs
    exact ⟨hcfg ▸ hc, hcfg ▸ hfits⟩

end Sys2Proof.Proofs

namespace Sys2Proof.Proofs

/-! Addresses and widths (20_memory.md sections 2 and 5, 40_bus_ops.md section 2): an access acts at its masked aligned
address, none spans two windows, and an access of any width is the bytes at its addresses. -/

open Sys2Proof Sys2Proof.Machine Sys2Proof.Laws

/-! ## The masked aligned address (20_memory.md R71, R75, R76) -/

section
variable {c : Config} (hc : c.Wf) (addr : Word) (sz : Size)

theorem busAddr_align : busAddr c (align sz (maskAddr c addr)) sz = busAddr c addr sz := by
  rw [busAddr, mask_align, align_idem]
  rfl

include hc

theorem ownerOf_align : ownerOf c (align sz (maskAddr c addr)) = ownerOf c addr := by
  rw [ownerOf, mask_align, lookup_align hc]
  rfl

theorem memRead_align (a : Arch) : memRead c a (align sz (maskAddr c addr)) sz = memRead c a addr sz := by
  simp only [memRead, ownerOf_align hc, busAddr_align]

theorem memWrite_align (a : Arch) (v : Word) :
    memWrite c a (align sz (maskAddr c addr)) sz v = memWrite c a addr sz v := by
  simp only [memWrite, ownerOf_align hc, busAddr_align]

/-- Every byte of an aligned access has the owner of the address (20_memory.md R76, R77). -/
theorem lookup_align_add {j : Nat} (hj : j < sz.bytes) :
    lookup c (align sz addr + BitVec.ofNat 32 j) = lookup c addr := by
  rw [← lookup_align hc sz, align_add sz addr hj, lookup_align hc]

/-- The window of the owner starts at or below the aligned address. -/
theorem base_le_busAddr {e : Nat × Nat} (he : ownerExtent c (ownerOf c addr) = some e) : e.1 ≤ busAddr c addr sz :=
  (aligned_inside hc he sz (lookup_inside he)).1

end

/-! ## An access as the bytes at its addresses (20_memory.md R80, R82; 40_bus_ops.md R150, R156) -/

/-- The byte that a read finds at a masked address, by the owner of the address. -/
def ownedByte (c : Config) (a : Arch) : Owner → Nat → Byte
  | .region r, k => regionByte a.mem r ((k - (c.win r).base) % (c.win r).backSize)
  | .vblk, k => laneOf (oddLane (k - c.vblkBase)) (vregRead c a.vid ((k - c.vblkBase) / 2 * 2))
  | .pblk, k => pblkByte c a.per (k - c.pblkBase)
  | .unmapped, _ => c.fillByte

theorem ofBytes_singleton (b : Byte) : ofBytes [b] = b.setWidth 32 := by
  simp [ofBytes]

/-- A halfword is its two lanes. -/
theorem lanes_append (v : Half) : (laneOf true v ++ laneOf false v : BitVec (8 + 8)) = v := by
  show (v.extractLsb' 8 8 ++ v.extractLsb' 0 8 : BitVec (8 + 8)) = v
  rw [BitVec.extractLsb'_append_extractLsb'_eq_extractLsb' (rfl : 8 = 0 + 8)]
  exact BitVec.extractLsb'_eq_self

theorem ofBytes_pair (a b : Byte) : ofBytes [a, b] = (b ++ a : BitVec (8 + 8)).setWidth 32 := by
  apply BitVec.eq_of_getLsbD_eq
  intro i hi
  rw [getLsbD_ofBytes_cons a _ hi, BitVec.getLsbD_setWidth, BitVec.getLsbD_append]
  by_cases h : i < 8
  · simp [h, hi]
  · rw [if_neg h, if_neg h, ofBytes_singleton, BitVec.getLsbD_setWidth]
    simp [hi, show i - 8 < 32 by omega]

theorem ofBytes_halves (a b c d : Byte) :
    ofBytes [a, b, c, d] = ((d ++ c : BitVec (8 + 8)) ++ (b ++ a : BitVec (8 + 8)) : BitVec (16 + 16)) := by
  rw [ofBytes_four]
  exact (BitVec.append_assoc' (w₁ := 16)).symm

theorem oddLane_eq (off : Nat) : oddLane off = decide (off % 2 = 1) := by
  simp [oddLane, beq_eq_decide]

/-- A read of the video block is its byte reads (40_bus_ops.md R150). -/
theorem vblkRead_eq_bytes (c : Config) (v : VideoRegs) {off : Nat} {sz : Size} (h : off % sz.bytes = 0) :
    vblkRead c v off sz =
      ofBytes (sz.lanes.map fun i => laneOf (oddLane (off + i)) (vregRead c v ((off + i) / 2 * 2))) := by
  cases sz with
  | b => exact (ofBytes_singleton _).symm
  | h =>
    have h : off % 2 = 0 := h
    simp only [Size.lanes, List.map, ofBytes_pair, oddLane_eq, show (off + 0) / 2 * 2 = off by omega,
      show (off + 1) / 2 * 2 = off by omega, show ¬ (off + 0) % 2 = 1 by omega, show (off + 1) % 2 = 1 by omega,
      decide_true, decide_false, lanes_append, vblkRead]
  | w =>
    have h : off % 4 = 0 := h
    simp only [Size.lanes, List.map, ofBytes_halves, oddLane_eq, show (off + 0) / 2 * 2 = off by omega,
      show (off + 1) / 2 * 2 = off by omega, show (off + 2) / 2 * 2 = off + 2 by omega,
      show (off + 3) / 2 * 2 = off + 2 by omega, show ¬ (off + 0) % 2 = 1 by omega,
      show (off + 1) % 2 = 1 by omega, show ¬ (off + 2) % 2 = 1 by omega, show (off + 3) % 2 = 1 by omega,
      decide_true, decide_false, lanes_append, vblkRead]

/-- A bus read is the bytes at its aligned address and above (20_memory.md R83). -/
theorem memRead_eq_bytes {c : Config} (hc : c.Wf) (a : Arch) (addr : Word) (sz : Size) : memRead c a addr sz =
    ofBytes (sz.lanes.map fun i => ownedByte c a (ownerOf c addr) (busAddr c addr sz + i)) := by
  rcases ho : ownerOf c addr with r | _ | _ | _
  case region =>
    have hb := base_le_busAddr hc addr sz (e := ((c.win r).base, _)) (by rw [ho]; rfl)
    rw [memRead_region ho, regionRead]
    simp only [ownedByte, backOffset, Nat.sub_add_comm hb]
  case vblk =>
    have he : ownerExtent c (ownerOf c addr) = some (c.vblkBase, vblkSize) := by rw [ho]; rfl
    have hb := base_le_busAddr hc addr sz he
    obtain ⟨hbase, -⟩ := extent_aligned hc he
    have hmod : (busAddr c addr sz - c.vblkBase) % sz.bytes = 0 := by
      obtain ⟨-, -, ha⟩ := align_bounds sz (maskAddr c addr)
      unfold busAddr
      cases sz <;> simp only [Size.bytes] at ha ⊢ <;> omega
    simp only [memRead, ho, vblkRead_eq_bytes c _ hmod, ownedByte, Nat.sub_add_comm hb]
  case pblk =>
    have hb := base_le_busAddr hc addr sz (e := (c.pblkBase, _)) (by rw [ho]; rfl)
    simp only [memRead, ho, pblkRead, ownedByte, Nat.sub_add_comm hb]
  case unmapped => rw [memRead_unmapped ho]; rfl

/-! ## A read after a write (20_memory.md R83) -/

theorem regionRead_regionWrite {c : Config} {m : Memory} {r : Region} (hb : 4 ≤ (c.win r).backSize)
    (hm : (m.store r).Canon) (hw : (c.win r).writable = true) (off : Nat) (sz : Size) (v : Word) :
    regionRead c (regionWrite c m r off sz v) r off sz = ofBytes (sz.lanes.map (byteAt v)) := by
  obtain ⟨hstored, -⟩ := regionByte_regionWrite off sz v hb hm
  exact congrArg ofBytes (List.map_congr_left fun i hi => hstored hw i (mem_lanes.mp hi))

theorem memRead_memWrite {s : State} {addr : Word} {r : Region} {sz : Size} (hs : s.Inv)
    (ho : ownerOf s.cfg addr = .region r) (hw : (s.cfg.win r).writable = true) (v : Word) :
    memRead s.cfg (memWrite s.cfg s.arch addr sz v) addr sz = ofBytes (sz.lanes.map (byteAt v)) := by
  obtain ⟨hc, hfits⟩ := hs
  rw [memRead_region ho, memWrite_region ho]
  exact regionRead_regionWrite (backSize_ge hc r) (fits_iff.mp hfits r).1 hw _ sz v

/-! ## Accesses inside one aligned word -/

/-- Byte `k` of the aligned word at `a`. -/
def wordByte (c : Config) (x : Arch) (a : Word) (k : Nat) : Byte := ownedByte c x (ownerOf c a) (busAddr c a .w + k)

section
variable {c : Config} {a : Word} (ha : a &&& 3#32 = 0#32) (hm : c.addrMask &&& 3#32 = 3#32)
include ha hm

/-- Where the mask keeps the two low address bits, the addresses of an aligned word stay consecutive. -/
theorem maskAddr_add {k : Nat} (hk : k < 4) :
    maskAddr c (a + BitVec.ofNat 32 k) = maskAddr c a + BitVec.ofNat 32 k := by
  have hlow : BitVec.ofNat 32 k &&& 3#32 = BitVec.ofNat 32 k := by
    interval_cases k <;> rfl
  have hdisj {x : Word} (hx : x &&& 3#32 = 0#32) : x &&& BitVec.ofNat 32 k = 0#32 := by
    rw [← hlow, BitVec.and_comm _ 3#32, ← BitVec.and_assoc, hx, BitVec.zero_and]
  have hmask : BitVec.ofNat 32 k &&& c.addrMask = BitVec.ofNat 32 k := by
    rw [← hlow, BitVec.and_assoc, BitVec.and_comm 3#32, hm]
  have hbase : maskAddr c a &&& 3#32 = 0#32 := by
    rw [maskAddr, BitVec.and_assoc, BitVec.and_comm c.addrMask, ← BitVec.and_assoc, ha, BitVec.zero_and]
  rw [BitVec.add_eq_or_of_and_eq_zero _ _ (hdisj ha), BitVec.add_eq_or_of_and_eq_zero _ _ (hdisj hbase), maskAddr,
    BitVec.and_or_distrib_right, hmask]
  rfl

omit hm in
theorem align_maskAddr : align .w (maskAddr c a) = maskAddr c a := by
  have hbits : a &&& ~~~3#32 = a := by
    conv_rhs =>
      rw [← BitVec.and_allOnes (x := a), ← BitVec.or_not_self 3#32, BitVec.and_or_distrib_left, ha, BitVec.zero_or]
  show a &&& c.addrMask &&& ~~~3#32 = a &&& c.addrMask
  rw [BitVec.and_assoc, BitVec.and_comm c.addrMask, ← BitVec.and_assoc, hbits]

theorem busAddr_add {sz : Size} {k : Nat} (hk : k < 4) (hsz : k % sz.bytes = 0) :
    busAddr c (a + BitVec.ofNat 32 k) sz = busAddr c a .w + k := by
  rw [busAddr, maskAddr_add ha hm hk, busAddr, ← align_maskAddr ha, align_toNat, align_add_toNat .w _ hk, align_idem]
  obtain ⟨-, -, hmod⟩ := align_bounds .w (maskAddr c a)
  cases sz <;> simp only [Size.bytes] at hmod hsz ⊢ <;> omega

/-- An access inside an aligned word is bytes of the word. -/
theorem memRead_within (hc : c.Wf) (x : Arch) {sz : Size} {k : Nat} (hk : k < 4) (hsz : k % sz.bytes = 0) :
    memRead c x (a + BitVec.ofNat 32 k) sz = ofBytes (sz.lanes.map fun i => wordByte c x a (k + i)) := by
  have ho : ownerOf c (a + BitVec.ofNat 32 k) = ownerOf c a := by
    rw [ownerOf, maskAddr_add ha hm hk, ← align_maskAddr ha]
    exact (lookup_align_add hc _ .w hk).trans rfl
  rw [memRead_eq_bytes hc, ho, busAddr_add ha hm hk hsz]
  simp only [wordByte, Nat.add_assoc]

end

section
variable {s : State} {a : Word} (ha : a &&& 3#32 = 0#32) (hm : s.cfg.addrMask &&& 3#32 = 3#32) (hc : s.cfg.Wf)
include ha hm hc

theorem exec_rdB_within {k : Nat} (hk : k < 4) : exec (.rdB (a + BitVec.ofNat 32 k)) s =
    .next { s with result := .byte (wordByte s.cfg s.arch a k) } := by
  rw [exec_rdB, memRead_within ha hm hc s.arch (sz := .b) hk (Nat.mod_one k)]
  exact congrArg (fun v => Host.Outcome.next (s.put s.arch (.byte v))) (ofBytes_one _)

theorem exec_rdH_within {k : Nat} (hk : k < 4) (he : k % 2 = 0) : exec (.rdH (a + BitVec.ofNat 32 k)) s =
    .next { s with result := .half (wordByte s.cfg s.arch a (k + 1) ++ wordByte s.cfg s.arch a k) } := by
  rw [exec_rdH, memRead_within ha hm hc s.arch (sz := .h) hk he]
  exact congrArg (fun v => Host.Outcome.next (s.put s.arch (.half v))) (ofBytes_two _ _)

theorem exec_rdW_within : exec (.rdW a) s = .next { s with
    result := .word (wordByte s.cfg s.arch a 3 ++ wordByte s.cfg s.arch a 2 ++ wordByte s.cfg s.arch a 1 ++
      wordByte s.cfg s.arch a 0) } := by
  have hread := memRead_within ha hm hc s.arch (sz := .w) (k := 0) (by decide) rfl
  rw [show a + BitVec.ofNat 32 0 = a from BitVec.add_zero a] at hread
  rw [exec_rdW, hread]
  exact congrArg (fun v => Host.Outcome.next (s.put s.arch (.word v))) (ofBytes_four _ _ _ _)

end

/-! ## The statements -/

/-- Settles O13: a bus operation depends on its address by the owner and by the masked aligned address, and both are the
same at the masked aligned address itself. -/
theorem accessActsAtMaskedAlignedAddress : Obligations.AccessActsAtMaskedAlignedAddress := by
  intro s addr b h w hc a
  have hread (sz : Size) := (memRead_align hc addr sz s.arch).symm
  have hwrite (sz : Size) (v : Word) := (memWrite_align hc addr sz s.arch v).symm
  have hbyte : align .b (maskAddr s.cfg addr) = a := align_byte _
  simp only [exec_rdB, exec_rdH, exec_rdW, exec_wrB, exec_wrH, exec_wrW]
  rw [hread .b, hread .h, hread .w, hwrite .b, hwrite .h, hwrite .w, hbyte]
  exact ⟨rfl, rfl, rfl, rfl, rfl, rfl⟩

/-- Settles O15: a byte of an aligned access aligns to the address of the access. -/
theorem alignedAccessNeverSpans : Obligations.AlignedAccessNeverSpans :=
  fun _ a sz _ hc => lookup_align_add hc a sz

/-- Settles O16: a region read after the region write of the same bytes assembles the value written. -/
theorem readReturnsLastWrite : Obligations.ReadReturnsLastWrite := by
  intro s addr r b h w hs hr hw
  have hread {sz : Size} (v : Word) := memRead_memWrite (sz := sz) hs hr hw v
  refine ⟨⟨_, exec_wrB s addr b, ?byte⟩, ⟨_, exec_wrH s addr h, ?half⟩, ⟨_, exec_wrW s addr w, ?word⟩⟩
  case byte =>
    have hv : (memRead s.cfg (memWrite s.cfg s.arch addr .b (b.setWidth 32)) addr .b).setWidth 8 = b :=
      (congrArg _ (hread _)).trans ((ofBytes_one _).trans (byteAt_byte b))
    rw [exec_rdB, put_cfg, put_arch, hv]
    rfl
  case half =>
    have hv : (memRead s.cfg (memWrite s.cfg s.arch addr .h (h.setWidth 32)) addr .h).setWidth 16 = h :=
      (congrArg _ (hread _)).trans ((ofBytes_two _ _).trans (bytes_half h))
    rw [exec_rdH, put_cfg, put_arch, hv]
    rfl
  case word =>
    have hv : memRead s.cfg (memWrite s.cfg s.arch addr .w w) addr .w = w :=
      (hread w).trans ((ofBytes_four _ _ _ _).trans (bytes_word w))
    rw [exec_rdW, put_cfg, put_arch, hv]
    rfl

/-- Settles O17: each of the seven reads is bytes of the aligned word. -/
theorem mixedWidthsAgree : Obligations.MixedWidthsAgree := by
  intro s a hc ha hm
  have byte {k : Nat} (hk : k < 4) := exec_rdB_within ha hm hc hk
  have half {k : Nat} (hk : k < 4) (he : k % 2 = 0) := exec_rdH_within ha hm hc hk he
  have byte0 := byte (k := 0) (by decide)
  have half0 := half (k := 0) (by decide) rfl
  rw [show a + BitVec.ofNat 32 0 = a from BitVec.add_zero a] at byte0 half0
  exact ⟨_, _, _, _, byte0, byte (k := 1) (by decide), byte (k := 2) (by decide), byte (k := 3) (by decide), half0,
    half (k := 2) (by decide) rfl, exec_rdW_within ha hm hc⟩

end Sys2Proof.Proofs

namespace Sys2Proof.Proofs

/-! The family `40_bus_ops.md`: the direct ports against the bus (R149), the level-2 accesses against the ports
(30_encoding.md section 4), the decomposition of wide accesses (R150 to R157) and the holes of both blocks
(30_encoding.md R124). -/

open Sys2Proof Sys2Proof.Machine Sys2Proof.Laws

/-! ## The ports and the bus (40_bus_ops.md R149) -/

/-- The aligned offset in a window that starts on a multiple of four. -/
theorem busAddr_sub_base {c : Config} {bus : Word} {base n : Nat} (hbase : base % 4 = 0)
    (h : (maskAddr c bus).toNat = base + n) (sz : Size) : busAddr c bus sz - base = n / sz.bytes * sz.bytes := by
  rw [busAddr, align_toNat, h]
  cases sz <;> simp only [Size.bytes] <;> omega

section
variable {s : State} {addr bus : Word} (hc : s.cfg.Wf)

section
variable (h : (maskAddr s.cfg bus).toNat = s.cfg.vblkBase + addr.toNat % 0x80)
include hc h

theorem ownerOf_vblk : ownerOf s.cfg bus = .vblk := by
  refine (lookup_eq_iff_window hc rfl).mpr ?_
  rw [h, vblkSize]
  omega

theorem vblkOffset_eq (sz : Size) : busAddr s.cfg bus sz - s.cfg.vblkBase = portOffset vblkSize addr sz := by
  obtain ⟨hbase, -⟩ := extent_aligned hc (w := .vblk) rfl
  rw [busAddr_sub_base hbase h, portOffset_vblk]

theorem vportRead_eq_memRead (sz : Size) : vportRead s addr sz = memRead s.cfg s.arch bus sz := by
  simp only [vportRead, memRead, ownerOf_vblk hc h, vblkOffset_eq hc h]

theorem vportWrite_eq_memWrite (sz : Size) (v : Word) : vportWrite s addr sz v = memWrite s.cfg s.arch bus sz v := by
  simp only [vportWrite, memWrite, ownerOf_vblk hc h, vblkOffset_eq hc h]

end

section
variable (h : (maskAddr s.cfg bus).toNat = s.cfg.pblkBase + addr.toNat % 0x40)
include hc h

theorem ownerOf_pblk : ownerOf s.cfg bus = .pblk := by
  refine (lookup_eq_iff_window hc rfl).mpr ?_
  rw [h, pblkSize]
  omega

theorem pblkOffset_eq (sz : Size) : busAddr s.cfg bus sz - s.cfg.pblkBase = portOffset pblkSize addr sz := by
  obtain ⟨hbase, -⟩ := extent_aligned hc (w := .pblk) rfl
  rw [busAddr_sub_base hbase h, portOffset_pblk]

theorem pportRead_eq_memRead (sz : Size) : pportRead s addr sz = memRead s.cfg s.arch bus sz := by
  simp only [pportRead, memRead, ownerOf_pblk hc h, pblkOffset_eq hc h]

theorem pportWrite_eq_memWrite (sz : Size) (v : Word) : pportWrite s addr sz v = memWrite s.cfg s.arch bus sz v := by
  simp only [pportWrite, memWrite, ownerOf_pblk hc h, pblkOffset_eq hc h]

end

end

/-! ## The peripheral port writes (40_bus_ops.md R157, R167 to R169) -/

/-- Only the low byte of the value reaches the block. -/
theorem pblkWrite_lowByte (c : Config) (a : Arch) (off : Nat) (v : Word) :
    pblkWrite c a off v = pblkWrite c a off ((byteAt v 0).setWidth 32) := by
  simp only [pblkWrite, byteAt_byte]

theorem exec_pwrB (s : State) (addr : Word) (d : Byte) : exec (.pwrB addr d) s =
    .next (s.put (pblkWrite s.cfg s.arch (addr.toNat % 0x40) (d.setWidth 32)) .none) := by
  show Host.Outcome.next (s.put (pportWrite s addr .b _) .none) = _
  rw [pportWrite_eq]
  simp only [Size.bytes, Nat.div_one, Nat.mul_one]

theorem exec_pwrH (s : State) (addr : Word) (d : Half) : exec (.pwrH addr d) s =
    .next (s.put (pblkWrite s.cfg s.arch (addr.toNat % 0x40 / 2 * 2) ((d.extractLsb' 0 8).setWidth 32)) .none) := by
  show Host.Outcome.next (s.put (pportWrite s addr .h _) .none) = _
  have hbyte : byteAt (d.setWidth 32) 0 = d.extractLsb' 0 8 := BitVec.extractLsb'_setWidth_of_le (by decide)
  rw [pportWrite_eq, pblkWrite_lowByte, hbyte]
  rfl

theorem exec_pwrW (s : State) (addr d : Word) : exec (.pwrW addr d) s =
    .next (s.put (pblkWrite s.cfg s.arch (addr.toNat % 0x40 / 4 * 4) ((d.extractLsb' 0 8).setWidth 32)) .none) := by
  show Host.Outcome.next (s.put (pportWrite s addr .w _) .none) = _
  rw [pportWrite_eq, pblkWrite_lowByte]
  rfl

/-! ## The slot of a register (30_encoding.md R120, R122) -/

section
variable {c : Config} (hc : c.Wf)
include hc

theorem vregRead_voff (v : VideoRegs) (x : VReg) : vregRead c v (c.voff x) = vread c v x := by
  simp only [vregRead, vregAt_voff hc]

theorem vregWrite_voff (v m : Half) (r : VideoRegs) (x : VReg) : vregWrite c v m r (c.voff x) = vwrite c v m r x := by
  simp only [vregWrite, vregAt_voff hc]

theorem pblkByte_poff (p : PeriphRegs) (x : PReg) : pblkByte c p (c.poff x) = pread c p x := by
  simp only [pblkByte, if_pos (poff_mod hc x), pregRead, pregAt_poff hc]

theorem pblkWrite_poff (a : Arch) (x : PReg) (d : Byte) : pblkWrite c a (c.poff x) (d.setWidth 32) = pwrite c d a x := by
  simp only [pblkWrite, if_pos (poff_mod hc x), pregWrite, pregAt_poff hc, byteAt_byte]

/-- The port address of a lane is the register's offset and the lane. -/
theorem laneAddr_toNat (x : VReg) (hi : Bool) :
    (BitVec.ofNat 32 (c.voff x + hi.toNat)).toNat % 0x80 = c.voff x + hi.toNat := by
  have hlt := voff_lt hc x
  have heven := voff_even hc x
  have hlane := hi.toNat_le
  rw [BitVec.toNat_ofNat]
  omega

theorem lane_slot (x : VReg) (hi : Bool) : (c.voff x + hi.toNat) / 2 * 2 = c.voff x := by
  have heven := voff_even hc x
  have hlane := hi.toNat_le
  omega

theorem oddLane_lane (x : VReg) (hi : Bool) : oddLane (c.voff x + hi.toNat) = hi := by
  have heven := voff_even hc x
  cases hi <;> simp [oddLane] <;> omega

/-- The port address of a peripheral register is its offset. -/
theorem poffAddr_toNat (x : PReg) : (BitVec.ofNat 32 (c.poff x)).toNat % 0x40 = c.poff x := by
  have hlt := poff_lt hc x
  rw [BitVec.toNat_ofNat]
  omega

theorem poff_aligned (x : PReg) : c.poff x / 2 * 2 = c.poff x ∧ c.poff x / 4 * 4 = c.poff x := by
  have hmod := poff_mod hc x
  omega

end

section
variable {s : State} (hc : s.cfg.Wf) (x : VReg) (hi : Bool)
include hc

theorem exec_vrdB_voff : exec (.vrdB (BitVec.ofNat 32 (s.cfg.voff x + hi.toNat))) s =
    .next (s.put s.arch (.byte (laneOf hi (vread s.cfg s.arch.vid x)))) := by
  rw [exec_vrdB, laneAddr_toNat hc, oddLane_lane hc, lane_slot hc, vregRead_voff hc]

theorem exec_vrdH_voff : exec (.vrdH (BitVec.ofNat 32 (s.cfg.voff x))) s =
    .next (s.put s.arch (.half (vread s.cfg s.arch.vid x))) := by
  rw [exec_vrdH, show s.cfg.voff x = s.cfg.voff x + false.toNat from rfl, laneAddr_toNat hc, lane_slot hc,
    vregRead_voff hc]

theorem exec_vwrB_voff (d : Byte) : exec (.vwrB (BitVec.ofNat 32 (s.cfg.voff x + hi.toNat)) d) s =
    .next (s.put { s.arch with vid := vwrite s.cfg (placeLane hi d) (laneMask hi) s.arch.vid x } .none) := by
  rw [exec_vwrB, laneAddr_toNat hc, oddLane_lane hc, lane_slot hc, vregWrite_voff hc]

theorem exec_vwrH_voff (d : Half) : exec (.vwrH (BitVec.ofNat 32 (s.cfg.voff x)) d) s =
    .next (s.put { s.arch with vid := vwrite s.cfg d 0xFFFF s.arch.vid x } .none) := by
  rw [exec_vwrH, show s.cfg.voff x = s.cfg.voff x + false.toNat from rfl, laneAddr_toNat hc, lane_slot hc,
    vregWrite_voff hc]

end

section
variable {s : State} (hc : s.cfg.Wf) (x : PReg)
include hc

theorem exec_prdB_poff : exec (.prdB (BitVec.ofNat 32 (s.cfg.poff x))) s =
    .next (s.put s.arch (.byte (pread s.cfg s.arch.per x))) := by
  rw [exec_prdB, poffAddr_toNat hc, pblkByte_poff hc]

theorem exec_pwrB_poff (d : Byte) : exec (.pwrB (BitVec.ofNat 32 (s.cfg.poff x)) d) s =
    .next (s.put (pwrite s.cfg d s.arch x) .none) := by
  rw [exec_pwrB, poffAddr_toNat hc, pblkWrite_poff hc]

theorem exec_pwrH_poff (d : Half) : exec (.pwrH (BitVec.ofNat 32 (s.cfg.poff x)) d) s =
    .next (s.put (pwrite s.cfg (d.extractLsb' 0 8) s.arch x) .none) := by
  obtain ⟨h2, -⟩ := poff_aligned hc x
  rw [exec_pwrH, poffAddr_toNat hc, h2, pblkWrite_poff hc]

theorem exec_pwrW_poff (d : Word) : exec (.pwrW (BitVec.ofNat 32 (s.cfg.poff x)) d) s =
    .next (s.put (pwrite s.cfg (d.extractLsb' 0 8) s.arch x) .none) := by
  obtain ⟨-, h4⟩ := poff_aligned hc x
  rw [exec_pwrW, poffAddr_toNat hc, h4, pblkWrite_poff hc]

end

/-! ## Holes (30_encoding.md R124, 40_bus_ops.md R155) -/

theorem laneOf_fill (hi : Bool) (f : Byte) : laneOf hi (f ++ f) = f := by
  cases hi with
  | false => exact loByte_append f f
  | true => exact hiByte_append f f

theorem vregRead_hole {c : Config} {o : Nat} (h : ∀ x, c.voff x ≠ o) (v : VideoRegs) :
    vregRead c v o = c.fillByte ++ c.fillByte := by
  simp only [vregRead, vregAt_eq_none.mpr h]

theorem vregWrite_hole {c : Config} {o : Nat} (h : ∀ x, c.voff x ≠ o) (v m : Half) (r : VideoRegs) :
    vregWrite c v m r o = r := by
  simp only [vregWrite, vregAt_eq_none.mpr h]

/-- A byte of the peripheral block that belongs to no register. -/
def PHole (c : Config) (o : Nat) : Prop := o % 4 ≠ 0 ∨ ∀ x, c.poff x ≠ o

theorem pblkByte_of_hole {c : Config} {o : Nat} (h : PHole c o) (p : PeriphRegs) : pblkByte c p o = c.fillByte := by
  rcases h with h | h
  · exact pblkByte_hole h
  · simp only [pblkByte, pregRead, pregAt_eq_none.mpr h, ite_self]

theorem pblkWrite_of_hole {c : Config} {o : Nat} (h : PHole c o) (a : Arch) (v : Word) : pblkWrite c a o v = a := by
  rcases h with h | h
  · exact if_neg h
  · simp only [pblkWrite, pregWrite, pregAt_eq_none.mpr h, ite_self]

section
variable {s : State} {addr : Word} (h : ∀ x, s.cfg.voff x ≠ addr.toNat % 0x80 / 2 * 2)
include h

theorem exec_vrdB_hole : exec (.vrdB addr) s = .next { s with result := .byte s.cfg.fillByte } := by
  rw [exec_vrdB, vregRead_hole h, laneOf_fill]
  rfl

theorem exec_vrdH_hole : exec (.vrdH addr) s = .next { s with result := .half (s.cfg.fillByte ++ s.cfg.fillByte) } := by
  rw [exec_vrdH, vregRead_hole h]
  rfl

theorem exec_vwrB_hole (d : Byte) : exec (.vwrB addr d) s = .next { s with result := .none } := by
  rw [exec_vwrB, vregWrite_hole h]
  rfl

theorem exec_vwrH_hole (d : Half) : exec (.vwrH addr d) s = .next { s with result := .none } := by
  rw [exec_vwrH, vregWrite_hole h]
  rfl

end

section
variable {s : State} {addr : Word} (h : PHole s.cfg (addr.toNat % 0x40))
include h

theorem exec_prdB_hole : exec (.prdB addr) s = .next { s with result := .byte s.cfg.fillByte } := by
  rw [exec_prdB, pblkByte_of_hole h]
  rfl

theorem exec_pwrB_hole (d : Byte) : exec (.pwrB addr d) s = .next { s with result := .none } := by
  rw [exec_pwrB, pblkWrite_of_hole h]
  rfl

end

/-! ## Port addresses by their low bits -/

/-- The address of an aligned word, and of its upper halfword. -/
theorem wordAddr_toNat (addr : Word) : (addr &&& ~~~3#32).toNat = addr.toNat / 4 * 4 :=
  align_toNat .w addr

theorem upperHalfAddr_toNat (addr : Word) : ((addr &&& ~~~3#32) + 2).toNat = addr.toNat / 4 * 4 + 2 :=
  (align_add_toNat .w addr (by decide : 2 < Size.w.bytes)).trans (congrArg (· + 2) (wordAddr_toNat addr))

/-- The addresses of the two lanes of a halfword. -/
theorem evenAddr_toNat (addr : Word) : (addr &&& ~~~1#32).toNat = addr.toNat / 2 * 2 :=
  align_toNat .h addr

theorem oddAddr_toNat (addr : Word) : (addr ||| 1#32).toNat = addr.toNat / 2 * 2 + 1 := by
  have hor : addr &&& ~~~1#32 ||| 1#32 = addr ||| 1#32 := by
    ext i hi
    simp only [BitVec.getElem_or, BitVec.getElem_and, BitVec.getElem_not]
    cases addr[i] <;> cases (1#32)[i] <;> rfl
  have hdisj : addr &&& ~~~1#32 &&& 1#32 = 0#32 := by
    rw [BitVec.and_assoc, BitVec.and_comm (~~~1#32), BitVec.and_not_self]
    exact BitVec.and_zero
  rw [← hor, ← BitVec.add_eq_or_of_and_eq_zero _ _ hdisj]
  exact (align_add_toNat .h addr (by decide : 1 < Size.h.bytes)).trans (congrArg (· + 1) (evenAddr_toNat addr))

theorem low2_toNat (addr : Word) : (addr &&& 3#32).toNat = addr.toNat % 4 := by
  rw [BitVec.toNat_and]
  exact Nat.and_two_pow_sub_one_eq_mod addr.toNat 2

theorem mod_four_of_bit1 {addr : Word} (h : addr &&& 2#32 = 2#32) : 2 ≤ addr.toNat % 4 := by
  have hle : addr &&& 3#32 &&& 2#32 = 2#32 := by rw [BitVec.and_assoc]; exact h
  rw [← low2_toNat, ← show (2#32).toNat = 2 from rfl, ← hle, BitVec.toNat_and _ 2#32]
  exact Nat.and_le_left

/-! ## The statements -/

/-- Settles O18: a port access and the bus access read, or write, the same offset of the same block. -/
theorem directPortsActAsBusAccesses : Obligations.DirectPortsActAsBusAccesses := by
  intro s addr bus b h w hc
  refine ⟨fun hbus => ?video, fun hbus => ?periph⟩
  case video =>
    have hread := vportRead_eq_memRead hc hbus
    have hwrite := vportWrite_eq_memWrite hc hbus
    simp only [exec, execVrdB, execVrdH, execVrdW, execVwrB, execVwrH, execVwrW, hread, hwrite]
    exact ⟨rfl, rfl, rfl, rfl, rfl, rfl⟩
  case periph =>
    have hread := pportRead_eq_memRead hc hbus
    have hwrite := pportWrite_eq_memWrite hc hbus
    simp only [exec, execPrdB, execPrdH, execPrdW, execPwrB, execPwrH, execPwrW, hread, hwrite]
    exact ⟨rfl, rfl, rfl, rfl, rfl, rfl⟩

/-- Settles O19: both operations are the same access of the register. -/
theorem registerRowsActAsPortAccesses : Obligations.RegisterRowsActAsPortAccesses := fun s b h hc =>
  ⟨fun x hi => ⟨(exec_vregReadByte x hi s).trans (exec_vrdB_voff hc x hi).symm,
    (exec_vregReadHalf x s).trans (exec_vrdH_voff hc x).symm,
    (exec_vregWriteByte x hi b s).trans (exec_vwrB_voff hc x hi b).symm,
    (exec_vregWriteHalf x h s).trans (exec_vwrH_voff hc x h).symm⟩,
   fun x => ⟨(exec_pregRead x s).trans (exec_prdB_poff hc x).symm,
    (exec_pregWrite x b s).trans (exec_pwrB_poff hc x b).symm⟩⟩

/-- Settles O20: a halfword of an aligned word is at the word's offset or two above it, and the two lanes of a halfword
are at its offset and one above it. -/
theorem videoAccessesDecompose : Obligations.VideoAccessesDecompose := by
  intro s addr w a
  have hlo : a.toNat % 0x80 / 2 * 2 = addr.toNat % 0x80 / 4 * 4 := by rw [wordAddr_toNat]; omega
  have hhi : (a + 2).toNat % 0x80 / 2 * 2 = addr.toNat % 0x80 / 4 * 4 + 2 := by rw [upperHalfAddr_toNat]; omega
  refine ⟨⟨_, _, exec_vrdH s a, exec_vrdH s (a + 2), ?readWord⟩, ⟨_, exec_vwrH s a _, ?writeWord⟩,
    _, exec_vrdH s addr, ?low, ?high⟩
  case readWord => rw [exec_vrdW, hlo, hhi]; rfl
  case writeWord => rw [exec_vwrH, exec_vwrW, hlo, hhi]; rfl
  case low =>
    have hoff : addr.toNat / 2 * 2 % 0x80 / 2 * 2 = addr.toNat % 0x80 / 2 * 2 := by omega
    have hlane : oddLane (addr.toNat / 2 * 2 % 0x80) = false := by rw [oddLane_eq]; simp
    rw [exec_vrdB, evenAddr_toNat, hoff, hlane]
    rfl
  case high =>
    have hoff : (addr.toNat / 2 * 2 + 1) % 0x80 / 2 * 2 = addr.toNat % 0x80 / 2 * 2 := by omega
    have hlane : oddLane ((addr.toNat / 2 * 2 + 1) % 0x80) = true := by rw [oddLane_eq]; simp
    rw [exec_vrdB, oddAddr_toNat, hoff, hlane]
    rfl

/-- Settles O21: the aligned offset is a register or a hole, and the three offsets above it are holes. -/
theorem peripheralWideAccess : Obligations.PeripheralWideAccess := by
  intro s addr b h w f a
  have hole {o : Nat} (ho : o % 4 ≠ 0) : pblkByte s.cfg s.arch.per o = f := pblkByte_hole ho
  have ha : a.toNat % 0x40 = addr.toNat % 0x40 / 4 * 4 := by rw [wordAddr_toNat]; omega
  have ha2 : a.toNat % 0x40 / 2 * 2 = addr.toNat % 0x40 / 4 * 4 := by omega
  refine ⟨⟨_, exec_prdB s a, ?readHalf, ?readWord⟩, ?writeHalf, ?writeWord, fun hodd => ?byte, fun hodd => ?half⟩
  case readHalf => rw [exec_prdH, ha2, ha, hole (by omega)]; rfl
  case readWord => rw [exec_prdW, ha, hole (by omega), hole (by omega), hole (by omega)]; rfl
  case writeHalf => rw [exec_pwrH, exec_pwrB, ha2, ha]
  case writeWord => rw [exec_pwrW, exec_pwrB, ha]
  case byte =>
    have hmod : addr.toNat % 4 ≠ 0 := fun h0 => hodd (BitVec.eq_of_toNat_eq ((low2_toNat addr).trans h0))
    have hhole : PHole s.cfg (addr.toNat % 0x40) := .inl (by omega)
    exact ⟨exec_prdB_hole hhole, exec_pwrB_hole hhole b⟩
  case half =>
    have hmod := mod_four_of_bit1 hodd
    refine ⟨?_, ?_⟩
    · rw [exec_prdH, hole (by omega), hole (by omega)]; rfl
    · rw [exec_pwrH, pblkWrite_of_hole (.inl (by omega))]; rfl

/-- Settles O22: an access at the offset of a hole finds no register. -/
theorem holesReadFillAndIgnoreWrites : Obligations.HolesReadFillAndIgnoreWrites := by
  intro s o b h f at'
  refine ⟨fun hlt heven ho => ?video, fun hlt ho => ?periph⟩
  case video =>
    have hhole {j : Nat} (hj : j < 2) : ∀ x, s.cfg.voff x ≠ (at' j).toNat % 0x80 / 2 * 2 := by
      have hoff : (at' j).toNat % 0x80 / 2 * 2 = o := by
        simp only [at', BitVec.toNat_ofNat]
        omega
      rw [hoff]
      exact ho
    have hhole0 := hhole (j := 0) (by decide)
    have hhole1 := hhole (j := 1) (by decide)
    exact ⟨exec_vrdB_hole hhole0, exec_vrdB_hole hhole1, exec_vrdH_hole hhole0, exec_vwrB_hole hhole0 b,
      exec_vwrB_hole hhole1 b, exec_vwrH_hole hhole0 h⟩
  case periph =>
    have hoff : (at' 0).toNat % 0x40 = o := by
      simp only [at', BitVec.toNat_ofNat]
      omega
    have hhole : PHole s.cfg ((at' 0).toNat % 0x40) := hoff ▸ ho
    exact ⟨exec_prdB_hole hhole, exec_pwrB_hole hhole b⟩

/-- Settles O60: a level-2 word of a hole is decoded to the port access at its offset. -/
theorem levelTwoWordsOfHolesDegrade : Obligations.LevelTwoWordsOfHolesDegrade := by
  intro s d f runs
  refine ⟨fun off ho => ?video, fun off b ho => ?periph⟩
  case video =>
    have hslot : 2 * (off.extractLsb' 1 6).toNat = off.toNat / 2 * 2 := by
      rw [BitVec.extractLsb'_toNat, Nat.shiftRight_eq_div_pow]
      omega
    have hnone : s.cfg.vregAt (2 * (off.extractLsb' 1 6).toNat) = none := by
      rw [hslot]
      exact vregAt_eq_none.mpr ho
    have hhole : ∀ x, s.cfg.voff x ≠ (off.setWidth 32).toNat % 0x80 / 2 * 2 := by
      rw [BitVec.toNat_setWidth, show off.toNat % 2 ^ 32 % 0x80 = off.toNat by omega]
      exact ho
    refine ⟨⟨_, ?_, exec_vrdB_hole hhole⟩, ⟨_, ?_, exec_vrdH_hole hhole⟩,
      ⟨_, ?_, exec_vwrB_hole hhole (d.extractLsb' 0 8)⟩, ⟨_, ?_, exec_vwrH_hole hhole d⟩⟩
    all_goals
      rw [decode_vslotWord, hnone]
      rfl
  case periph =>
    have hnone : s.cfg.pregAt off.toNat = none := pregAt_eq_none.mpr ho
    have hhole : PHole s.cfg ((off.setWidth 32).toNat % 0x40) := by
      rw [BitVec.toNat_setWidth, show off.toNat % 2 ^ 32 % 0x40 = off.toNat by omega]
      exact .inr ho
    refine ⟨⟨_, ?_, exec_prdB_hole hhole⟩, ⟨_, ?_, exec_pwrB_hole hhole b⟩⟩
    all_goals
      rw [decode_pslotWord, hnone]
      rfl

end Sys2Proof.Proofs

namespace Sys2Proof.Proofs

/-! Named registers (41_video_regs.md section 4, 42_periph_regs.md sections 2 to 4): the plain video registers by name, the
transmit and receive registers, and `TCR` at the bit numbers of CFG_REF. -/

open Sys2Proof Sys2Proof.Machine Sys2Proof.Laws

/-! ## `CDTR` and `TXQ` (42_periph_regs.md R228) -/

/-- Bytes written to `CDTR` one after the other stand in `TXQ` in their order. -/
theorem execAll_cdtr (l : List Byte) (v : Byte) (s : State) :
    execAll ((l ++ [v]).map fun b => .cdtr (.write b)) s = .next (s.put
      { s.arch with per := { s.arch.per with cdtr := v }, txq := s.arch.txq ++ l ++ [v] } .none) := by
  induction l generalizing s with
  | nil => rw [List.append_nil]; rfl
  | cons b l ih =>
    have hcons : s.arch.txq ++ (b :: l) ++ [v] = s.arch.txq ++ [b] ++ l ++ [v] := by simp
    rw [hcons]
    exact ih (s.put (pwrite s.cfg b s.arch .cdtr) .none)

/-! ## The operations that change the receive registers (42_periph_regs.md sections 2 and 3) -/

theorem writeEffect_receive (c : Config) (i : Instr) (a : Arch) :
    (writeEffect c i a).per.cdrr = a.per.cdrr ∧ (writeEffect c i a).per.slb = a.per.slb ∧
      (writeEffect c i a).per.shb = a.per.shb :=
  ⟨writeEffect_per (f := (·.per.cdrr)) (fun _ _ _ => rfl) fun _ _ _ _ => pwrite_cdrr ..,
    writeEffect_per (f := (·.per.slb)) (fun _ _ _ => rfl) fun _ _ _ _ => pwrite_slb ..,
    writeEffect_per (f := (·.per.shb)) (fun _ _ _ => rfl) fun _ _ _ _ => pwrite_shb ..⟩

/-- The timer tick reaches only the timer's own fields. -/
theorem timerTick_receive (p : PeriphRegs) :
    (timerTick p).cdrr = p.cdrr ∧ (timerTick p).slb = p.slb ∧ (timerTick p).shb = p.shb := by
  obtain ⟨-, h⟩ | ⟨-, -, h⟩ | ⟨-, -, -, h⟩ | ⟨-, -, -, h⟩ := timerTick_cases p <;> rw [h] <;> exact ⟨rfl, rfl, rfl⟩

/-- `PSTAT` reaches only `CCR`, `CCSR` and `SCR` (44_events.md R298). -/
theorem pstatus_getD (c : Config) (v : Byte) (p : PeriphRegs) (x : PReg) :
    ∃ ccr ccsr scr, (pstatus c v p x).getD p = { p with ccr := ccr, ccsr := ccsr, scr := scr } := by
  cases x <;> exact ⟨_, _, _, rfl⟩

/-- `CDRR`, `SLB` and `SHB` change only by `COMRX`, `SERRX`, `RESET` and `RESTORE`. -/
theorem nextArch_receive {i : Instr} {s : State} (hreset : i ≠ .reset) (hrestore : i ≠ .restore) :
    ((∀ v, i ≠ .comrx v) → (nextArch i s).per.cdrr = s.arch.per.cdrr) ∧
      ((∀ v, i ≠ .serrx v) →
        (nextArch i s).per.slb = s.arch.per.slb ∧ (nextArch i s).per.shb = s.arch.per.shb) := by
  refine nextArch_cases (P := fun a => ((∀ v, i ≠ .comrx v) → a.per.cdrr = s.arch.per.cdrr) ∧
    ((∀ v, i ≠ .serrx v) → a.per.slb = s.arch.per.slb ∧ a.per.shb = s.arch.per.shb)) ?read (fun _ => ?write)
    fun he => ?event
  case read => exact ⟨fun _ => rfl, fun _ => ⟨rfl, rfl⟩⟩
  case write =>
    obtain ⟨hcdrr, hserial⟩ := writeEffect_receive s.cfg i s.arch
    exact ⟨fun _ => hcdrr, fun _ => hserial⟩
  case event =>
    cases i
    case reset => exact absurd rfl hreset
    case restore => exact absurd rfl hrestore
    case comrx v => exact ⟨fun h => absurd rfl (h v), fun _ => ⟨rfl, rfl⟩⟩
    case serrx v => exact ⟨fun _ => rfl, fun h => absurd rfl (h v)⟩
    case ttick =>
      obtain ⟨hcdrr, hserial⟩ := timerTick_receive s.arch.per
      exact ⟨fun _ => hcdrr, fun _ => hserial⟩
    case pstat x v =>
      obtain ⟨_, _, _, hp⟩ := pstatus_getD s.cfg v s.arch.per x
      rw [nextArch_pstat, hp]
      exact ⟨fun _ => rfl, fun _ => ⟨rfl, rfl⟩⟩
    case rtick | vraise | vstat | vcta | tdrvOn | tdrvOff | rdrvOn | rdrvOff =>
      exact ⟨fun _ => rfl, fun _ => ⟨rfl, rfl⟩⟩
    all_goals cases he

/-! ## `TCR` at the bit numbers of CFG_REF (42_periph_regs.md R235) -/

theorem tcrRead_ref (p : PeriphRegs) :
    tcrRead Config.ref.tcr p = (0#1 ++ 0#1 ++ BitVec.ofBool p.tAuto ++ 0#1 ++ BitVec.ofBool p.zInt ++ 0#1 ++
      BitVec.ofBool p.zStat ++ BitVec.ofBool p.tEnb : BitVec (1 + 1 + 1 + 1 + 1 + 1 + 1 + 1)) := by
  have hbits : ∀ auto zint zstat enb : Bool, tcrBit 5 auto ||| tcrBit 3 zint ||| tcrBit 1 zstat ||| tcrBit 0 enb =
      (0#1 ++ 0#1 ++ BitVec.ofBool auto ++ 0#1 ++ BitVec.ofBool zint ++ 0#1 ++ BitVec.ofBool zstat ++
        BitVec.ofBool enb : BitVec (1 + 1 + 1 + 1 + 1 + 1 + 1 + 1)) := by decide
  exact hbits ..

/-! ## The statements -/

/-- Settles O24: a halfword write under a full mask stores the value, and `vwrite` puts it in the field named. -/
theorem plainRegistersByName : Obligations.PlainRegistersByName := by
  intro s d hmask put
  have named {x : VReg} {v : VideoRegs} (hx : vwrite s.cfg d 0xFFFF s.arch.vid x = v) :
      exec (Instr.ofVReg (.writeHalf d) x) s = put v := (exec_vregWriteHalf x d s).trans (congrArg put hx)
  have full (old : Half) : merge16 old d (0xFFFF &&& 0xFFFF) = d := merge16_full old d
  refine ⟨named (x := .dpctrl) ?_, named (x := .brta) ?_, named (x := .brtb) ?_, named (x := .brtc) ?_,
    named (x := .rest) ?_, named (x := .frmcyc) ?_, named (x := .splt0) ?_, named (x := .splt1) ?_,
    named (x := .splt2) ?_, named (x := .splt3) ?_, named (x := .oplt0) ?_, named (x := .oplt1) ?_,
    named (x := .oplt2) ?_, named (x := .oplt3) ?_, named (x := .bkcol) ?_⟩
  all_goals simp only [vwrite, hmask, Config.ref, VMasks.ref, full]

/-- Settles O30: every write that reaches `CDTR` is one `pwrite` of it, and a sequence of them is an induction on the
bytes. -/
theorem cdtrQueuesTheByte : Obligations.CdtrQueuesTheByte := fun s v h w =>
  ⟨exec_pregRead .cdtr s, exec_pregWrite .cdtr v s,
    fun hc => ⟨exec_pwrB_poff hc .cdtr v, exec_pwrH_poff hc .cdtr h, exec_pwrW_poff hc .cdtr w⟩,
    fun l => execAll_cdtr l v s⟩

/-- Settles O31: the accesses are those of every register, `pwrite` of these three is nothing, and of the operations only
the events named reach them. -/
theorem receiveRegistersDiscardWrites : Obligations.ReceiveRegistersDiscardWrites := by
  refine ⟨fun s v => ⟨exec_pregRead .cdrr s, exec_pregRead .slb s, exec_pregRead .shb s, exec_pregWrite .cdrr v s,
    exec_pregWrite .slb v s, exec_pregWrite .shb v s⟩, fun i s t hexec hreset hrestore => ?_⟩
  rw [exec_arch hexec]
  exact nextArch_receive hreset hrestore

/-- Settles O33: `TCR` reads `tcrRead`, here at the bit numbers of CFG_REF. -/
theorem tcrReadsAssembledFields : Obligations.TcrReadsAssembledFields := by
  intro s htcr bit v
  have hv : pread s.cfg s.arch.per .tcr = v := by
    rw [pread, htcr]
    exact tcrRead_ref s.arch.per
  rw [← hv]
  exact exec_pregRead .tcr s

/-- Settles O34: a write of `TCR` is `tcrWrite`, whose whole effect is known at any bit numbers. -/
theorem tcrWriteActsInThreeSteps : Obligations.TcrWriteActsInThreeSteps := by
  intro s v htcr p
  have hwrite := exec_pregWrite .tcr v s
  rw [pwrite, tcrWrite_eq, htcr] at hwrite
  exact hwrite

end Sys2Proof.Proofs

namespace Sys2Proof.Proofs

/-! Ticks, events and host operations over time (43_timer_engine.md section 3, 44_events.md): the expiries of the timer,
the cycle of the frame counter, the sideband inputs, snapshots, and the discipline of the tick drivers. -/

open Sys2Proof Sys2Proof.Machine Sys2Proof.Laws

/-! ## Sequences of operations -/

theorem execAll_cons {i : Instr} {l : List Instr} {s t : State} (h : exec i s = .next t) :
    execAll (i :: l) s = execAll l t := by
  simp only [execAll, h]

theorem execAll_singleton (i : Instr) (s : State) : execAll [i] s = exec i s := by
  simp only [execAll]
  cases exec i s <;> rfl

/-! ## Many timer ticks (43_timer_engine.md section 3) -/

/-- `k` ticks apply `timerTick` `k` times and reach nothing else of the tuple. -/
theorem execAll_ttick (k : Nat) (s : State) : ∃ t, execAll (List.replicate k .ttick) s = .next t ∧
    t.arch = { s.arch with per := timerTick^[k] s.arch.per } := by
  induction k generalizing s with
  | zero => exact ⟨s, rfl, rfl⟩
  | succ k ih => exact ih (s.put { s.arch with per := timerTick s.arch.per } .none)

/-- The counter after fewer ticks than its value, or after none. -/
theorem toNat_count_sub {n : Half} {k : Nat} (hk : k < max n.toNat 1) :
    (n - BitVec.ofNat 16 k).toNat = n.toNat - k := by
  have hlt := n.isLt
  rw [BitVec.toNat_sub, BitVec.toNat_ofNat]
  omega

section
variable {p : PeriphRegs} (he : p.tEnb = true)
include he

/-- Before tick number `max(N, 1)` a Running timer only counts down. -/
theorem iterate_timerTick_counting {k : Nat} (hk : k < max p.tCount.toNat 1) :
    ∃ r, timerTick^[k] p = { p with tCount := p.tCount - BitVec.ofNat 16 k, tReset := r } := by
  induction k with
  | zero => exact ⟨p.tReset, by simp⟩
  | succ k ih =>
    obtain ⟨r, hr⟩ := ih (by omega)
    have hcount : 1 < (p.tCount - BitVec.ofNat 16 k).toNat := by
      rw [toNat_count_sub (by omega)]
      omega
    refine ⟨false, ?_⟩
    rw [Function.iterate_succ_apply', hr, timerTick_of_counting (by exact he) hcount]
    have hsub : p.tCount - BitVec.ofNat 16 k - 1 = p.tCount - BitVec.ofNat 16 (k + 1) := by
      rw [sub_sub, BitVec.ofNat_add]
      rfl
    rw [← hsub]

/-- The count that the last tick before the expiry leaves is 0 or 1. -/
theorem iterate_timerTick_last : ∃ r n, n.toNat ≤ 1 ∧
    timerTick^[max p.tCount.toNat 1 - 1] p = { p with tCount := n, tReset := r } := by
  obtain ⟨r, hr⟩ := iterate_timerTick_counting he (k := max p.tCount.toNat 1 - 1) (by omega)
  refine ⟨r, _, ?_, hr⟩
  rw [toNat_count_sub (by omega)]
  omega

/-- Tick number `max(N, 1)` expires; with auto-reload the staged value is the next count. -/
theorem iterate_timerTick_reload (ha : p.tAuto = true) : timerTick^[max p.tCount.toNat 1] p =
    { p with tReset := false, zStat := true, tCount := p.tStage } := by
  obtain ⟨r, n, hn, hlast⟩ := iterate_timerTick_last he
  rw [← Nat.sub_add_cancel (Nat.le_max_right p.tCount.toNat 1), Function.iterate_succ_apply', hlast]
  exact timerTick_of_reload he hn ha

/-- Tick number `max(N, 1)` expires; without auto-reload the timer stops at zero. -/
theorem iterate_timerTick_oneShot (ha : p.tAuto = false) : timerTick^[max p.tCount.toNat 1] p =
    { p with tReset := false, zStat := true, tCount := 0, tEnb := false } := by
  obtain ⟨r, n, hn, hlast⟩ := iterate_timerTick_last he
  rw [← Nat.sub_add_cancel (Nat.le_max_right p.tCount.toNat 1), Function.iterate_succ_apply', hlast]
  exact timerTick_of_oneShot he hn ha

/-- With the staged value in the counter, each further period ends in the state that the first one does. -/
theorem iterate_timerTick_periods (ha : p.tAuto = true) (hc : p.tCount = p.tStage) (m : Nat) :
    timerTick^[(m + 1) * max p.tStage.toNat 1] p = { p with tReset := false, zStat := true, tCount := p.tStage } := by
  induction m with
  | zero => rw [Nat.zero_add, Nat.one_mul, ← hc, iterate_timerTick_reload he ha, hc]
  | succ m ih =>
    rw [Nat.add_mul _ 1, Nat.one_mul, Nat.add_comm, Function.iterate_add_apply, ih]
    exact iterate_timerTick_reload (p := { p with tReset := false, zStat := true, tCount := p.tStage }) he ha

end

/-! ## The frame counter (44_events.md R291) -/

theorem exec_rtick (s : State) : exec .rtick s = .next (s.put { s.arch with vid :=
    { raisePending (frameBits s.cfg s.arch.vid) s.arch.vid with fcnt := nextFrame s.arch.vid } } .none) := rfl

theorem nextFrame_le (v : VideoRegs) : (nextFrame v).toNat ≤ v.frmcyc.toNat := by
  unfold nextFrame
  split
  · exact Nat.zero_le _
  · bv_omega

/-- A counter inside its cycle steps around it. -/
theorem nextFrame_toNat {v : VideoRegs} (h : v.fcnt.toNat ≤ v.frmcyc.toNat) :
    (nextFrame v).toNat = (v.fcnt.toNat + 1) % (v.frmcyc.toNat + 1) := by
  unfold nextFrame
  split
  · next hle =>
    have heq : v.fcnt.toNat = v.frmcyc.toNat := Nat.le_antisymm h hle
    rw [heq, Nat.mod_self]
    rfl
  · next hlt =>
    rw [Nat.mod_eq_of_lt (by bv_omega)]
    bv_omega

theorem exec_rtick_cycle {s : State} (h : s.arch.vid.fcnt.toNat ≤ s.arch.vid.frmcyc.toNat) :
    ∃ t, exec .rtick s = .next t ∧ t.arch.vid.frmcyc = s.arch.vid.frmcyc ∧
      t.arch.vid.fcnt.toNat = (s.arch.vid.fcnt.toNat + 1) % (s.arch.vid.frmcyc.toNat + 1) :=
  ⟨_, exec_rtick s, rfl, nextFrame_toNat h⟩

/-- The frame counter after `n` refresh ticks from zero. -/
theorem execAll_rtick {s : State} (h0 : s.arch.vid.fcnt = 0) (n : Nat) :
    ∃ t, execAll (List.replicate n .rtick) s = .next t ∧ t.arch.vid.frmcyc = s.arch.vid.frmcyc ∧
      t.arch.vid.fcnt.toNat = n % (s.arch.vid.frmcyc.toNat + 1) := by
  induction n with
  | zero => exact ⟨s, rfl, rfl, by rw [h0, Nat.zero_mod]; rfl⟩
  | succ n ih =>
    obtain ⟨t, hexec, hcyc, hcnt⟩ := ih
    have hle : t.arch.vid.fcnt.toNat ≤ t.arch.vid.frmcyc.toNat := by
      rw [hcnt, hcyc]
      exact Nat.le_of_lt_succ (Nat.mod_lt _ (Nat.succ_pos _))
    obtain ⟨u, hexec', hcyc', hcnt'⟩ := exec_rtick_cycle hle
    refine ⟨u, ?_, hcyc'.trans hcyc, ?_⟩
    · rw [List.replicate_succ', execAll_append hexec, execAll_singleton, hexec']
    · rw [hcnt', hcnt, hcyc, Nat.mod_add_mod]

/-! ## Snapshots (44_events.md R308) -/

theorem exec_snap (s : State) : exec .snap s = .next (s.put s.arch (.snap s.arch)) := rfl

theorem exec_restore_of_not_fits {s : State} {x : Arch} (hx : s.snapIn = some x) (hf : ¬ x.mem.Fits s.cfg) :
    exec .restore s = .refused .malformedSnapshot := by
  show execRestore s = _
  rw [execRestore, hx]
  exact if_neg hf

/-! ## The tick drivers (44_events.md R303 to R309) -/

/-- Accesses leave the drivers' flags. -/
theorem flagsAfter_access {i : Instr} (he : isEvent i = false) (x : Option Arch) (t r : Bool) :
    flagsAfter i x t r = (t, r) := by
  cases i <;> first | rfl | cases he

theorem nextArch_flags_access {i : Instr} (he : isEvent i = false) (s : State) :
    (nextArch i s).tdrv = s.arch.tdrv ∧ (nextArch i s).rdrv = s.arch.rdrv :=
  nextArch_cases (P := fun a => a.tdrv = s.arch.tdrv ∧ a.rdrv = s.arch.rdrv) ⟨rfl, rfl⟩
    (fun _ => ⟨writeEffect_tdrv .., writeEffect_rdrv ..⟩) fun he' => absurd he' (Bool.eq_false_iff.mp he)

/-- The drivers' flags after an operation are those of `flagsAfter`. -/
theorem nextArch_flags (i : Instr) (s : State) : ((nextArch i s).tdrv, (nextArch i s).rdrv) =
    flagsAfter i s.snapIn s.arch.tdrv s.arch.rdrv := by
  rcases he : isEvent i with _ | _
  · obtain ⟨ht, hr⟩ := nextArch_flags_access he s
    rw [flagsAfter_access he, ht, hr]
  · cases i
    case restore => rw [nextArch_restore]; cases s.snapIn <;> rfl
    case reset | ttick | rtick | vraise | vstat | vcta | serrx | comrx | pstat | tdrvOn | tdrvOff | rdrvOn | rdrvOff =>
      rfl
    all_goals cases he

theorem driversHeed_ok {c : Config} {q : Request} {i : Instr} (hd : decode c q.raw = .ok i) (t r : Bool)
    (rest : List Request) : driversHeed c t r (q :: rest) = true ↔
      (q.agent = .timerDriver → i = .ttick → t = true) ∧ (q.agent = .refreshDriver → i = .rtick → r = true) ∧
        driversHeed c (flagsAfter i q.snap t r).1 (flagsAfter i q.snap t r).2 rest = true := by
  have hflag (a b f : Bool) : (!(a && b) || f) = true ↔ (a = true → b = true → f = true) := by revert a b f; decide
  simp only [driversHeed, hd, Bool.and_eq_true, hflag, beq_iff_eq, and_assoc]

theorem driversHeed_error {c : Config} {q : Request} {e : Reject} (hd : decode c q.raw = .error e) (t r : Bool)
    (rest : List Request) : driversHeed c t r (q :: rest) = driversHeed c t r rest := by
  simp only [driversHeed, hd]

/-- A flag that is clear and that only the operations `sets` raise is set by one of them before a request that needs
it. -/
theorem driversHeed_needs {c : Config} {flag : Bool × Bool → Bool} {sets : Instr → Prop} {q : Request}
    {post : List Request} (hkeep : ∀ i x t r, ¬ sets i → flag (t, r) = false → flag (flagsAfter i x t r) = false)
    (hneed : ∀ t r, driversHeed c t r (q :: post) = true → flag (t, r) = true) :
    ∀ (pre : List Request) (t r : Bool), driversHeed c t r (pre ++ q :: post) = true → flag (t, r) = false →
      ∃ p ∈ pre, ∃ i, decode c p.raw = .ok i ∧ sets i
  | [], t, r, h, hf => absurd (hneed t r h) (by simp [hf])
  | p :: pre, t, r, h, hf => by
    rw [List.cons_append] at h
    rcases hd : decode c p.raw with e | i
    · rw [driversHeed_error hd] at h
      obtain ⟨p', hp', hi⟩ := driversHeed_needs hkeep hneed pre t r h hf
      exact ⟨p', List.mem_cons_of_mem _ hp', hi⟩
    · by_cases hi : sets i
      · exact ⟨p, List.mem_cons_self, i, hd, hi⟩
      · obtain ⟨-, -, hrest⟩ := (driversHeed_ok hd t r _).mp h
        obtain ⟨p', hp', hi'⟩ := driversHeed_needs hkeep hneed pre _ _ hrest (hkeep i p.snap t r hi hf)
        exact ⟨p', List.mem_cons_of_mem _ hp', hi'⟩

/-- Only `TDRV.ON` and `RESTORE` set the timer driver's flag. -/
theorem flagsAfter_tdrv {i : Instr} (h : ¬ (i = .restore ∨ ∃ n, i = .tdrvOn n)) (x : Option Arch) {t : Bool}
    (r : Bool) (ht : t = false) : (flagsAfter i x t r).1 = false := by
  cases i
  case restore => exact absurd (.inl rfl) h
  case tdrvOn n => exact absurd (.inr ⟨n, rfl⟩) h
  case reset | tdrvOff => rfl
  all_goals exact ht

/-- Only `RDRV.ON` and `RESTORE` set the refresh driver's flag. -/
theorem flagsAfter_rdrv {i : Instr} (h : ¬ (i = .restore ∨ i = .rdrvOn)) (x : Option Arch) (t : Bool) {r : Bool}
    (hr : r = false) : (flagsAfter i x t r).2 = false := by
  cases i
  case restore => exact absurd (.inl rfl) h
  case rdrvOn => exact absurd (.inr rfl) h
  case reset | rdrvOff => rfl
  all_goals exact hr

/-! ## The statements -/

/-- Settles O36: the ticks before number `max(N, 1)` count down, and that one expires. -/
theorem firstExpiryAtTickMaxN1 : Obligations.FirstExpiryAtTickMaxN1 := by
  intro s he n
  refine ⟨fun k hk => ?before, ?expiry⟩
  case before =>
    obtain ⟨t, hexec, harch⟩ := execAll_ttick k s
    obtain ⟨r, hr⟩ := iterate_timerTick_counting he hk
    rw [hr] at harch
    exact ⟨t, hexec, by rw [harch]; exact toNat_count_sub hk, by rw [harch]; exact he, by rw [harch]⟩
  case expiry =>
    obtain ⟨t, hexec, harch⟩ := execAll_ttick (max n 1) s
    refine ⟨t, hexec, ?_⟩
    rcases ha : s.arch.per.tAuto with _ | _
    · rw [iterate_timerTick_oneShot he ha] at harch
      rw [harch]
      exact ⟨rfl, rfl, rfl⟩
    · rw [iterate_timerTick_reload he ha] at harch
      rw [harch]
      exact ⟨rfl, he, rfl⟩

/-- Settles O37: every period of a reloading timer ends in the same state, and a Stopped timer is a fixed point of the
tick. -/
theorem autoReloadIsPeriodicAndStoppedIsQuiet : Obligations.AutoReloadIsPeriodicAndStoppedIsQuiet := by
  refine ⟨fun s m he ha hc => ?periodic, fun s k he => ?quiet⟩
  case periodic =>
    obtain ⟨t, hexec, harch⟩ := execAll_ttick ((m + 1) * max s.arch.per.tStage.toNat 1) s
    rw [iterate_timerTick_periods he ha hc] at harch
    refine ⟨t, hexec, ?_⟩
    rw [harch]
    exact ⟨rfl, rfl, rfl, he, ha⟩
  case quiet =>
    obtain ⟨t, hexec, harch⟩ := execAll_ttick k s
    rw [Function.iterate_fixed (timerTick_of_stopped he)] at harch
    exact ⟨t, hexec, harch⟩

/-- Settles O38: the two conditions of R291 are those of `frameBits` and `nextFrame`. -/
theorem refreshTick : Obligations.RefreshTick := by
  intro s v
  have hbits : v.intpnd ||| frameBits s.cfg v = if v.fcnt = 0 then v.intpnd ||| s.cfg.rtFrameMask ||| s.cfg.rtGameMask
      else v.intpnd ||| s.cfg.rtFrameMask := by
    unfold frameBits
    split
    · rw [BitVec.or_assoc]
    · rw [show s.cfg.rtFrameMask ||| 0 = s.cfg.rtFrameMask from BitVec.or_zero]
  rw [← hbits]
  exact exec_rtick s

/-- Settles O39: each tick steps the counter around its cycle, and none leaves the cycle. -/
theorem frameCounterCyclesThroughFrmcyc : Obligations.FrameCounterCyclesThroughFrmcyc := by
  refine ⟨fun s n h0 => execAll_rtick h0 n, fun s t hexec => ?_⟩
  rw [exec_arch hexec]
  exact nextFrame_le s.arch.vid

/-- Settles O40: each input sets the fields it names. -/
theorem sidebandInputs : Obligations.SidebandInputs := fun _ _ _ => ⟨rfl, rfl, rfl, rfl, rfl⟩

/-- Settles O44: `SNAP` answers the tuple and `RESTORE` puts the snapshot, if it fits. -/
theorem snapRestoreRoundTrip : Obligations.SnapRestoreRoundTrip := by
  intro s x
  refine ⟨exec_snap s, fun hf => ?snapAfterRestore, fun hf => exec_restore_of_fits rfl hf,
    fun hf => exec_restore_of_not_fits rfl hf⟩
  case snapAfterRestore =>
    have hrestore := exec_restore_of_fits (s := { s with snapIn := some x }) rfl hf
    rw [execAll_cons hrestore, execAll_singleton, exec_snap]
    rfl

/-- Settles O45: each registration sets or clears its own flag. -/
theorem driverRegistration : Obligations.DriverRegistration := fun _ _ => ⟨rfl, rfl, rfl, rfl⟩

/-- Settles O46: the flags after a step are those that the check of the remaining requests starts from. -/
theorem driverDisciplineIsKept : Obligations.DriverDisciplineIsKept := by
  intro s t hs hstep
  obtain ⟨-, ⟨-, rfl⟩ | ⟨q, rest, i, hq, hd, hexec⟩⟩ := step_next hstep
  · exact hs
  · unfold State.DriversHeed at hs
    rw [hq] at hs
    obtain ⟨-, -, hrest⟩ := (driversHeed_ok hd _ _ rest).mp hs
    have hflags := nextArch_flags i (s.accept q rest)
    simp only [accept_snapIn, accept_arch] at hflags
    rw [← hflags, ← exec_arch hexec] at hrest
    unfold State.DriversHeed
    rw [exec_cfg hexec, exec_inbox hexec]
    exact hrest

/-- Settles O47: a flag that is clear is set before the tick that needs it, by one of the operations that set it. -/
theorem noDriverTickBeforeRegistration : Obligations.NoDriverTickBeforeRegistration := by
  intro s pre post q hs hq
  unfold State.DriversHeed at hs
  rw [hq] at hs
  refine ⟨fun hoff hagent hd => ?timer, fun hoff hagent hd => ?refresh⟩
  case timer =>
    refine driversHeed_needs (flag := Prod.fst) (fun i x t r hi ht => flagsAfter_tdrv hi x r ht) (fun t r h => ?_)
      pre _ _ hs hoff
    obtain ⟨hneed, -, -⟩ := (driversHeed_ok hd t r post).mp h
    exact hneed hagent rfl
  case refresh =>
    refine driversHeed_needs (flag := Prod.snd) (fun i x t r hi hr => flagsAfter_rdrv hi x t hr) (fun t r h => ?_)
      pre _ _ hs hoff
    obtain ⟨-, hneed, -⟩ := (driversHeed_ok hd t r post).mp h
    exact hneed hagent rfl

end Sys2Proof.Proofs

namespace Sys2Proof.Proofs

/-! Whole-machine rules (20_memory.md section 6, 60_exceptions.md sections 1 and 2): what a write access leaves unchanged,
what it repeats, and which operations change the interrupt output, the pending flags, the timer, `TXQ` and memory. -/

open Sys2Proof Sys2Proof.Machine Sys2Proof.Laws

/-! ## Operations that write no peripheral register -/

theorem writesPeriph_of_not_write {i : Instr} (h : isWrite i = false) (c : Config) : writesPeriph c i = [] := by
  cases i
  case wrB | wrH | wrW | pwrB | pwrH | pwrW => cases h
  case ccr | ccsr | cdtr | cdrr | slb | shb | tlb | thb | tcr | wcr | scr =>
    exact if_pos ((Bool.not_eq_false' _).mp h)
  all_goals rfl

/-! ## What register writes leave alone -/

/-- Only a write of `INTCLR` changes the pending bits. -/
theorem applyV_intpnd_other {c : Config} {l : List (VReg × Half × Half)} {r : VideoRegs}
    (h : VReg.intclr ∉ l.map (·.1)) : (applyV c l r).intpnd = r.intpnd :=
  applyV_ind (f := (·.intpnd)) fun e he _ =>
    (vwrite_intpnd ..).trans (if_neg fun hx : e.1 = .intclr => h (hx ▸ List.mem_map_of_mem he))

theorem applyV_intenb_other {c : Config} {l : List (VReg × Half × Half)} {r : VideoRegs}
    (h : VReg.intenb ∉ l.map (·.1)) : (applyV c l r).intenb = r.intenb :=
  applyV_ind (f := (·.intenb)) fun _ he _ => vwrite_intenb_other fun hx => h (hx ▸ List.mem_map_of_mem he)

section
variable (c : Config) (i : Instr) (a : Arch)

/-- The tuple after the video writes and the stores of an operation, before its peripheral write. -/
def storedArch : Arch := { a with vid := applyV c (vWrites c i) a.vid, mem := storeEffect c i a.mem }

/-- A write access writes no peripheral register or one. -/
theorem writeEffect_cases : (writesPeriph c i = [] ∧ writeEffect c i a = storedArch c i a) ∨
    ∃ x v, writesPeriph c i = [x] ∧ writeEffect c i a = pwrite c v (storedArch c i a) x := by
  rw [← pWrites_regs]
  rcases pWrites_le_one c i with h | ⟨x, v, h⟩
  · exact .inl ⟨by rw [h]; rfl, by rw [writeEffect, h]; rfl⟩
  · exact .inr ⟨x, v, by rw [h]; rfl, by rw [writeEffect, h]; rfl⟩

end

section
variable {c : Config} {i : Instr} {a : Arch}

/-- A field of the peripheral registers that a write of any register but `x` leaves, stays unless `x` is written. -/
theorem writeEffect_per_other {α : Type} {f : PeriphRegs → α} {x : PReg}
    (hf : ∀ (v : Byte) (b : Arch) (y : PReg), y ≠ x → f (pwrite c v b y).per = f b.per) (hx : x ∉ writesPeriph c i) :
    f (writeEffect c i a).per = f a.per :=
  writeEffect_per (f := fun b => f b.per) (fun _ _ _ => rfl) fun y hy v b => hf v b y (ne_of_mem_of_not_mem hy hx)

/-- Only a write of `TCR` touches the timer's control and counter (42_periph_regs.md R240). -/
theorem writeEffect_timer (h : PReg.tcr ∉ writesPeriph c i) :
    (writeEffect c i a).per.tEnb = a.per.tEnb ∧ (writeEffect c i a).per.zStat = a.per.zStat ∧
    (writeEffect c i a).per.zInt = a.per.zInt ∧ (writeEffect c i a).per.tAuto = a.per.tAuto ∧
    (writeEffect c i a).per.tCount = a.per.tCount ∧ (writeEffect c i a).per.tReset = a.per.tReset := by
  have htuple := writeEffect_per_other (a := a)
    (f := fun p => (p.tEnb, p.zStat, p.zInt, p.tAuto, p.tCount, p.tReset))
    (fun v b y hy => by
      obtain ⟨h1, h2, h3, h4, h5, h6⟩ := pwrite_timer_other (c := c) (v := v) (a := b) hy
      rw [h1, h2, h3, h4, h5, h6]) h
  simpa only [Prod.mk.injEq] using htuple

/-- `TXQ` takes the byte of a `CDTR` write and no other (42_periph_regs.md R228). -/
theorem writeEffect_cdtr :
    (PReg.cdtr ∉ writesPeriph c i ∧ (writeEffect c i a).per.cdtr = a.per.cdtr ∧ (writeEffect c i a).txq = a.txq) ∨
    (PReg.cdtr ∈ writesPeriph c i ∧ (writeEffect c i a).txq = a.txq ++ [(writeEffect c i a).per.cdtr]) := by
  obtain ⟨hregs, heff⟩ | ⟨x, v, hregs, heff⟩ := writeEffect_cases c i a
  · rw [hregs, heff]
    exact .inl ⟨List.not_mem_nil, rfl, rfl⟩
  · obtain ⟨hcdtr, hother⟩ := pwrite_cdtr c v (storedArch c i a) x
    rw [hregs, heff, List.mem_singleton]
    by_cases hx : x = .cdtr
    · obtain ⟨hbyte, hq⟩ := hcdtr hx
      exact .inr ⟨hx.symm, by rw [hq, hbyte]; rfl⟩
    · exact .inl ⟨fun h => hx h.symm, hother hx⟩

/-- No write access sets the pending bit of the timer. -/
theorem writeEffect_zStat_le (h : (writeEffect c i a).per.zStat = true) : a.per.zStat = true := by
  obtain ⟨-, heff⟩ | ⟨x, v, -, heff⟩ := writeEffect_cases c i a
  · rw [heff] at h
    exact h
  · rw [heff] at h
    exact pwrite_zStat_le c v (storedArch c i a) x h

theorem writeEffect_intpnd (h : VReg.intclr ∉ writesVideo c i) : (writeEffect c i a).vid.intpnd = a.vid.intpnd := by
  rw [writeEffect_vid, applyV_intpnd_other (by rwa [vWrites_regs])]

theorem writeEffect_intenb (h : VReg.intenb ∉ writesVideo c i) : (writeEffect c i a).vid.intenb = a.vid.intenb := by
  rw [writeEffect_vid, applyV_intenb_other (by rwa [vWrites_regs])]

theorem storeEffect_of_not_store (h : stores c i = none) (m : Memory) : storeEffect c i m = m := by
  rw [storeEffect, h]

/-- No store reaches a region that is not writable (20_memory.md R81). -/
theorem store_storeEffect_readOnly {r : Region} (hw : (c.win r).writable = false) (m : Memory) :
    (storeEffect c i m).store r = m.store r := by
  unfold storeEffect
  rcases hs : stores c i with _ | ⟨r', off, sz⟩
  · rfl
  · have hr : r ≠ r' := by
      rintro rfl
      cases hw.symm.trans (stores_back hs)
    show (regionWrite c m r' off sz (storedValue i)).store r = _
    rw [regionWrite, if_pos (stores_back hs), store_setStore_other m _ hr]

/-! ## A write repeated (20_memory.md R86) -/

theorem storeEffect_idem (hc : c.Wf) {m : Memory} (hm : m.Fits c) :
    storeEffect c i (storeEffect c i m) = storeEffect c i m := by
  unfold storeEffect
  split
  · exact regionWrite_idem hc hm ..
  · rfl

theorem storedArch_idem (hc : c.Wf) (ha : a.mem.Fits c) : storedArch c i (storedArch c i a) = storedArch c i a := by
  simp only [storedArch, storeEffect_idem hc ha, applyV_idem (vWrites_regs c i ▸ vWrites_nodup hc i)]

/-- A peripheral write comes after the video writes and the stores or before them, without a difference. -/
theorem storedArch_pwrite (x : PReg) (v : Byte) :
    storedArch c i (pwrite c v a x) = pwrite c v (storedArch c i a) x := by
  cases x <;> rfl

/-- A write access repeated is the access, unless it writes `CDTR`. -/
theorem writeEffect_idem (hc : c.Wf) (ha : a.mem.Fits c) (h : PReg.cdtr ∉ writesPeriph c i) :
    writeEffect c i (writeEffect c i a) = writeEffect c i a := by
  have happly (b : Arch) : writeEffect c i b = applyP c (pWrites c i) (storedArch c i b) := rfl
  rw [← pWrites_regs] at h
  rcases pWrites_le_one c i with hp | ⟨x, v, hp⟩
  · simp only [happly, hp, applyP_nil, storedArch_idem hc ha]
  · rw [hp] at h
    have hx : x ≠ .cdtr := fun he => h (by rw [he]; exact List.mem_singleton_self _)
    simp only [happly, hp, applyP_cons, applyP_nil, storedArch_pwrite, storedArch_idem hc ha, pwrite_idem c v _ hx]

end

/-! ## What the events leave alone (44_events.md) -/

section
variable {i : Instr} {s : State} (hreset : i ≠ .reset) (hrestore : i ≠ .restore)
include hreset hrestore

/-- No event but `RESET` and `RESTORE` reaches memory, `TXQ` or `INTENB`. -/
theorem event_keeps (he : isEvent i = true) : (nextArch i s).mem = s.arch.mem ∧ (nextArch i s).txq = s.arch.txq ∧
    (nextArch i s).vid.intenb = s.arch.vid.intenb := by
  cases i
  case reset => exact absurd rfl hreset
  case restore => exact absurd rfl hrestore
  case ttick | rtick | vraise | vstat | vcta | serrx | comrx | pstat | tdrvOn | tdrvOff | rdrvOn | rdrvOff =>
    exact ⟨rfl, rfl, rfl⟩
  all_goals cases he

theorem event_intpnd (he : isEvent i = true) (hrtick : i ≠ .rtick) (hvraise : ∀ m, i ≠ .vraise m) :
    (nextArch i s).vid.intpnd = s.arch.vid.intpnd := by
  cases i
  case reset => exact absurd rfl hreset
  case restore => exact absurd rfl hrestore
  case rtick => exact absurd rfl hrtick
  case vraise m => exact absurd rfl (hvraise m)
  case ttick | vstat | vcta | serrx | comrx | pstat | tdrvOn | tdrvOff | rdrvOn | rdrvOff => rfl
  all_goals cases he

/-- No event but `TTICK`, `RESET` and `RESTORE` reaches the timer's control and counter. -/
theorem event_timer (he : isEvent i = true) (httick : i ≠ .ttick) :
    (nextArch i s).per.tEnb = s.arch.per.tEnb ∧ (nextArch i s).per.zStat = s.arch.per.zStat ∧
    (nextArch i s).per.zInt = s.arch.per.zInt ∧ (nextArch i s).per.tAuto = s.arch.per.tAuto ∧
    (nextArch i s).per.tCount = s.arch.per.tCount ∧ (nextArch i s).per.tReset = s.arch.per.tReset := by
  cases i
  case reset => exact absurd rfl hreset
  case restore => exact absurd rfl hrestore
  case ttick => exact absurd rfl httick
  case pstat x v =>
    obtain ⟨_, _, _, hp⟩ := pstatus_getD s.cfg v s.arch.per x
    rw [nextArch_pstat, hp]
    exact ⟨rfl, rfl, rfl, rfl, rfl, rfl⟩
  case rtick | vraise | vstat | vcta | serrx | comrx | tdrvOn | tdrvOff | rdrvOn | rdrvOff =>
    exact ⟨rfl, rfl, rfl, rfl, rfl, rfl⟩
  all_goals cases he

/-! ## The tuple after any operation -/

theorem nextArch_intpnd (hclr : VReg.intclr ∉ writesVideo s.cfg i) (hrtick : i ≠ .rtick)
    (hvraise : ∀ m, i ≠ .vraise m) : (nextArch i s).vid.intpnd = s.arch.vid.intpnd :=
  nextArch_cases (P := fun a => a.vid.intpnd = s.arch.vid.intpnd) rfl (fun _ => writeEffect_intpnd hclr)
    fun he => event_intpnd hreset hrestore he hrtick hvraise

theorem nextArch_intenb (henb : VReg.intenb ∉ writesVideo s.cfg i) :
    (nextArch i s).vid.intenb = s.arch.vid.intenb := by
  refine nextArch_cases (P := fun a => a.vid.intenb = s.arch.vid.intenb) rfl (fun _ => writeEffect_intenb henb)
    fun he => ?_
  obtain ⟨-, -, h⟩ := event_keeps hreset hrestore he
  exact h

theorem nextArch_timer (htcr : PReg.tcr ∉ writesPeriph s.cfg i) (httick : i ≠ .ttick) :
    (nextArch i s).per.tEnb = s.arch.per.tEnb ∧ (nextArch i s).per.zStat = s.arch.per.zStat ∧
    (nextArch i s).per.zInt = s.arch.per.zInt ∧ (nextArch i s).per.tAuto = s.arch.per.tAuto ∧
    (nextArch i s).per.tCount = s.arch.per.tCount ∧ (nextArch i s).per.tReset = s.arch.per.tReset :=
  nextArch_cases (P := fun a => a.per.tEnb = s.arch.per.tEnb ∧ a.per.zStat = s.arch.per.zStat ∧
    a.per.zInt = s.arch.per.zInt ∧ a.per.tAuto = s.arch.per.tAuto ∧ a.per.tCount = s.arch.per.tCount ∧
    a.per.tReset = s.arch.per.tReset) ⟨rfl, rfl, rfl, rfl, rfl, rfl⟩ (fun _ => writeEffect_timer htcr)
    fun he => event_timer hreset hrestore he httick

/-- Bits of `INTPND` are set by `RTICK` and `VRAISE` only. -/
theorem nextArch_intpnd_le (hrtick : i ≠ .rtick) (hvraise : ∀ m, i ≠ .vraise m) {k : Nat}
    (h : (nextArch i s).vid.intpnd.getLsbD k = true) : s.arch.vid.intpnd.getLsbD k = true := by
  revert h
  refine nextArch_cases (P := fun a => a.vid.intpnd.getLsbD k = true → s.arch.vid.intpnd.getLsbD k = true) id
    (fun _ h => ?write) fun he h => ?event
  case write =>
    rw [writeEffect_vid] at h
    exact applyV_intpnd_le h
  case event => rwa [event_intpnd hreset hrestore he hrtick hvraise] at h

/-- `Z_STAT` is set by `TTICK` only. -/
theorem nextArch_zStat_le (httick : i ≠ .ttick) (h : (nextArch i s).per.zStat = true) : s.arch.per.zStat = true := by
  revert h
  refine nextArch_cases (P := fun a => a.per.zStat = true → s.arch.per.zStat = true) id
    (fun _ => writeEffect_zStat_le) fun he h => ?_
  obtain ⟨-, hz, -⟩ := event_timer hreset hrestore he httick
  rwa [hz] at h

end

/-- A timer tick keeps a pending request of the timer. -/
theorem timerTick_zStat {p : PeriphRegs} (h : p.zStat = true) : (timerTick p).zStat = true := by
  obtain ⟨-, ht⟩ | ⟨-, -, ht⟩ | ⟨-, -, -, ht⟩ | ⟨-, -, -, ht⟩ := timerTick_cases p <;> rw [ht]
  · exact h
  · exact h

theorem irq_congr {a b : Arch} (hpnd : a.vid.intpnd = b.vid.intpnd) (henb : a.vid.intenb = b.vid.intenb)
    (hstat : a.per.zStat = b.per.zStat) (hint : a.per.zInt = b.per.zInt) : a.irq = b.irq := by
  rw [Arch.irq, Arch.irq, hpnd, henb, hstat, hint]

/-! ## The statements -/

/-- Settles O48: every read puts back the tuple it found. -/
theorem readsChangeNoState : Obligations.ReadsChangeNoState := fun _ s hr => exec_read hr s

/-- Settles O49: a write access is its register writes and its stores, and each leaves every field but its own. -/
theorem writeFrame : Obligations.WriteFrame := by
  intro i s hs hw
  obtain ⟨hc, hfits⟩ := hs
  refine ⟨_, exec_write hw s, writeEffect_tdrv .., writeEffect_rdrv .., ?fcnt, ?tWord, fun x hx hclr => ?video,
    writeEffect_per_other fun _ _ _ => pwrite_ccr_other, writeEffect_per_other fun _ _ _ => pwrite_ccsr_other,
    writeEffect_per_other fun _ _ _ => pwrite_scr_other, writeEffect_per_other fun _ _ _ => pwrite_wcr_other,
    fun hx => ?cdtr, ?receive⟩
  case fcnt => rw [writeEffect_vid, applyV_fcnt]
  case tWord => exact writeEffect_per (f := (·.per.tWord)) (fun _ _ _ => rfl) fun _ _ _ _ => pwrite_tWord ..
  case video =>
    rw [← vWrites_regs] at hx hclr
    rw [writeEffect_vid, vread_applyV hx hclr]
  case cdtr =>
    obtain ⟨-, hkeep⟩ | ⟨hmem, -⟩ := writeEffect_cdtr (c := s.cfg) (i := i) (a := s.arch)
    · exact hkeep
    · exact absurd hmem hx
  case receive =>
    obtain ⟨hcdrr, hslb, hshb⟩ := writeEffect_receive s.cfg i s.arch
    refine ⟨hcdrr, hslb, hshb, fun hl hh => ?stage, fun hx => ?timer, fun r k hk => ?memory⟩
    case stage =>
      exact writeEffect_per (f := (·.per.tStage)) (fun _ _ _ => rfl) fun y hy _ _ =>
        pwrite_tStage_other (ne_of_mem_of_not_mem hy hl) (ne_of_mem_of_not_mem hy hh)
    case timer => exact writeEffect_timer hx
    case memory =>
      rw [writeEffect_mem]
      exact readCell_storeEffect hc hfits hk

/-- Settles O50: the operations not listed keep the four values that `IRQ` is made of. -/
theorem irqChangesOnlyByListedOperations : Obligations.IrqChangesOnlyByListedOperations := by
  intro i s t hexec henb hclr htcr httick hrtick hvraise hreset hrestore
  rw [exec_arch hexec]
  obtain ⟨-, hstat, hint, -⟩ := nextArch_timer hreset hrestore htcr httick
  exact irq_congr (nextArch_intpnd hreset hrestore hclr hrtick hvraise) (nextArch_intenb hreset hrestore henb)
    hstat hint

/-- Settles O51: an operation that does not write the acknowledge register keeps the pending bits, and the ticks and
`VRAISE` only add to them. -/
theorem pendingBitsAreSticky : Obligations.PendingBitsAreSticky := by
  intro i s t hexec hreset hrestore
  rw [exec_arch hexec]
  refine ⟨fun hclr k hk => ?video, fun htcr hz => ?timer⟩
  case video =>
    by_cases hrtick : i = .rtick
    · subst hrtick
      exact (BitVec.getLsbD_or ..).trans (by rw [hk, Bool.true_or])
    · by_cases hvraise : ∃ m, i = .vraise m
      · obtain ⟨m, rfl⟩ := hvraise
        exact (BitVec.getLsbD_or ..).trans (by rw [hk, Bool.true_or])
      · rwa [nextArch_intpnd hreset hrestore hclr hrtick (not_exists.mp hvraise)]
  case timer =>
    by_cases httick : i = .ttick
    · subst httick
      exact timerTick_zStat hz
    · obtain ⟨-, hstat, -⟩ := nextArch_timer hreset hrestore htcr httick
      rwa [hstat]

/-- Settles O52: an operation other than the source leaves a flag or clears it. -/
theorem pendingFlagsAreSetOnlyByTheirSources : Obligations.PendingFlagsAreSetOnlyByTheirSources := by
  intro i s t hexec hreset hrestore
  rw [exec_arch hexec]
  exact ⟨fun hrtick hvraise _ => nextArch_intpnd_le hreset hrestore hrtick hvraise,
    fun httick => nextArch_zStat_le hreset hrestore httick⟩

/-- Settles O53: the operations not listed keep the timer's control and counter. -/
theorem timerChangesOnlyByItsOperations : Obligations.TimerChangesOnlyByItsOperations := by
  intro i s t hexec htcr httick hreset hrestore
  rw [exec_arch hexec]
  obtain ⟨henb, -, hint, hauto, hcount, hlatch⟩ := nextArch_timer hreset hrestore htcr httick
  exact ⟨henb, hcount, hlatch, hauto, hint⟩

/-- Settles O54: a write access appends what it stores in `CDTR`, and nothing else reaches `TXQ`. -/
theorem transmitQueueOnlyGrows : Obligations.TransmitQueueOnlyGrows := by
  intro i s t hexec hreset hrestore
  rw [exec_arch hexec]
  rcases hw : isWrite i with _ | _
  · rw [writesPeriph_of_not_write hw]
    refine .inl ⟨List.not_mem_nil, ?_⟩
    refine nextArch_cases (P := fun a => a.txq = s.arch.txq) rfl (fun hw' => absurd hw' (Bool.eq_false_iff.mp hw))
      fun he => ?_
    obtain ⟨-, htxq, -⟩ := event_keeps hreset hrestore he
    exact htxq
  · rw [nextArch_write hw]
    exact writeEffect_cdtr.imp (fun ⟨hx, _, htxq⟩ => ⟨hx, htxq⟩) id

/-- Settles O55: memory changes by the stores of a bus write, and ROM is not writable. -/
theorem onlyBusWritesChangeMemory : Obligations.OnlyBusWritesChangeMemory := by
  intro i s t hc hexec hreset hrestore
  obtain ⟨-, -, -, -, ⟨hrom, -⟩, -⟩ := hc
  have hmem : (nextArch i s).mem = s.arch.mem ∨ (nextArch i s).mem = storeEffect s.cfg i s.arch.mem := by
    refine nextArch_cases (P := fun a => a.mem = s.arch.mem ∨ a.mem = storeEffect s.cfg i s.arch.mem) (.inl rfl)
      (fun _ => .inr (writeEffect_mem ..)) fun he => ?_
    obtain ⟨hkeep, -⟩ := event_keeps hreset hrestore he
    exact .inl hkeep
  rw [exec_arch hexec]
  refine ⟨?rom, fun hb hh hw => ?others⟩
  case rom =>
    rcases hmem with h | h <;> rw [h]
    exact store_storeEffect_readOnly (r := .rom) hrom s.arch.mem
  case others =>
    have hstores : stores s.cfg i = none := by
      cases i
      case wrB a d => exact absurd rfl (hb a d)
      case wrH a d => exact absurd rfl (hh a d)
      case wrW a d => exact absurd rfl (hw a d)
      all_goals rfl
    rw [storeEffect_of_not_store hstores, or_self] at hmem
    exact hmem

/-- Settles O56: a write that leaves `TXQ` does not write `CDTR`, and such a write repeated is the write. -/
theorem repeatedWritesAreIdempotent : Obligations.RepeatedWritesAreIdempotent := by
  intro i s t hs hw hexec htxq
  obtain ⟨hc, hfits⟩ := hs
  rw [exec_write hw s] at hexec
  injection hexec with ht
  subst ht
  have hcdtr : PReg.cdtr ∉ writesPeriph s.cfg i := by
    obtain ⟨hx, -⟩ | ⟨-, hgrows⟩ := writeEffect_cdtr (c := s.cfg) (i := i) (a := s.arch)
    · exact hx
    · exact absurd (hgrows.symm.trans htxq) (by simp)
  rw [exec_write hw, put_cfg, put_arch, writeEffect_idem hc hfits hcdtr]
  rfl

end Sys2Proof.Proofs

namespace Sys2Proof.Proofs

/-! Fields that nothing reads (10_state.md section 7, 41_video_regs.md section 5, 42_periph_regs.md section 6): the answer
of a read depends only on what the registers and memory show, and the inert fields gate no operation. -/

open Sys2Proof Sys2Proof.Machine Sys2Proof.Laws

/-! ## Reads see only what the registers and memory show -/

/-- Two tuples that no read but `SNAP` tells apart. -/
structure SameReadings (c : Config) (a b : Arch) : Prop where
  mem : a.mem = b.mem
  vid : ∀ x, vread c a.vid x = vread c b.vid x
  per : ∀ x, pread c a.per x = pread c b.per x
  irq : a.irq = b.irq

section
variable {c : Config} {a b : Arch} (h : SameReadings c a b)
include h

theorem vregRead_congr (o : Nat) : vregRead c a.vid o = vregRead c b.vid o := by
  unfold vregRead
  split
  · exact h.vid _
  · rfl

theorem pblkByte_congr (o : Nat) : pblkByte c a.per o = pblkByte c b.per o := by
  unfold pblkByte pregRead
  split
  · split
    · exact h.per _
    · rfl
  · rfl

theorem vblkRead_congr (off : Nat) (sz : Size) : vblkRead c a.vid off sz = vblkRead c b.vid off sz := by
  cases sz <;> simp only [vblkRead, vregRead_congr h]

theorem pblkRead_congr (off : Nat) (sz : Size) : pblkRead c a.per off sz = pblkRead c b.per off sz := by
  simp only [pblkRead, pblkByte_congr h]

theorem memRead_congr (addr : Word) (sz : Size) : memRead c a addr sz = memRead c b addr sz := by
  simp only [memRead, h.mem, vblkRead_congr h, pblkRead_congr h]

end

/-- An operation that answers the same in both states and changes nothing else of either. -/
def SameAnswer (i : Instr) (s s' : State) : Prop :=
  ∃ r, exec i s = .next (s.put s.arch r) ∧ exec i s' = .next (s'.put s'.arch r)

section
variable {s s' : State} (hcfg : s'.cfg = s.cfg) (h : SameReadings s.cfg s'.arch s.arch)
include hcfg h

theorem vregAccess_sameAnswer {i : Instr} {x : VReg} {acc : VAccess} (hi : ∀ s, exec i s = vregAccess x acc s)
    (hacc : vaccReads acc = true) : SameAnswer i s s' := by
  cases acc with
  | readByte hi' => exact ⟨_, hi s, (hi s').trans (by rw [vregAccess, hcfg, h.vid]; rfl)⟩
  | readHalf => exact ⟨_, hi s, (hi s').trans (by rw [vregAccess, hcfg, h.vid]; rfl)⟩
  | writeByte | writeHalf => cases hacc

theorem pregAccess_sameAnswer {i : Instr} {x : PReg} {acc : PAccess} (hi : ∀ s, exec i s = pregAccess x acc s)
    (hacc : paccReads acc = true) : SameAnswer i s s' := by
  cases acc with
  | read => exact ⟨_, hi s, (hi s').trans (by rw [pregAccess, hcfg, h.per]; rfl)⟩
  | write => cases hacc

/-- Every read but `SNAP` answers the same in states with the same readings. -/
theorem read_sameAnswer {i : Instr} (hr : isRead i = true) (hsnap : i ≠ .snap) : SameAnswer i s s' := by
  cases i
  case rdB a => exact ⟨_, exec_rdB s a, by rw [exec_rdB, hcfg, memRead_congr h]⟩
  case rdH a => exact ⟨_, exec_rdH s a, by rw [exec_rdH, hcfg, memRead_congr h]⟩
  case rdW a => exact ⟨_, exec_rdW s a, by rw [exec_rdW, hcfg, memRead_congr h]⟩
  case vrdB a => exact ⟨_, exec_vrdB s a, by rw [exec_vrdB, hcfg, vregRead_congr h]⟩
  case vrdH a => exact ⟨_, exec_vrdH s a, by rw [exec_vrdH, hcfg, vregRead_congr h]⟩
  case vrdW a => exact ⟨_, exec_vrdW s a, by simp only [exec_vrdW, hcfg, vregRead_congr h]⟩
  case prdB a => exact ⟨_, exec_prdB s a, by rw [exec_prdB, hcfg, pblkByte_congr h]⟩
  case prdH a => exact ⟨_, exec_prdH s a, by simp only [exec_prdH, hcfg, pblkByte_congr h]⟩
  case prdW a => exact ⟨_, exec_prdW s a, by simp only [exec_prdW, hcfg, pblkByte_congr h]⟩
  case irqq => exact ⟨_, exec_irqq s, by rw [exec_irqq, h.irq]⟩
  case snap => exact absurd rfl hsnap
  case ccr | ccsr | cdtr | cdrr | slb | shb | tlb | thb | tcr | wcr | scr =>
    exact pregAccess_sameAnswer hcfg h (fun _ => rfl) hr
  case intpnd | intenb | intclr | dpstts | dpctrl | brta | brtb | brtc | rest | frmcyc | cta | ver | splt0 | splt1
      | splt2 | splt3 | oplt0 | oplt1 | oplt2 | oplt3 | bkcol => exact vregAccess_sameAnswer hcfg h (fun _ => rfl) hr
  all_goals cases hr

/-- The answer of a read, in another state with the same readings. -/
theorem exec_read_of_sameReadings {i : Instr} {t : State} (hr : isRead i = true) (hsnap : i ≠ .snap)
    (hexec : exec i s = .next t) : t = s.put s.arch t.result ∧ exec i s' = .next (s'.put s'.arch t.result) := by
  obtain ⟨r, hs, hs'⟩ := read_sameAnswer hcfg h hr hsnap
  rw [hs] at hexec
  injection hexec with ht
  subst ht
  exact ⟨rfl, hs'⟩

end

/-! ## The hidden fields -/

/-- The tuple with other values in the hidden fields, the drivers' flags and `CDTR`. -/
def hide (f st : Half) (w : Word) (r td rd : Bool) (cd : Byte) (q : List Byte) (a : Arch) : Arch :=
  { a with
    vid := { a.vid with fcnt := f }
    per := { a.per with tStage := st, tWord := w, tReset := r, cdtr := cd }
    txq := q
    tdrv := td
    rdrv := rd }

theorem hide_sameReadings (c : Config) (f st : Half) (w : Word) (r td rd : Bool) (cd : Byte) (q : List Byte)
    (a : Arch) : SameReadings c (hide f st w r td rd cd q a) a where
  mem := rfl
  vid x := by cases x <;> rfl
  per x := by cases x <;> rfl
  irq := rfl

/-! ## The inert fields (10_state.md R55, R56, R58) -/

/-- The peripheral registers with other values in `T_WORD` and `T_RESET`. -/
def setInertPer (w : Word) (r : Bool) (p : PeriphRegs) : PeriphRegs := { p with tWord := w, tReset := r }

/-- The tuple with other values in the inert fields. -/
def setInert (w : Word) (r td rd : Bool) (a : Arch) : Arch :=
  { a with per := setInertPer w r a.per, tdrv := td, rdrv := rd }

/-- Two tuples that differ at most in the inert fields. -/
def SameButInert (a b : Arch) : Prop := ∃ w r td rd, a = setInert w r td rd b

section
variable (w : Word) (r td rd : Bool)

theorem timerTick_setInertPer (p : PeriphRegs) :
    ∃ r', timerTick (setInertPer w r p) = setInertPer w r' (timerTick p) := by
  obtain ⟨he, ht⟩ | ⟨he, hc, ht⟩ | ⟨he, hc, ha, ht⟩ | ⟨he, hc, ha, ht⟩ := timerTick_cases p
  · exact ⟨r, by rw [ht, timerTick_of_stopped (by exact he)]⟩
  · exact ⟨false, by rw [ht, timerTick_of_counting (by exact he) (by exact hc)]; rfl⟩
  · exact ⟨false, by rw [ht, timerTick_of_reload (by exact he) (by exact hc) (by exact ha)]; rfl⟩
  · exact ⟨false, by rw [ht, timerTick_of_oneShot (by exact he) (by exact hc) (by exact ha)]; rfl⟩

theorem tcrWrite_setInertPer (t : TcrBits) (v : Byte) (p : PeriphRegs) :
    ∃ r', tcrWrite t v (setInertPer w r p) = setInertPer w r' (tcrWrite t v p) :=
  ⟨_, by rw [tcrWrite_eq, tcrWrite_eq]; rfl⟩

theorem pwrite_setInert (c : Config) (v : Byte) (a : Arch) (x : PReg) :
    ∃ r', pwrite c v (setInert w r td rd a) x = setInert w r' td rd (pwrite c v a x) := by
  cases x
  case tcr =>
    obtain ⟨r', hr⟩ := tcrWrite_setInertPer w r c.tcr v a.per
    exact ⟨r', congrArg (fun p => { a with per := p, tdrv := td, rdrv := rd }) hr⟩
  all_goals exact ⟨r, rfl⟩

theorem writeEffect_setInert (c : Config) (i : Instr) (a : Arch) :
    ∃ r', writeEffect c i (setInert w r td rd a) = setInert w r' td rd (writeEffect c i a) := by
  have happly (b : Arch) : writeEffect c i b = applyP c (pWrites c i) (storedArch c i b) := rfl
  rcases pWrites_le_one c i with hp | ⟨x, v, hp⟩
  · exact ⟨r, by rw [happly, happly, hp]; rfl⟩
  · obtain ⟨r', hr⟩ := pwrite_setInert w r td rd c v (storedArch c i a) x
    exact ⟨r', by rw [happly, happly, hp]; exact hr⟩

end

theorem sameButInert_refl (a : Arch) : SameButInert a a := ⟨a.per.tWord, a.per.tReset, a.tdrv, a.rdrv, rfl⟩

/-- The state with other values in the inert fields of its tuple. -/
def withInert (w : Word) (r td rd : Bool) (s : State) : State := { s with arch := setInert w r td rd s.arch }

/-! ## Events whatever the inert fields hold -/

/-- An event that completes is well-formed, had a snapshot if it is `RESTORE`, and returns nothing. -/
theorem exec_event {i : Instr} (he : isEvent i = true) {s t : State} (hexec : exec i s = .next t) : i.wf = true ∧
    (i = .restore → ∃ x : Arch, s.snapIn = some x ∧ x.mem.Fits s.cfg) ∧ t = s.put (nextArch i s) .none := by
  cases i
  case restore =>
    obtain ⟨x, hx, hf, ht⟩ := exec_restore hexec
    exact ⟨rfl, fun _ => ⟨x, hx, hf⟩, by rw [nextArch_restore, hx]; exact ht⟩
  case pstat x v =>
    cases x
    case ccr | ccsr | scr => exact ⟨rfl, nofun, (answer_eq_next.mp hexec).symm⟩
    all_goals cases hexec
  case reset | ttick | rtick | vraise | vstat | vcta | serrx | comrx | tdrvOn | tdrvOff | rdrvOn | rdrvOff =>
    exact ⟨rfl, nofun, (answer_eq_next.mp hexec).symm⟩
  all_goals cases he

section
variable (w : Word) (r td rd : Bool)

/-- The tuple after an event, the inert fields apart, does not depend on them. -/
theorem nextArch_event_withInert {i : Instr} (he : isEvent i = true) (s : State) :
    SameButInert (nextArch i (withInert w r td rd s)) (nextArch i s) := by
  cases i
  case reset => exact sameButInert_refl _
  case restore =>
    rw [nextArch_restore, nextArch_restore, show (withInert w r td rd s).snapIn = s.snapIn from rfl]
    cases s.snapIn with
    | none => exact ⟨w, r, td, rd, rfl⟩
    | some x => exact sameButInert_refl x
  case ttick =>
    obtain ⟨r', hr⟩ := timerTick_setInertPer w r s.arch.per
    exact ⟨w, r', td, rd, congrArg (fun p => { s.arch with per := p, tdrv := td, rdrv := rd }) hr⟩
  case pstat x v => cases x <;> exact ⟨w, r, td, rd, rfl⟩
  case tdrvOn => exact ⟨w, r, true, rd, rfl⟩
  case tdrvOff => exact ⟨w, r, false, rd, rfl⟩
  case rdrvOn => exact ⟨w, r, td, true, rfl⟩
  case rdrvOff => exact ⟨w, r, td, false, rfl⟩
  case rtick | vraise | vstat | vcta | serrx | comrx => exact ⟨w, r, td, rd, rfl⟩
  all_goals cases he

/-- Every operation but `SNAP` does the same whatever the inert fields hold, those fields apart. -/
theorem exec_withInert {i : Instr} {s t : State} (hsnap : i ≠ .snap) (hexec : exec i s = .next t) :
    ∃ a, SameButInert a t.arch ∧ exec i (withInert w r td rd s) = .next { t with arch := a } := by
  rcases hr : isRead i with _ | _
  · rcases hw : isWrite i with _ | _
    · have he := isEvent_of hr hw
      obtain ⟨hwf, hrestore, rfl⟩ := exec_event he hexec
      obtain ⟨t', hexec'⟩ := exec_event_completes (s := withInert w r td rd s) he hwf hrestore
      obtain ⟨-, -, rfl⟩ := exec_event he hexec'
      exact ⟨_, nextArch_event_withInert w r td rd he s, hexec'⟩
    · rw [exec_write hw] at hexec
      injection hexec with ht
      subst ht
      obtain ⟨r', hinert⟩ := writeEffect_setInert w r td rd s.cfg i s.arch
      exact ⟨_, ⟨w, r', td, rd, hinert⟩, exec_write hw _⟩
  · have hreadings : SameReadings s.cfg (withInert w r td rd s).arch s.arch :=
      hide_sameReadings s.cfg s.arch.vid.fcnt s.arch.per.tStage w r td rd s.arch.per.cdtr s.arch.txq s.arch
    obtain ⟨ht, hexec'⟩ :=
      exec_read_of_sameReadings (s := s) (s' := withInert w r td rd s) rfl hreadings hr hsnap hexec
    refine ⟨_, ⟨w, r, td, rd, rfl⟩, hexec'.trans ?_⟩
    rw [ht]
    rfl

end

/-! ## The statements -/

/-- Settles O58: the tuple with other hidden values has the same readings. -/
theorem hiddenFieldsCannotBeRead : Obligations.HiddenFieldsCannotBeRead := by
  intro i s t f st w r td rd cd q hr hsnap hexec s'
  have hreadings := hide_sameReadings s.cfg f st w r td rd cd q s.arch
  obtain ⟨-, hs'⟩ := exec_read_of_sameReadings (s := s) (s' := s') rfl hreadings hr hsnap hexec
  exact hs'

/-- Settles O57: a read has the same readings, a write access does not read the inert fields, and an event reads none of
them. -/
theorem inertFieldsGateNothing : Obligations.InertFieldsGateNothing := by
  intro i s t w r td rd hsnap hexec
  obtain ⟨_, ⟨w', r', td', rd', rfl⟩, hexec'⟩ := exec_withInert w r td rd hsnap hexec
  exact ⟨w', r', td', rd', hexec'⟩

end Sys2Proof.Proofs
